-- ==== Sys2Proof/Word.lean ====
section
/-!
DEFINITION. The two word types of the machine (00_scope.md R14, R16): bytes and 16-bit words.
Everything that is done to them (byte order, sign extension, flags) stands in files a repair can reach.
-/

namespace Sys2Proof

/-- "Byte. Unsigned 8-bit value 0x00..0xFF" (R16). -/
abbrev Byte := BitVec 8

/-- "Word (16-bit address)", 0x0000..0xFFFF (R16). -/
abbrev Word := BitVec 16

end Sys2Proof
end

