-- ==== Sys2Proof/Config.lean ====
section
/-!
DEFINITION. The parameters of an instance of the core (00_scope.md R5 to R13) and the free values (R148).
"The parameters below are arguments of the model. None of them is architectural state" (00_scope.md section 3; R48), so
none stands in State: an instruction carries the variant they pick (R15; log 1), `Sys2Proof.Machine.stepWith` takes the
rest. The opcode table (R8) is an argument too.
-/

namespace Sys2Proof

/-- CHIP_GENERATION (R5): it selects the decimal-mode flag rules of ADC and SBC, and nothing else. -/
inductive ChipGeneration where
  | nmos
  | cmos
  deriving DecidableEq, Repr

/-- CMP_CARRY_RULE (R12): how CMP, CPX and CPY set C (R126). -/
inductive CmpCarryRule where
  | unsignedGe
  | bit7OfDifference
  deriving DecidableEq, Repr

/-- CMOS_DEC_SBC_CV (R13): C and V of a CMOS decimal SBC (R148). -/
inductive CmosDecSbcCv where
  | asNmos
  | draw
  deriving DecidableEq, Repr

/-- The parameters an instance is constructed with (R197): the chip profile (R5 to R7), housekeeping (R9), the two
limits (R10, R11) and the two rule choices (R12, R13). They are constant for the lifetime of a core (R15), so a run has
one of these. -/
structure Config where
  chipGeneration : ChipGeneration
  jmpIndirectPageBug : Bool
  rorNoCarryBug : Bool
  housekeeping : Bool
  loadedLimit : Option Nat
  executedLimit : Option Nat
  cmpCarryRule : CmpCarryRule
  cmosDecSbcCv : CmosDecSbcCv
  deriving DecidableEq, Repr

/-- "fresh unconstrained bits" of R148: the free bits a CMOS decimal SBC draws for C and V under `draw` (log 6).
Nothing can evaluate it, so no claim can rest on its value. -/
opaque Config.freeBit : Nat → Bool

end Sys2Proof
end

