-- ==== Sys2Proof/Forms.lean ====
section
/-!
DEFINITION. The closed names an instruction is made of: the 56 instruction kinds (00_scope.md R2), the thirteen
addressing modes (30_encoding.md R72), the operand forms, a mode together with the operand bytes it fetches, and an
operand form with a variant.
-/

namespace Sys2Proof

/-- "Instruction kind: one of the 56 operations" of R2. -/
inductive Kind where
  | lda | ldx | ldy | sta | stx | sty | tax | tay | txa | tya | tsx | txs
  | pha | php | pla | plp
  | and | ora | eor | bit | cmp | cpx | cpy | inc | dec | inx | iny | dex | dey
  | asl | lsr | rol | ror
  | adc | sbc
  | bcc | bcs | beq | bne | bmi | bpl | bvc | bvs | jmp | jsr | rts | brk | rti | nop
  | clc | sec | cld | sed | cli | sei | clv
  deriving DecidableEq, Repr

/-- The thirteen addressing modes of R72. The page-bug sibling (R86) is named by no table entry (R89), so it is no mode
here: it is an operand form. -/
inductive Mode where
  | implied | accumulator | immediate
  | zeroPage | zeroPageX | zeroPageY | relative
  | absolute | absoluteX | absoluteY | absoluteIndirect
  | indexedIndirect | indirectIndexed
  deriving DecidableEq, Repr

/-- An operand form: the mode and the operand it fetches after the opcode (R72, R75 to R88). A 16-bit operand is the
word of its two bytes ADL, ADH (R70). -/
inductive Operand where
  /-- no operand (R75) -/
  | implied
  /-- `A`: the accumulator itself (R76) -/
  | accumulator
  /-- `#$nn` (R77) -/
  | immediate (n : Byte)
  /-- `$nn` (R78) -/
  | zeroPage (n : Byte)
  /-- `$nn,X` (R79) -/
  | zeroPageX (n : Byte)
  /-- `$nn,Y` (R80) -/
  | zeroPageY (n : Byte)
  /-- a signed offset from the next instruction (R81) -/
  | relative (offset : Byte)
  /-- `$nnnn` (R82) -/
  | absolute (w : Word)
  /-- `$nnnn,X` (R83) -/
  | absoluteX (w : Word)
  /-- `$nnnn,Y` (R84) -/
  | absoluteY (w : Word)
  /-- `($nnnn)` (R85) -/
  | absoluteIndirect (p : Word)
  /-- `($nnnn)` through the page-bug sibling (R86), which the profile puts in place of the form above (R89) -/
  | absoluteIndirectPageBug (p : Word)
  /-- `($nn,X)` (R87) -/
  | indexedIndirect (n : Byte)
  /-- `($nn),Y` (R88) -/
  | indirectIndexed (n : Byte)
  deriving DecidableEq, Repr

/-- The mode of an operand form, as the opcode table names it: the sibling's is the one it replaces (R89). -/
def Operand.mode : Operand → Mode
  | .implied => .implied
  | .accumulator => .accumulator
  | .immediate _ => .immediate
  | .zeroPage _ => .zeroPage
  | .zeroPageX _ => .zeroPageX
  | .zeroPageY _ => .zeroPageY
  | .relative _ => .relative
  | .absolute _ => .absolute
  | .absoluteX _ => .absoluteX
  | .absoluteY _ => .absoluteY
  | .absoluteIndirect _ => .absoluteIndirect
  | .absoluteIndirectPageBug _ => .absoluteIndirect
  | .indexedIndirect _ => .indexedIndirect
  | .indirectIndexed _ => .indirectIndexed

/-- An operand form with the variant the parameters pick for its instruction (R15): "the concrete instruction variant and
mode variant". -/
structure Picked (α : Type) where
  variant : α
  operand : Operand
  deriving DecidableEq, Repr

end Sys2Proof
end

