-- ==== Sys2Proof/Syntax.lean ====
section
/-!
DEFINITION. The instructions: one constructor for each instruction kind of 00_scope.md R2, with its operand form. The
parameters pick "the concrete instruction variant and mode variant" when the table is built (R15), so a kind that has
variants carries the picked one beside its operand form, and no meaning reads a parameter elsewhere (R48; log 1). A row
of the opcode table (30_encoding.md R100) is one constructor with one mode; `Sys2Proof.WellFormed` holds of exactly the
table's 151 pairs.
-/

namespace Sys2Proof

/-- An instruction: a kind, in its variant, with its operand form. -/
inductive Instr where
  -- data movement (41_data_movement.md)
  /-- LDA, load accumulator (R106) -/
  | lda (m : Operand)
  /-- LDX, load X (R107) -/
  | ldx (m : Operand)
  /-- LDY, load Y (R108) -/
  | ldy (m : Operand)
  /-- STA, store accumulator (R109) -/
  | sta (m : Operand)
  /-- STX, store X (R110) -/
  | stx (m : Operand)
  /-- STY, store Y (R111) -/
  | sty (m : Operand)
  /-- TAX, transfer A to X (R112) -/
  | tax (m : Operand)
  /-- TAY, transfer A to Y (R113) -/
  | tay (m : Operand)
  /-- TXA, transfer X to A (R114) -/
  | txa (m : Operand)
  /-- TYA, transfer Y to A (R115) -/
  | tya (m : Operand)
  /-- TSX, transfer S to X (R116) -/
  | tsx (m : Operand)
  /-- TXS, transfer X to S (R117) -/
  | txs (m : Operand)
  -- stack (42_stack.md)
  /-- PHA, push accumulator (R118) -/
  | pha (m : Operand)
  /-- PHP, push processor status (R119) -/
  | php (m : Operand)
  /-- PLA, pull accumulator (R120) -/
  | pla (m : Operand)
  /-- PLP, pull processor status (R121) -/
  | plp (m : Operand)
  -- logic, compare, increment and decrement (43_logic_arith.md)
  /-- AND, bitwise and (R122) -/
  | and (m : Operand)
  /-- ORA, bitwise or (R123) -/
  | ora (m : Operand)
  /-- EOR, bitwise exclusive or (R124) -/
  | eor (m : Operand)
  /-- BIT, test bits (R125) -/
  | bit (m : Operand)
  /-- CMP, compare accumulator (R127); the variant is CMP_CARRY_RULE -/
  | cmp (m : Picked CmpCarryRule)
  /-- CPX, compare X (R128); the variant is CMP_CARRY_RULE -/
  | cpx (m : Picked CmpCarryRule)
  /-- CPY, compare Y (R129); the variant is CMP_CARRY_RULE -/
  | cpy (m : Picked CmpCarryRule)
  /-- INC, increment memory (R130) -/
  | inc (m : Operand)
  /-- DEC, decrement memory (R131) -/
  | dec (m : Operand)
  /-- INX, increment X (R132) -/
  | inx (m : Operand)
  /-- INY, increment Y (R133) -/
  | iny (m : Operand)
  /-- DEX, decrement X (R134) -/
  | dex (m : Operand)
  /-- DEY, decrement Y (R135) -/
  | dey (m : Operand)
  -- shifts and rotates (44_shift_rotate.md)
  /-- ASL, arithmetic shift left (R137) -/
  | asl (m : Operand)
  /-- LSR, logical shift right (R138) -/
  | lsr (m : Operand)
  /-- ROL, rotate left (R139) -/
  | rol (m : Operand)
  /-- ROR, rotate right (R140); the variant is ROR_NO_CARRY_BUG -/
  | ror (m : Picked Bool)
  -- add and subtract (45_adc_sbc.md)
  /-- ADC, add with carry (R141); the variant is CHIP_GENERATION -/
  | adc (m : Picked ChipGeneration)
  /-- SBC, subtract with carry (R145); the variant is CHIP_GENERATION and CMOS_DEC_SBC_CV -/
  | sbc (m : Picked (ChipGeneration × CmosDecSbcCv))
  -- control flow (46_control_flow.md)
  /-- BCC, branch if carry clear (R152) -/
  | bcc (m : Operand)
  /-- BCS, branch if carry set (R153) -/
  | bcs (m : Operand)
  /-- BEQ, branch if equal (R154) -/
  | beq (m : Operand)
  /-- BNE, branch if not equal (R155) -/
  | bne (m : Operand)
  /-- BMI, branch if minus (R156) -/
  | bmi (m : Operand)
  /-- BPL, branch if plus (R157) -/
  | bpl (m : Operand)
  /-- BVC, branch if overflow clear (R158) -/
  | bvc (m : Operand)
  /-- BVS, branch if overflow set (R159) -/
  | bvs (m : Operand)
  /-- JMP, jump (R160) -/
  | jmp (m : Operand)
  /-- JSR, jump to subroutine (R161) -/
  | jsr (m : Operand)
  /-- RTS, return from subroutine (R162) -/
  | rts (m : Operand)
  /-- BRK, software break (R163) -/
  | brk (m : Operand)
  /-- RTI, return from interrupt (R164) -/
  | rti (m : Operand)
  /-- NOP, no operation (R165) -/
  | nop (m : Operand)
  -- flag operations (47_flag_ops.md)
  /-- CLC, clear carry (R167) -/
  | clc (m : Operand)
  /-- SEC, set carry (R168) -/
  | sec (m : Operand)
  /-- CLD, clear decimal (R169) -/
  | cld (m : Operand)
  /-- SED, set decimal (R170) -/
  | sed (m : Operand)
  /-- CLI, clear interrupt disable (R171) -/
  | cli (m : Operand)
  /-- SEI, set interrupt disable (R172) -/
  | sei (m : Operand)
  /-- CLV, clear overflow (R173) -/
  | clv (m : Operand)
  deriving DecidableEq, Repr

/-- The kind of an instruction. -/
def Instr.kind : Instr → Kind
  | .lda _ => .lda
  | .ldx _ => .ldx
  | .ldy _ => .ldy
  | .sta _ => .sta
  | .stx _ => .stx
  | .sty _ => .sty
  | .tax _ => .tax
  | .tay _ => .tay
  | .txa _ => .txa
  | .tya _ => .tya
  | .tsx _ => .tsx
  | .txs _ => .txs
  | .pha _ => .pha
  | .php _ => .php
  | .pla _ => .pla
  | .plp _ => .plp
  | .and _ => .and
  | .ora _ => .ora
  | .eor _ => .eor
  | .bit _ => .bit
  | .cmp _ => .cmp
  | .cpx _ => .cpx
  | .cpy _ => .cpy
  | .inc _ => .inc
  | .dec _ => .dec
  | .inx _ => .inx
  | .iny _ => .iny
  | .dex _ => .dex
  | .dey _ => .dey
  | .asl _ => .asl
  | .lsr _ => .lsr
  | .rol _ => .rol
  | .ror _ => .ror
  | .adc _ => .adc
  | .sbc _ => .sbc
  | .bcc _ => .bcc
  | .bcs _ => .bcs
  | .beq _ => .beq
  | .bne _ => .bne
  | .bmi _ => .bmi
  | .bpl _ => .bpl
  | .bvc _ => .bvc
  | .bvs _ => .bvs
  | .jmp _ => .jmp
  | .jsr _ => .jsr
  | .rts _ => .rts
  | .brk _ => .brk
  | .rti _ => .rti
  | .nop _ => .nop
  | .clc _ => .clc
  | .sec _ => .sec
  | .cld _ => .cld
  | .sed _ => .sed
  | .cli _ => .cli
  | .sei _ => .sei
  | .clv _ => .clv

/-- The operand form of an instruction. -/
def Instr.operand : Instr → Operand
  | .lda m | .ldx m | .ldy m | .sta m | .stx m | .sty m | .tax m | .tay m | .txa m | .tya m | .tsx m | .txs m
  | .pha m | .php m | .pla m | .plp m
  | .and m | .ora m | .eor m | .bit m | .inc m | .dec m | .inx m | .iny m | .dex m | .dey m
  | .asl m | .lsr m | .rol m
  | .bcc m | .bcs m | .beq m | .bne m | .bmi m | .bpl m | .bvc m | .bvs m
  | .jmp m | .jsr m | .rts m | .brk m | .rti m | .nop m
  | .clc m | .sec m | .cld m | .sed m | .cli m | .sei m | .clv m => m
  | .cmp m | .cpx m | .cpy m => m.operand
  | .ror m => m.operand
  | .adc m => m.operand
  | .sbc m => m.operand

end Sys2Proof
end

