-- ==== Sys2Proof/Decode.lean ====
section
/-!
DEFINITION. Encoding (30_encoding.md R70 to R72, R100 to R102). The decoder reads the default opcode map of R100, byte by
byte; the encoder reads the encoding tables of the instruction rules (41_data_movement.md to 47_flag_ops.md), kind by
kind. The spec gives the assignment in both places, so that the round trip compares them. Byte order and sign
extension stand here too (R16, R18).
-/

namespace Sys2Proof

/-! ## Bytes and words (R16, R18) -/

/-- `zext_16(b) = b` (R18). -/
def zext16 (b : Byte) : Word := b.setWidth 16

/-- `word(lo, hi) = lo | (hi << 8)` (R18). -/
def word (lo hi : Byte) : Word := zext16 lo ||| (zext16 hi <<< 8)

/-- `lo_byte(w) = w[7:0]` (R16). -/
def loByte (w : Word) : Byte := w.setWidth 8

/-- `hi_byte(w) = w[15:8]` (R16). -/
def hiByte (w : Word) : Byte := (w >>> 8).setWidth 8

/-- `sext_16(b) = signed(b) mod 0x10000` (R18). -/
def sext16 (b : Byte) : Word := b.signExtend 16

/-! ## Lengths (R72) -/

/-- Length in bytes, the opcode included (R72). -/
def Mode.length : Mode → Nat
  | .implied | .accumulator => 1
  | .immediate | .zeroPage | .zeroPageX | .zeroPageY | .relative | .indexedIndirect | .indirectIndexed => 2
  | .absolute | .absoluteX | .absoluteY | .absoluteIndirect => 3

/-- Length of an instruction in bytes (R102). -/
def Instr.length (i : Instr) : Nat := i.operand.mode.length

/-! ## The decoder -/

/-- The profile's substitution (R89): on JMP, AbsoluteIndirect becomes its page-bug sibling under the bug. -/
def jmpOperand (pageBug : Bool) : Operand → Operand
  | .absoluteIndirect p => if pageBug then .absoluteIndirectPageBug p else .absoluteIndirect p
  | m => m

/-- The instruction of a table entry with an operand form, in the variant the parameters pick (R15, R89). -/
def Kind.instr (config : Config) : Kind → Operand → Instr
  | .lda, m => .lda m
  | .ldx, m => .ldx m
  | .ldy, m => .ldy m
  | .sta, m => .sta m
  | .stx, m => .stx m
  | .sty, m => .sty m
  | .tax, m => .tax m
  | .tay, m => .tay m
  | .txa, m => .txa m
  | .tya, m => .tya m
  | .tsx, m => .tsx m
  | .txs, m => .txs m
  | .pha, m => .pha m
  | .php, m => .php m
  | .pla, m => .pla m
  | .plp, m => .plp m
  | .and, m => .and m
  | .ora, m => .ora m
  | .eor, m => .eor m
  | .bit, m => .bit m
  | .cmp, m => .cmp ⟨config.cmpCarryRule, m⟩
  | .cpx, m => .cpx ⟨config.cmpCarryRule, m⟩
  | .cpy, m => .cpy ⟨config.cmpCarryRule, m⟩
  | .inc, m => .inc m
  | .dec, m => .dec m
  | .inx, m => .inx m
  | .iny, m => .iny m
  | .dex, m => .dex m
  | .dey, m => .dey m
  | .asl, m => .asl m
  | .lsr, m => .lsr m
  | .rol, m => .rol m
  | .ror, m => .ror ⟨config.rorNoCarryBug, m⟩
  | .adc, m => .adc ⟨config.chipGeneration, m⟩
  | .sbc, m => .sbc ⟨(config.chipGeneration, config.cmosDecSbcCv), m⟩
  | .bcc, m => .bcc m
  | .bcs, m => .bcs m
  | .beq, m => .beq m
  | .bne, m => .bne m
  | .bmi, m => .bmi m
  | .bpl, m => .bpl m
  | .bvc, m => .bvc m
  | .bvs, m => .bvs m
  | .jmp, m => .jmp (jmpOperand config.jmpIndirectPageBug m)
  | .jsr, m => .jsr m
  | .rts, m => .rts m
  | .brk, m => .brk m
  | .rti, m => .rti m
  | .nop, m => .nop m
  | .clc, m => .clc m
  | .sec, m => .sec m
  | .cld, m => .cld m
  | .sed, m => .sed m
  | .cli, m => .cli m
  | .sei, m => .sei m
  | .clv, m => .clv m

/-- OPCODE_TABLE of R8: from the opcode byte to a kind and a mode, `none` where the byte is unassigned. -/
abbrev OpcodeTable := Byte → Option (Kind × Mode)

/-- Row 0 of the map of R100. -/
def opcodeRow0 : List (Byte × Kind × Mode) :=
  [(0x00, .brk, .implied), (0x01, .ora, .indexedIndirect), (0x05, .ora, .zeroPage),
   (0x06, .asl, .zeroPage), (0x08, .php, .implied), (0x09, .ora, .immediate),
   (0x0A, .asl, .accumulator), (0x0D, .ora, .absolute), (0x0E, .asl, .absolute)]

/-- Row 1 of the map of R100. -/
def opcodeRow1 : List (Byte × Kind × Mode) :=
  [(0x10, .bpl, .relative), (0x11, .ora, .indirectIndexed), (0x15, .ora, .zeroPageX),
   (0x16, .asl, .zeroPageX), (0x18, .clc, .implied), (0x19, .ora, .absoluteY),
   (0x1D, .ora, .absoluteX), (0x1E, .asl, .absoluteX)]

/-- Row 2 of the map of R100. -/
def opcodeRow2 : List (Byte × Kind × Mode) :=
  [(0x20, .jsr, .absolute), (0x21, .and, .indexedIndirect), (0x24, .bit, .zeroPage),
   (0x25, .and, .zeroPage), (0x26, .rol, .zeroPage), (0x28, .plp, .implied),
   (0x29, .and, .immediate), (0x2A, .rol, .accumulator), (0x2C, .bit, .absolute),
   (0x2D, .and, .absolute), (0x2E, .rol, .absolute)]

/-- Row 3 of the map of R100. -/
def opcodeRow3 : List (Byte × Kind × Mode) :=
  [(0x30, .bmi, .relative), (0x31, .and, .indirectIndexed), (0x35, .and, .zeroPageX),
   (0x36, .rol, .zeroPageX), (0x38, .sec, .implied), (0x39, .and, .absoluteY),
   (0x3D, .and, .absoluteX), (0x3E, .rol, .absoluteX)]

/-- Row 4 of the map of R100. -/
def opcodeRow4 : List (Byte × Kind × Mode) :=
  [(0x40, .rti, .implied), (0x41, .eor, .indexedIndirect), (0x45, .eor, .zeroPage),
   (0x46, .lsr, .zeroPage), (0x48, .pha, .implied), (0x49, .eor, .immediate),
   (0x4A, .lsr, .accumulator), (0x4C, .jmp, .absolute), (0x4D, .eor, .absolute),
   (0x4E, .lsr, .absolute)]

/-- Row 5 of the map of R100. -/
def opcodeRow5 : List (Byte × Kind × Mode) :=
  [(0x50, .bvc, .relative), (0x51, .eor, .indirectIndexed), (0x55, .eor, .zeroPageX),
   (0x56, .lsr, .zeroPageX), (0x58, .cli, .implied), (0x59, .eor, .absoluteY),
   (0x5D, .eor, .absoluteX), (0x5E, .lsr, .absoluteX)]

/-- Row 6 of the map of R100. -/
def opcodeRow6 : List (Byte × Kind × Mode) :=
  [(0x60, .rts, .implied), (0x61, .adc, .indexedIndirect), (0x65, .adc, .zeroPage),
   (0x66, .ror, .zeroPage), (0x68, .pla, .implied), (0x69, .adc, .immediate),
   (0x6A, .ror, .accumulator), (0x6C, .jmp, .absoluteIndirect), (0x6D, .adc, .absolute),
   (0x6E, .ror, .absolute)]

/-- Row 7 of the map of R100. -/
def opcodeRow7 : List (Byte × Kind × Mode) :=
  [(0x70, .bvs, .relative), (0x71, .adc, .indirectIndexed), (0x75, .adc, .zeroPageX),
   (0x76, .ror, .zeroPageX), (0x78, .sei, .implied), (0x79, .adc, .absoluteY),
   (0x7D, .adc, .absoluteX), (0x7E, .ror, .absoluteX)]

/-- Row 8 of the map of R100. -/
def opcodeRow8 : List (Byte × Kind × Mode) :=
  [(0x81, .sta, .indexedIndirect), (0x84, .sty, .zeroPage), (0x85, .sta, .zeroPage),
   (0x86, .stx, .zeroPage), (0x88, .dey, .implied), (0x8A, .txa, .implied),
   (0x8C, .sty, .absolute), (0x8D, .sta, .absolute), (0x8E, .stx, .absolute)]

/-- Row 9 of the map of R100. -/
def opcodeRow9 : List (Byte × Kind × Mode) :=
  [(0x90, .bcc, .relative), (0x91, .sta, .indirectIndexed), (0x94, .sty, .zeroPageX),
   (0x95, .sta, .zeroPageX), (0x96, .stx, .zeroPageY), (0x98, .tya, .implied),
   (0x99, .sta, .absoluteY), (0x9A, .txs, .implied), (0x9D, .sta, .absoluteX)]

/-- Row A of the map of R100. -/
def opcodeRowA : List (Byte × Kind × Mode) :=
  [(0xA0, .ldy, .immediate), (0xA1, .lda, .indexedIndirect), (0xA2, .ldx, .immediate),
   (0xA4, .ldy, .zeroPage), (0xA5, .lda, .zeroPage), (0xA6, .ldx, .zeroPage),
   (0xA8, .tay, .implied), (0xA9, .lda, .immediate), (0xAA, .tax, .implied),
   (0xAC, .ldy, .absolute), (0xAD, .lda, .absolute), (0xAE, .ldx, .absolute)]

/-- Row B of the map of R100. -/
def opcodeRowB : List (Byte × Kind × Mode) :=
  [(0xB0, .bcs, .relative), (0xB1, .lda, .indirectIndexed), (0xB4, .ldy, .zeroPageX),
   (0xB5, .lda, .zeroPageX), (0xB6, .ldx, .zeroPageY), (0xB8, .clv, .implied),
   (0xB9, .lda, .absoluteY), (0xBA, .tsx, .implied), (0xBC, .ldy, .absoluteX),
   (0xBD, .lda, .absoluteX), (0xBE, .ldx, .absoluteY)]

/-- Row C of the map of R100. -/
def opcodeRowC : List (Byte × Kind × Mode) :=
  [(0xC0, .cpy, .immediate), (0xC1, .cmp, .indexedIndirect), (0xC4, .cpy, .zeroPage),
   (0xC5, .cmp, .zeroPage), (0xC6, .dec, .zeroPage), (0xC8, .iny, .implied),
   (0xC9, .cmp, .immediate), (0xCA, .dex, .implied), (0xCC, .cpy, .absolute),
   (0xCD, .cmp, .absolute), (0xCE, .dec, .absolute)]

/-- Row D of the map of R100. -/
def opcodeRowD : List (Byte × Kind × Mode) :=
  [(0xD0, .bne, .relative), (0xD1, .cmp, .indirectIndexed), (0xD5, .cmp, .zeroPageX),
   (0xD6, .dec, .zeroPageX), (0xD8, .cld, .implied), (0xD9, .cmp, .absoluteY),
   (0xDD, .cmp, .absoluteX), (0xDE, .dec, .absoluteX)]

/-- Row E of the map of R100. -/
def opcodeRowE : List (Byte × Kind × Mode) :=
  [(0xE0, .cpx, .immediate), (0xE1, .sbc, .indexedIndirect), (0xE4, .cpx, .zeroPage),
   (0xE5, .sbc, .zeroPage), (0xE6, .inc, .zeroPage), (0xE8, .inx, .implied),
   (0xE9, .sbc, .immediate), (0xEA, .nop, .implied), (0xEC, .cpx, .absolute),
   (0xED, .sbc, .absolute), (0xEE, .inc, .absolute)]

/-- Row F of the map of R100. -/
def opcodeRowF : List (Byte × Kind × Mode) :=
  [(0xF0, .beq, .relative), (0xF1, .sbc, .indirectIndexed), (0xF5, .sbc, .zeroPageX),
   (0xF6, .inc, .zeroPageX), (0xF8, .sed, .implied), (0xF9, .sbc, .absoluteY),
   (0xFD, .sbc, .absoluteX), (0xFE, .inc, .absoluteX)]

/-- The 151 entries of the default opcode map (R100). PRESUMED by the spec: "from general knowledge, not in source"
(D6, log 11). -/
def opcodeRows : List (Byte × Kind × Mode) :=
  opcodeRow0 ++ opcodeRow1 ++ opcodeRow2 ++ opcodeRow3 ++ opcodeRow4 ++ opcodeRow5 ++ opcodeRow6 ++ opcodeRow7 ++
  opcodeRow8 ++ opcodeRow9 ++ opcodeRowA ++ opcodeRowB ++ opcodeRowC ++ opcodeRowD ++ opcodeRowE ++ opcodeRowF

/-- The default OPCODE_TABLE (R8, R100); the bytes the map marks `·` have no entry (R101). -/
def defaultTable : OpcodeTable := fun op => opcodeRows.lookup op

/-- Why the decoder rejects a string of bytes. -/
inductive DecodeError where
  /-- there is no byte to read -/
  | noBytes
  /-- the opcode byte has no entry in the table (R94, R101) -/
  | undocumented (opcode : Byte)
  /-- the string ends before the operand bytes of R72; memory, which wraps, never ends so -/
  | truncated (opcode : Byte)
  deriving DecidableEq, Repr

/-- One operand byte. -/
def takeByte (f : Byte → Operand) : List Byte → Option (Operand × List Byte)
  | n :: rest => some (f n, rest)
  | [] => none

/-- Two operand bytes, ADL first (R70). -/
def takeWord (f : Word → Operand) : List Byte → Option (Operand × List Byte)
  | lo :: hi :: rest => some (f (word lo hi), rest)
  | _ => none

/-- The operand of a mode, from the bytes after the opcode (R72). -/
def decodeOperand : Mode → List Byte → Option (Operand × List Byte)
  | .implied, bytes => some (.implied, bytes)
  | .accumulator, bytes => some (.accumulator, bytes)
  | .immediate, bytes => takeByte .immediate bytes
  | .zeroPage, bytes => takeByte .zeroPage bytes
  | .zeroPageX, bytes => takeByte .zeroPageX bytes
  | .zeroPageY, bytes => takeByte .zeroPageY bytes
  | .relative, bytes => takeByte .relative bytes
  | .absolute, bytes => takeWord .absolute bytes
  | .absoluteX, bytes => takeWord .absoluteX bytes
  | .absoluteY, bytes => takeWord .absoluteY bytes
  | .absoluteIndirect, bytes => takeWord .absoluteIndirect bytes
  | .indexedIndirect, bytes => takeByte .indexedIndirect bytes
  | .indirectIndexed, bytes => takeByte .indirectIndexed bytes

/-- Decoding under the parameters and a table (R70, R94, R102): the instruction at the head of the bytes, and the bytes
after it. -/
def decodeWith (config : Config) (table : OpcodeTable) : List Byte → Except DecodeError (Instr × List Byte)
  | [] => .error .noBytes
  | op :: rest =>
    match table op with
    | none => .error (.undocumented op)
    | some (kind, mode) =>
      match decodeOperand mode rest with
      | none => .error (.truncated op)
      | some (operand, rest') => .ok (kind.instr config operand, rest')

/-- The parameters of the test-vector conventions (95_test_vectors.md, Conventions). DESIGN CHOICE (log 2): the spec
leaves R5 to R7 and R9 to R11 open with no default; only what has no parameters to go by uses this value: `decode`,
`Sys2Proof.Machine.step` and the host's view of the decoder. -/
def Config.conventional : Config where
  chipGeneration := .nmos
  jmpIndirectPageBug := false
  rorNoCarryBug := false
  housekeeping := false
  loadedLimit := none
  executedLimit := none
  cmpCarryRule := .unsignedGe
  cmosDecSbcCv := .asNmos

/-- Decoding under the conventional parameters and the default table. -/
def decode : List Byte → Except DecodeError (Instr × List Byte) := decodeWith Config.conventional defaultTable

/-! ## The encoder -/

/-- The encoding table of each kind's own rule: the opcode byte of each mode. -/
def Kind.opcodes : Kind → List (Mode × Byte)
  | .lda => [(.immediate, 0xA9), (.zeroPage, 0xA5), (.zeroPageX, 0xB5), (.absolute, 0xAD),
      (.absoluteX, 0xBD), (.absoluteY, 0xB9), (.indexedIndirect, 0xA1), (.indirectIndexed, 0xB1)]
  | .ldx => [(.immediate, 0xA2), (.zeroPage, 0xA6), (.zeroPageY, 0xB6), (.absolute, 0xAE),
      (.absoluteY, 0xBE)]
  | .ldy => [(.immediate, 0xA0), (.zeroPage, 0xA4), (.zeroPageX, 0xB4), (.absolute, 0xAC),
      (.absoluteX, 0xBC)]
  | .sta => [(.zeroPage, 0x85), (.zeroPageX, 0x95), (.absolute, 0x8D), (.absoluteX, 0x9D),
      (.absoluteY, 0x99), (.indexedIndirect, 0x81), (.indirectIndexed, 0x91)]
  | .stx => [(.zeroPage, 0x86), (.zeroPageY, 0x96), (.absolute, 0x8E)]
  | .sty => [(.zeroPage, 0x84), (.zeroPageX, 0x94), (.absolute, 0x8C)]
  | .tax => [(.implied, 0xAA)]
  | .tay => [(.implied, 0xA8)]
  | .txa => [(.implied, 0x8A)]
  | .tya => [(.implied, 0x98)]
  | .tsx => [(.implied, 0xBA)]
  | .txs => [(.implied, 0x9A)]
  | .pha => [(.implied, 0x48)]
  | .php => [(.implied, 0x08)]
  | .pla => [(.implied, 0x68)]
  | .plp => [(.implied, 0x28)]
  | .and => [(.immediate, 0x29), (.zeroPage, 0x25), (.zeroPageX, 0x35), (.absolute, 0x2D),
      (.absoluteX, 0x3D), (.absoluteY, 0x39), (.indexedIndirect, 0x21), (.indirectIndexed, 0x31)]
  | .ora => [(.immediate, 0x09), (.zeroPage, 0x05), (.zeroPageX, 0x15), (.absolute, 0x0D),
      (.absoluteX, 0x1D), (.absoluteY, 0x19), (.indexedIndirect, 0x01), (.indirectIndexed, 0x11)]
  | .eor => [(.immediate, 0x49), (.zeroPage, 0x45), (.zeroPageX, 0x55), (.absolute, 0x4D),
      (.absoluteX, 0x5D), (.absoluteY, 0x59), (.indexedIndirect, 0x41), (.indirectIndexed, 0x51)]
  | .bit => [(.zeroPage, 0x24), (.absolute, 0x2C)]
  | .cmp => [(.immediate, 0xC9), (.zeroPage, 0xC5), (.zeroPageX, 0xD5), (.absolute, 0xCD),
      (.absoluteX, 0xDD), (.absoluteY, 0xD9), (.indexedIndirect, 0xC1), (.indirectIndexed, 0xD1)]
  | .cpx => [(.immediate, 0xE0), (.zeroPage, 0xE4), (.absolute, 0xEC)]
  | .cpy => [(.immediate, 0xC0), (.zeroPage, 0xC4), (.absolute, 0xCC)]
  | .inc => [(.zeroPage, 0xE6), (.zeroPageX, 0xF6), (.absolute, 0xEE), (.absoluteX, 0xFE)]
  | .dec => [(.zeroPage, 0xC6), (.zeroPageX, 0xD6), (.absolute, 0xCE), (.absoluteX, 0xDE)]
  | .inx => [(.implied, 0xE8)]
  | .iny => [(.implied, 0xC8)]
  | .dex => [(.implied, 0xCA)]
  | .dey => [(.implied, 0x88)]
  | .asl => [(.accumulator, 0x0A), (.zeroPage, 0x06), (.zeroPageX, 0x16), (.absolute, 0x0E),
      (.absoluteX, 0x1E)]
  | .lsr => [(.accumulator, 0x4A), (.zeroPage, 0x46), (.zeroPageX, 0x56), (.absolute, 0x4E),
      (.absoluteX, 0x5E)]
  | .rol => [(.accumulator, 0x2A), (.zeroPage, 0x26), (.zeroPageX, 0x36), (.absolute, 0x2E),
      (.absoluteX, 0x3E)]
  | .ror => [(.accumulator, 0x6A), (.zeroPage, 0x66), (.zeroPageX, 0x76), (.absolute, 0x6E),
      (.absoluteX, 0x7E)]
  | .adc => [(.immediate, 0x69), (.zeroPage, 0x65), (.zeroPageX, 0x75), (.absolute, 0x6D),
      (.absoluteX, 0x7D), (.absoluteY, 0x79), (.indexedIndirect, 0x61), (.indirectIndexed, 0x71)]
  | .sbc => [(.immediate, 0xE9), (.zeroPage, 0xE5), (.zeroPageX, 0xF5), (.absolute, 0xED),
      (.absoluteX, 0xFD), (.absoluteY, 0xF9), (.indexedIndirect, 0xE1), (.indirectIndexed, 0xF1)]
  | .bcc => [(.relative, 0x90)]
  | .bcs => [(.relative, 0xB0)]
  | .beq => [(.relative, 0xF0)]
  | .bne => [(.relative, 0xD0)]
  | .bmi => [(.relative, 0x30)]
  | .bpl => [(.relative, 0x10)]
  | .bvc => [(.relative, 0x50)]
  | .bvs => [(.relative, 0x70)]
  | .jmp => [(.absolute, 0x4C), (.absoluteIndirect, 0x6C)]
  | .jsr => [(.absolute, 0x20)]
  | .rts => [(.implied, 0x60)]
  | .brk => [(.implied, 0x00)]
  | .rti => [(.implied, 0x40)]
  | .nop => [(.implied, 0xEA)]
  | .clc => [(.implied, 0x18)]
  | .sec => [(.implied, 0x38)]
  | .cld => [(.implied, 0xD8)]
  | .sed => [(.implied, 0xF8)]
  | .cli => [(.implied, 0x58)]
  | .sei => [(.implied, 0x78)]
  | .clv => [(.implied, 0xB8)]

/-- The opcode byte of a kind in a mode, `none` where its rule gives none. -/
def Kind.opcode (k : Kind) (m : Mode) : Option Byte := k.opcodes.lookup m

/-- The operand bytes in the order they are stored, low byte first (R70). -/
def Operand.bytes : Operand → List Byte
  | .implied | .accumulator => []
  | .immediate n | .zeroPage n | .zeroPageX n | .zeroPageY n | .relative n
  | .indexedIndirect n | .indirectIndexed n => [n]
  | .absolute w | .absoluteX w | .absoluteY w | .absoluteIndirect w | .absoluteIndirectPageBug w => [loByte w, hiByte w]

/-- The bytes of an instruction (R70); no bytes for one that has no encoding. -/
def encode (i : Instr) : List Byte :=
  match i.kind.opcode i.operand.mode with
  | some op => op :: i.operand.bytes
  | none => []

/-- The parameters pick this operand of JMP (R89): the sibling under the bug, the plain form without it. -/
def Operand.pickedFor (pageBug : Bool) : Operand → Prop
  | .absoluteIndirect _ => pageBug = false
  | .absoluteIndirectPageBug _ => pageBug = true
  | .implied | .accumulator | .immediate _ | .zeroPage _ | .zeroPageX _ | .zeroPageY _ | .relative _
  | .absolute _ | .absoluteX _ | .absoluteY _ | .indexedIndirect _ | .indirectIndexed _ => True

/-- The parameters pick this variant of the instruction (R15). -/
def Instr.builtUnder (config : Config) : Instr → Prop
  | .cmp m | .cpx m | .cpy m => m.variant = config.cmpCarryRule
  | .ror m => m.variant = config.rorNoCarryBug
  | .adc m => m.variant = config.chipGeneration
  | .sbc m => m.variant = (config.chipGeneration, config.cmosDecSbcCv)
  | .jmp m => m.pickedFor config.jmpIndirectPageBug
  | .lda _ | .ldx _ | .ldy _ | .sta _ | .stx _ | .sty _ | .tax _ | .tay _ | .txa _ | .tya _ | .tsx _ | .txs _
  | .pha _ | .php _ | .pla _ | .plp _ | .and _ | .ora _ | .eor _ | .bit _ | .inc _ | .dec _ | .inx _ | .iny _
  | .dex _ | .dey _ | .asl _ | .lsr _ | .rol _ | .bcc _ | .bcs _ | .beq _ | .bne _ | .bmi _ | .bpl _ | .bvc _
  | .bvs _ | .jsr _ | .rts _ | .brk _ | .rti _ | .nop _ | .clc _ | .sec _ | .cld _ | .sed _ | .cli _ | .sei _
  | .clv _ => True

/-! ## The host's view of the decoder -/

/-- The bytes an opcode-table word of `nbits` bits lays out from the lowest address up, as long as the longest
instruction (three bytes, R72); the bits above `nbits` are zero. -/
def tableBytes (nbits w : Nat) : List Byte :=
  let v := w % 2 ^ nbits
  [BitVec.ofNat 8 v, BitVec.ofNat 8 (v / 0x100), BitVec.ofNat 8 (v / 0x10000)]

/-- The instruction the decoder reads from a word numbered as the opcode table numbers it. -/
def decodeTableWord (nbits w : Nat) : Option Instr :=
  match decode (tableBytes nbits w) with
  | .ok (i, _) => some i
  | .error _ => none

end Sys2Proof
end

