-- ==== Sys2Proof/Machine/State.lean ====
section
/-!
DEFINITION. The state of the core (10_state.md R24), the reasons a step can stop, and the state right after reset.
-/

namespace Sys2Proof.Machine

open Sys2Proof

/-- The eight flags of P (R31). -/
inductive Flag where
  | n | v | e | b | d | i | z | c
  deriving DecidableEq, Repr

/-- `run_state` (R44). -/
inductive RunState where
  | stopped
  | running
  deriving DecidableEq, Repr

/-- How a step that did not fault ended, towards the host (R174). -/
inductive StepOutcome where
  /-- `Next`: the instruction completed and nothing was signalled -/
  | next
  /-- `Signal(Breakpoint(addr))` (R184) -/
  | breakpoint (address : Word)
  /-- `Signal(StateChanged(new_state))` (R185) -/
  | stateChanged (newState : RunState)
  /-- `Stopped`: the load limit was reached while already STOPPED (R90) -/
  | stopped
  deriving DecidableEq, Repr

/-- The memory `M` of R49: the cells that do not hold 0x00, by rising address. "Zero-initialized at construction": an
address that is not listed reads 0x00. The canonical form is `Memory.wf` of Ops.lean. -/
abbrev Memory := List Host.Cell

/-- The record of R24 and two fields of the model's own, `outcome` (log 4) and `freeCount` (log 6). The opcode table, the
chip profile and the other parameters are no state (R48). -/
structure State where
  /-- A, the accumulator (R25) -/
  a : Byte
  /-- X (R26) -/
  x : Byte
  /-- Y (R26) -/
  y : Byte
  /-- S, the stack pointer: the next free byte is `0x0100 | S` (R27) -/
  sp : Byte
  /-- P, the one storage of the flags (R28, R32) -/
  p : Byte
  /-- PC (R29) -/
  pc : Word
  /-- M (R49) -/
  mem : Memory
  /-- `stack_wrapped` (R42) -/
  stackWrapped : Bool
  /-- `num_loaded` (R43) -/
  numLoaded : Nat
  /-- `num_executed` (R43) -/
  numExecuted : Nat
  /-- `run_state` (R44) -/
  runState : RunState
  /-- `bp_guard` (R45) -/
  bpGuard : Bool
  /-- `last_opcode_address` (R45), the `opaddr` of the instruction rules (R23) -/
  lastOpcodeAddress : Word
  /-- `breakpoints` (R46): the set by rising address, none twice -/
  breakpoints : List Word
  /-- the outcome the last step gave its host (R174); no step reads it -/
  outcome : StepOutcome
  /-- how many free bits have been drawn (R148) -/
  freeCount : Nat
  deriving DecidableEq, Repr

/-- The faults of R175, each with the info recorded there and with `left`, the state it leaves: "Every write made
before it in the same step persists" (R183; log 5). All end the run (R182, D12), which is safe: no claim is made about
a step from the state left. -/
inductive Fault where
  /-- F1: a host access outside [0, 65536) (R176), raised by `hostRead`, `hostWrite` and `loadProgram`; never by a
  step. Safe. -/
  | memoryOutOfRange (address : Int) (left : State)
  /-- F2: the mode yields no value, or no address, that the kind needs (R96, R177), raised by the meaning of an
  instruction no table row names. Safe. -/
  | incompleteInstruction (opcode : Byte) (address : Word) (left : State)
  /-- F3: the opcode byte has no entry in the table (R94, R178), raised by the step's decode. Safe. -/
  | undocumented (opcode : Byte) (address : Word) (left : State)
  /-- F4: a kind with no execution rule (R99, R179). Nothing raises it: all 56 kinds have a rule. Safe. -/
  | unimplemented (kind : Kind) (left : State)
  /-- F5: a push while `stack_wrapped` (R64, R180), raised by PHA, PHP, JSR and BRK. Safe. -/
  | stackOverflow (left : State)
  /-- F6: a pop with S = 0xFF and not `stack_wrapped` (R65, R180), raised by PLA, PLP, RTS and RTI. Safe. -/
  | stackUnderflow (left : State)
  /-- F7: the inverse two's-complement conversion outside -128..127 (R181). No rule applies the conversion, so nothing
  raises it. Safe. -/
  | valueOutOfRange (argument : Int) (left : State)
  deriving DecidableEq, Repr

/-- Refusals. -/
inductive Refusal where
  /-- An instruction that has no meaning yet, by its mnemonic, raised by an arm of `exec`. No arm raises it. Safe. -/
  | notModelled (mnemonic : String)
  deriving DecidableEq, Repr

/-- The machine right after construction and one reset (R199, R207, R208) over zeroed memory, so that the reset vector
reads 0x0000, without housekeeping (log 2). DESIGN CHOICE (log 3): `lastOpcodeAddress`, which the spec leaves open. The
test `Sys2Proof.Tests.test_reset_is_construct_then_reset` shows it is what the reset protocol yields. -/
def State.reset : State where
  a := 0x00
  x := 0x00
  y := 0x00
  sp := 0xFF
  p := 0x30
  pc := 0x0000
  mem := []
  stackWrapped := false
  numLoaded := 0
  numExecuted := 0
  runState := .stopped
  bpGuard := false
  lastOpcodeAddress := 0x0000
  breakpoints := []
  outcome := .next
  freeCount := 0

end Sys2Proof.Machine
end

