-- ==== Sys2Proof/Machine/Ops.lean ====
section
/-!
DEFINITION. The shared operations: memory (20_memory.md), registers and flags (10_state.md), the stack (20_memory.md
section 5), and taking and leaving the break trap (60_exceptions.md R187, R188). Every read and write of the state by a
meaning goes through these.
-/

namespace Sys2Proof.Machine

open Sys2Proof

/-! ## Memory (R49 to R56) -/

/-- The byte at an address; an address that is not listed reads 0x00 (R49). -/
def Memory.read (m : Memory) (addr : Nat) : Byte :=
  match m with
  | [] => 0x00
  | cell :: rest => if cell.1 = addr then cell.2 else Memory.read rest addr

/-- The cells but for those at one address. -/
def Memory.remove (m : Memory) (addr : Nat) : Memory := m.filter fun cell => cell.1 != addr

/-- A cell put before the first one at a higher address. -/
def Memory.place (m : Memory) (addr : Nat) (v : Byte) : Memory :=
  match m with
  | [] => [(addr, v)]
  | cell :: rest => if addr < cell.1 then (addr, v) :: cell :: rest else cell :: Memory.place rest addr v

/-- Store one byte, keeping the canonical form: addresses rise, and no cell holds 0x00. -/
def Memory.write (m : Memory) (addr : Nat) (v : Byte) : Memory :=
  if v = 0x00 then m.remove addr else (m.remove addr).place addr v

/-- The cells from a least address on: rising, none 0x00, all below 65,536 (R49). -/
def Memory.wfFrom (least : Nat) : Memory → Bool
  | [] => true
  | cell :: rest =>
    decide (least ≤ cell.1) && decide (cell.1 < 0x10000) && decide (cell.2 ≠ 0x00) && Memory.wfFrom (cell.1 + 1) rest

/-- The canonical form of memory. -/
def Memory.wf (m : Memory) : Bool := Memory.wfFrom 0 m

/-- `MemRead(addr, 1)` at a word address, which is always in range (R50). -/
def State.read (s : State) (addr : Word) : Byte := s.mem.read addr.toNat

/-- `MemWrite(addr, 1, v)` at a word address (R51). -/
def State.write (s : State) (addr : Word) (v : Byte) : State :=
  { s with mem := s.mem.write addr.toNat v }

/-- `read_word(lo_addr, hi_addr)` (R52): the two addresses are independent. -/
def State.readWord (s : State) (loAddr hiAddr : Word) : Word := word (s.read loAddr) (s.read hiAddr)

/-! ## Registers (R25 to R30) -/

def State.setA (s : State) (v : Byte) : State := { s with a := v }
def State.setX (s : State) (v : Byte) : State := { s with x := v }
def State.setY (s : State) (v : Byte) : State := { s with y := v }

/-- Writes S and nothing else; the explicit writers also clear `stack_wrapped` (R117, R204). -/
def State.setSp (s : State) (v : Byte) : State := { s with sp := v }

/-- Writing P writes all eight flags at once (R32). -/
def State.setP (s : State) (v : Byte) : State := { s with p := v }
def State.setPc (s : State) (w : Word) : State := { s with pc := w }
def State.setStackWrapped (s : State) (w : Bool) : State := { s with stackWrapped := w }

/-! ## Flags (R31 to R33) -/

/-- The position of a flag in P (R31). -/
def Flag.bit : Flag → Nat
  | .n => 7
  | .v => 6
  | .e => 5
  | .b => 4
  | .d => 3
  | .i => 2
  | .z => 1
  | .c => 0

/-- The byte with the flag's bit set and no other. -/
def Flag.mask (f : Flag) : Byte := 0x01#8 <<< f.bit

/-- "Reading flag f at position p returns P[p]" (R32). -/
def State.flag (s : State) (f : Flag) : Bool := s.p.getLsbD f.bit

/-- "Writing flag f writes P[p] and no other bit" (R32). -/
def State.setFlag (s : State) (f : Flag) (on : Bool) : State :=
  s.setP (if on then s.p ||| f.mask else s.p &&& ~~~f.mask)

/-- `setNZ(v)` (R33): N <- v[7], Z <- (v == 0). -/
def State.setNZ (s : State) (v : Byte) : State :=
  (s.setFlag .n v.msb).setFlag .z (v == 0x00)

/-! ## The stack (R64 to R67) -/

/-- The true stack address `0x0100 | S` (R27). -/
def State.stackAddress (s : State) : Word := 0x0100#16 ||| zext16 s.sp

/-- `push(b)` (R64): it faults while `stack_wrapped`, and records that S moved from 0x00 to 0xFF (D4, log 9). -/
def push (b : Byte) (s : State) : Except Fault State :=
  if s.stackWrapped then .error (.stackOverflow s)
  else
    let t := s.write s.stackAddress b
    let t := t.setStackWrapped (s.stackWrapped || s.sp == 0x00)
    .ok (t.setSp (s.sp - 1))

/-- `pop()` (R65): it faults at S = 0xFF unless a push wrapped there (D4, log 9). -/
def pop (s : State) : Except Fault (Byte × State) :=
  if s.sp = 0xFF ∧ s.stackWrapped = false then .error (.stackUnderflow s)
  else
    let s := s.setStackWrapped false
    let s := s.setSp (s.sp + 1)
    .ok (s.read s.stackAddress, s)

/-- `push_address(w)` (R66): high byte first, low byte second. -/
def pushAddress (w : Word) (s : State) : Except Fault State :=
  match push (hiByte w) s with
  | .error f => .error f
  | .ok s => push (loByte w) s

/-- `pop_address()` (R67): low byte first. -/
def popAddress (s : State) : Except Fault (Word × State) :=
  match pop s with
  | .error f => .error f
  | .ok (lo, s) =>
    match pop s with
    | .error f => .error f
    | .ok (hi, s) => .ok (word lo hi, s)

/-! ## The break trap (R163, R164, R187, R188) -/

/-- The IRQ/BRK vector (R57), read at the time of the trap (R163). -/
def State.breakVector (s : State) : Word := s.readWord 0xFFFE 0xFFFF

/-- Taking the trap (R187): set I and B, push the return address, push P as it then stands, load PC from the vector. -/
def takeBreak (returnAddress : Word) (s : State) : Except Fault State :=
  let s := (s.setFlag .i true).setFlag .b true
  match pushAddress returnAddress s with
  | .error f => .error f
  | .ok s =>
    match push s.p s with
    | .error f => .error f
    | .ok s => .ok (s.setPc s.breakVector)

/-- Returning from it (R188): pop P verbatim (D8, log 13), pop PC, then clear I. -/
def returnFromBreak (s : State) : Except Fault State :=
  match pop s with
  | .error f => .error f
  | .ok (b, s) =>
    match popAddress (s.setP b) with
    | .error f => .error f
    | .ok (w, s) => .ok ((s.setPc w).setFlag .i false)

/-! ## Outcomes -/

/-- A body that can fault, as the outcome of a meaning. -/
def finish : Except Fault State → Host.Outcome State Fault Refusal
  | .ok s => .next s
  | .error f => .fault f

end Sys2Proof.Machine
end

