-- ==== Sys2Proof/Machine/Cycle.lean ====
section
/-!
DEFINITION. The phases of the step cycle around the instruction (30_encoding.md section 3): the load limit (R90), the
breakpoint check (R91, R92), the opcode fetch (R93) and completion (R98). `Step.lean` puts them in order.
-/

namespace Sys2Proof.Machine

open Sys2Proof

/-- `LIMIT == some(L) and n >= L` (R90, R98). -/
def limitReached (limit : Option Nat) (n : Nat) : Bool :=
  match limit with
  | none => false
  | some l => decide (l ≤ n)

/-- The load limit stops the next step (R90). -/
def State.atLoadLimit (config : Config) (s : State) : Bool := limitReached config.loadedLimit s.numLoaded

/-- `run_state <- STOPPED`, with the signal on a change of state, else the given outcome (R90, R98; D13, log 18). -/
def State.stopRun (s : State) (unchanged : StepOutcome) : State :=
  { s with
    runState := .stopped
    outcome := match s.runState with
      | .running => .stateChanged .stopped
      | .stopped => unchanged }

/-- A breakpoint stands at PC and the guard is clear (R92). -/
def State.atBreakpoint (s : State) : Bool := s.breakpoints.contains s.pc && !s.bpGuard

/-- The breakpoint signal (R91, R92, R184): only `last_opcode_address` and `bp_guard` change (D36, log 31). -/
def State.stopAtBreakpoint (s : State) : State :=
  { s with lastOpcodeAddress := s.pc, bpGuard := true, outcome := .breakpoint s.pc }

/-- Steps 2 to 4 past the breakpoint check (R91 to R93): the guard is cleared, the opcode is counted, PC moves past it. -/
def State.fetchOpcode (s : State) : State :=
  { s with
    lastOpcodeAddress := s.pc
    bpGuard := false
    numLoaded := s.numLoaded + 1
    pc := s.pc + 1 }

/-- The bytes at PC, as many as the longest instruction has (R70, R72); the address wraps (R53). -/
def State.bytesAtPc (s : State) : List Byte := [s.read s.pc, s.read (s.pc + 1), s.read (s.pc + 2)]

/-- Completion (R98). -/
def State.complete (config : Config) (s : State) : State :=
  let s := { s with numExecuted := s.numExecuted + 1 }
  if limitReached config.executedLimit s.numExecuted then s.stopRun .next else { s with outcome := .next }

/-- The fault of a byte string the decoder rejects, in the state after the fetch (R94, R178). Memory yields three bytes,
so the decoder rejects only for an opcode byte without an entry. -/
def undocumentedFault (s : State) : Fault :=
  .undocumented (s.read s.lastOpcodeAddress) s.lastOpcodeAddress s

/-- The bytes stored from an address up. -/
def State.writeBytes (s : State) (addr : Word) (bytes : List Byte) : State :=
  match bytes with
  | [] => s
  | b :: rest => State.writeBytes (s.write addr b) (addr + 1) rest

/-- What would keep the next step from fetching taken away (log 32): the guard is set at a breakpoint. -/
def State.clearForFetch (s : State) : State := { s with bpGuard := s.bpGuard || s.breakpoints.contains s.pc }

end Sys2Proof.Machine
end

