-- ==== Sys2Proof/Machine/Flags.lean ====
section
/-!
DEFINITION. The flag calculator and the ALU: comparison (43_logic_arith.md R126), ADC and SBC in binary and decimal
(45_adc_sbc.md R141 to R149). Arithmetic is exact, on `Nat` and `Int`, and narrowed at the end (00_scope.md R17; D24,
log 25).
-/

namespace Sys2Proof.Machine

open Sys2Proof

/-- Bit k of an unbounded integer in the infinite two's-complement representation (R17): `>>` is a floor shift. -/
def intBit (x : Int) (k : Nat) : Bool := x / 2 ^ k % 2 == 1

/-- An unbounded integer stored into a byte: `x mod 0x100` (R17). -/
def narrow (x : Int) : Byte := BitVec.ofInt 8 x

/-- A flag as the carry input c, 1 or 0 (45_adc_sbc.md). -/
def carryIn (c : Bool) : Nat := if c then 1 else 0

/-! ## Comparison -/

/-- C of a comparison, by CMP_CARRY_RULE (R126; D2, log 7). -/
def compareCarry (rule : CmpCarryRule) (r v : Byte) : Bool :=
  match rule with
  | .unsignedGe => decide (v.toNat ≤ r.toNat)
  | .bit7OfDifference => !(r - v).msb

/-- `compare(R, v)` (R126): N and Z from the difference byte, C by the rule; no register changes. -/
def compareFlags (rule : CmpCarryRule) (r v : Byte) (s : State) : State :=
  (s.setNZ (r - v)).setFlag .c (compareCarry rule r v)

/-! ## ADC and SBC -/

/-- What the adder yields: the byte for A and the four flags (R141, R145). -/
structure AluResult where
  a : Byte
  c : Bool
  z : Bool
  v : Bool
  n : Bool
  deriving DecidableEq, Repr

/-- The same-sign overflow test `(~(a ^ v)) & (a ^ r) & 0x80` of R142 and R143 (C3, C4, log 23). -/
def overflowAdd (a v r : Byte) : Bool := (~~~(a ^^^ v) &&& (a ^^^ r) &&& 0x80#8) != 0x00#8

/-- The overflow test `(a ^ v) & (a ^ full) & 0x80` of R146 and R147. -/
def overflowSub (a v full : Byte) : Bool := ((a ^^^ v) &&& (a ^^^ full) &&& 0x80#8) != 0x00#8

/-- `adc_binary()` (R142). -/
def adcBinary (a v : Byte) (carry : Bool) : AluResult :=
  let r : Nat := a.toNat + v.toNat + carryIn carry
  let out := BitVec.ofNat 8 r
  { a := out, c := decide (0xFF < r), z := out == 0x00, v := overflowAdd a v out, n := out.msb }

/-- The low digit with its adjustment, `ln` of R143. -/
def adcLowDigit (a v : Byte) (carry : Bool) : Nat :=
  let ln := a.toNat % 0x10 + v.toNat % 0x10 + carryIn carry
  if 10 ≤ ln then (ln + 6) % 0x10 + 0x10 else ln

/-- `rs` of R143, the "sign-bit result". -/
def adcSignResult (a v : Byte) (carry : Bool) : Nat :=
  adcLowDigit a v carry + (a.toNat - a.toNat % 0x10) + (v.toNat - v.toNat % 0x10)

/-- `r` of R143, with the high digit adjusted. -/
def adcDecimalSum (a v : Byte) (carry : Bool) : Nat :=
  let rs := adcSignResult a v carry
  if 0xA0 ≤ rs then rs + 0x60 else rs

/-- `adc_decimal_nmos()` (R143): N and V from `rs`, Z from the binary sum. -/
def adcDecimalNmos (a v : Byte) (carry : Bool) : AluResult :=
  let rb := a.toNat + v.toNat + carryIn carry
  let rs := BitVec.ofNat 8 (adcSignResult a v carry)
  let r := adcDecimalSum a v carry
  { a := BitVec.ofNat 8 r, c := decide (0x99 < r), z := BitVec.ofNat 8 rb == 0x00#8, v := overflowAdd a v rs, n := rs.msb }

/-- `adc_decimal_cmos()` (R144): Z and N from A, V from the unmasked `r`. -/
def adcDecimalCmos (a v : Byte) (carry : Bool) : AluResult :=
  let r := adcDecimalSum a v carry
  let out := BitVec.ofNat 8 r
  { a := out, c := decide (0x99 < r), z := out == 0x00, v := decide (0x80 ≤ r), n := out.msb }

/-- ADC (R141): the variant by D and CHIP_GENERATION. -/
def adc (generation : ChipGeneration) (decimal : Bool) (a v : Byte) (carry : Bool) : AluResult :=
  if decimal then
    match generation with
    | .nmos => adcDecimalNmos a v carry
    | .cmos => adcDecimalCmos a v carry
  else adcBinary a v carry

/-- `full <- a + (0xFF - v) + c`, the 9-bit binary sum of every SBC variant (R145). -/
def sbcFull (a v : Byte) (carry : Bool) : Nat := a.toNat + (0xFF - v.toNat) + carryIn carry

/-- `sbc_binary()` (R146). -/
def sbcBinary (a v : Byte) (carry : Bool) : AluResult :=
  let full := sbcFull a v carry
  let out := BitVec.ofNat 8 full
  { a := out, c := decide (0x100 ≤ full), z := out == 0x00, v := overflowSub a v out, n := out.msb }

/-- The low digit with its adjustment, `ln` of R147; it may be negative. -/
def sbcLowDigit (a v : Byte) (carry : Bool) : Int :=
  let ln : Int := ((a.toNat % 0x10 : Nat) : Int) - ((v.toNat % 0x10 : Nat) : Int) - (1 - (carryIn carry : Int))
  if intBit ln 4 then (ln - 6) % 0x10 - 0x10 else ln

/-- `r` of R147; it may be negative. -/
def sbcDecimalDifference (a v : Byte) (carry : Bool) : Int :=
  let r : Int := sbcLowDigit a v carry + ((a.toNat - a.toNat % 0x10 : Nat) : Int) - ((v.toNat - v.toNat % 0x10 : Nat) : Int)
  if intBit r 8 then r - 0x60 else r

/-- `sbc_decimal_nmos()` (R147). -/
def sbcDecimalNmos (a v : Byte) (carry : Bool) : AluResult :=
  let r := sbcDecimalDifference a v carry
  let out := narrow r
  { a := out, c := decide (0 ≤ r), z := out == 0x00,
    v := overflowSub a v (BitVec.ofNat 8 (sbcFull a v carry)), n := out.msb }

/-- `sbc_decimal_cmos()` (R148): A, Z and N as NMOS; C and V as NMOS, or the drawn bits. -/
def sbcDecimalCmos (cv : CmosDecSbcCv) (drawnC drawnV : Bool) (a v : Byte) (carry : Bool) : AluResult :=
  let r := sbcDecimalNmos a v carry
  match cv with
  | .asNmos => r
  | .draw => { r with c := drawnC, v := drawnV }

/-- SBC (R145): the variant by D and CHIP_GENERATION. -/
def sbc (generation : ChipGeneration) (cv : CmosDecSbcCv) (drawnC drawnV decimal : Bool) (a v : Byte) (carry : Bool) :
    AluResult :=
  if decimal then
    match generation with
    | .nmos => sbcDecimalNmos a v carry
    | .cmos => sbcDecimalCmos cv drawnC drawnV a v carry
  else sbcBinary a v carry

/-- The SBC of this state is the one whose C and V are drawn (R148). -/
def State.sbcDraws (s : State) (generation : ChipGeneration) (cv : CmosDecSbcCv) : Bool :=
  s.flag .d && generation == .cmos && cv == .draw

/-- The adder's result into A and the four flags; D, I, B and E are unchanged (R141, R145). -/
def State.applyAlu (s : State) (r : AluResult) : State :=
  ((((s.setA r.a).setFlag .c r.c).setFlag .z r.z).setFlag .v r.v).setFlag .n r.n

/-- ADC on a value (R141). -/
def State.addValue (s : State) (generation : ChipGeneration) (v : Byte) : State :=
  s.applyAlu (adc generation (s.flag .d) s.a v (s.flag .c))

/-- SBC on a value (R145). A draw takes two fresh free bits, C's first (R148; log 6). -/
def State.subtractValue (s : State) (generation : ChipGeneration) (cv : CmosDecSbcCv) (v : Byte) : State :=
  let r := sbc generation cv (Config.freeBit s.freeCount) (Config.freeBit (s.freeCount + 1)) (s.flag .d) s.a v
    (s.flag .c)
  let t := s.applyAlu r
  if s.sbcDraws generation cv then { t with freeCount := s.freeCount + 2 } else t

end Sys2Proof.Machine
end

