-- ==== Sys2Proof/Machine/Operands.lean ====
section
/-!
DEFINITION. The address resolver (30_encoding.md R73 to R89) and the operand protocol of step 7 (R96, R97, R105). The
operand bytes are the ones the decoder read at the byte after the opcode (log 34); `resolve` advances PC past them.
-/

namespace Sys2Proof.Machine

open Sys2Proof

/-- PC advanced by exactly L - 1, the operand bytes (R73). -/
def State.past (s : State) (m : Operand) : State := s.setPc (s.pc + BitVec.ofNat 16 (m.mode.length - 1))

/-- The target AbsoluteIndirect-PageBug reads through the pointer p (R86): the high byte comes from the start of the
page when ADL is 0xFF (C10, log 26). -/
def pageBugTarget (p : Word) (s : State) : Word :=
  if loByte p = 0xFF then s.readWord p (p &&& 0xFF00) else s.readWord p (p + 1)

/-- The address a mode yields, in the state whose PC is past the operand (R75 to R88). Zero-page arithmetic is on bytes
and so wraps at 0x100, word arithmetic at 0x10000 (R53). -/
def effectiveAddress (m : Operand) (s : State) : Option Word :=
  match m with
  | .implied | .accumulator | .immediate _ => none
  | .zeroPage n => some (zext16 n)
  | .zeroPageX n => some (zext16 (n + s.x))
  | .zeroPageY n => some (zext16 (n + s.y))
  | .relative offset => some (s.pc + sext16 offset)
  | .absolute w => some w
  | .absoluteX w => some (w + zext16 s.x)
  | .absoluteY w => some (w + zext16 s.y)
  | .absoluteIndirect p => some (s.readWord p (p + 1))
  | .absoluteIndirectPageBug p => some (pageBugTarget p s)
  | .indexedIndirect n =>
    let zp := n + s.x
    some (s.readWord (zext16 zp) (zext16 (zp + 1)))
  | .indirectIndexed n => some (s.readWord (zext16 n) (zext16 (n + 1)) + zext16 s.y)

/-- The value a mode yields: A, the immediate byte, or the byte at the address (R73, R75 to R77). -/
def operandValue (m : Operand) (s : State) : Option Byte :=
  match m with
  | .implied => none
  | .accumulator => some s.a
  | .immediate n => some n
  | m => (effectiveAddress m s).map s.read

/-- What `resolve` returns (R73): the address, the value, and the state with PC past the operand. -/
structure Resolved where
  ea : Option Word
  value : Option Byte
  after : State
  deriving DecidableEq, Repr

/-- `resolve` of a mode (R73). -/
def resolve (m : Operand) (s : State) : Resolved :=
  { ea := effectiveAddress m (s.past m), value := operandValue m (s.past m), after := s.past m }

/-- The mode write (R74): Accumulator writes A, every other mode writes the address it yields; `none` where there is
neither (D10, log 15). -/
def writeBack (m : Operand) (ea : Option Word) (r : Byte) (s : State) : Option State :=
  match m with
  | .accumulator => some (s.setA r)
  | _ => ea.map fun a => s.write a r

/-- `raise IncompleteInstruction(op, last_opcode_address)` (R96). The opcode byte is still at that address: nothing was
written since the fetch (log 33). -/
def incomplete (s : State) : Host.Outcome State Fault Refusal :=
  .fault (.incompleteInstruction (s.read s.lastOpcodeAddress) s.lastOpcodeAddress s)

/-- The body of a kind that needs the value (R96, R105). -/
def withValue (r : Resolved) (body : Byte → State → Host.Outcome State Fault Refusal) :
    Host.Outcome State Fault Refusal :=
  match r.value with
  | none => incomplete r.after
  | some v => body v r.after

/-- The body of a kind that needs the address (R96, R105; D10, log 15). -/
def withAddress (r : Resolved) (body : Word → State → Host.Outcome State Fault Refusal) :
    Host.Outcome State Fault Refusal :=
  match r.ea with
  | none => incomplete r.after
  | some ea => body ea r.after

/-- The body of a kind that needs neither (R105): the mode still advances PC (R95). -/
def withNothing (r : Resolved) (body : State → Host.Outcome State Fault Refusal) :
    Host.Outcome State Fault Refusal :=
  body r.after

/-- Read-modify-write (R97): `result` from the value, written back through the mode, then the flags from the value and
the result. -/
def modify (m : Operand) (s : State) (result : Byte → State → Byte) (flags : Byte → Byte → State → State) :
    Host.Outcome State Fault Refusal :=
  withValue (resolve m s) fun v s' =>
    let r := result v s'
    match writeBack m (resolve m s).ea r s' with
    | none => incomplete s'
    | some t => .next (flags v r t)

/-- A load (R106 to R108): the value into a register, N and Z from it. -/
def load (m : Operand) (s : State) (setReg : State → Byte → State) : Host.Outcome State Fault Refusal :=
  withValue (resolve m s) fun v s => .next ((setReg s v).setNZ v)

/-- A store (R109 to R111): a register's byte to the address; no flag. -/
def store (m : Operand) (s : State) (v : Byte) : Host.Outcome State Fault Refusal :=
  withAddress (resolve m s) fun ea s => .next (s.write ea v)

/-- A byte into a register with N and Z from it, no operand (R112 to R116, R132 to R135). -/
def transfer (m : Operand) (s : State) (v : Byte) (setReg : State → Byte → State) :
    Host.Outcome State Fault Refusal :=
  withNothing (resolve m s) fun s => .next ((setReg s v).setNZ v)

/-- A conditional branch (R151). -/
def branch (m : Operand) (s : State) (taken : Bool) : Host.Outcome State Fault Refusal :=
  withAddress (resolve m s) fun ea s => .next (if taken then s.setPc ea else s)

/-- A flag operation (47_flag_ops.md): the named flag and nothing else. -/
def assignFlag (m : Operand) (s : State) (f : Flag) (on : Bool) : Host.Outcome State Fault Refusal :=
  withNothing (resolve m s) fun s => .next (s.setFlag f on)

end Sys2Proof.Machine
end

