-- ==== Sys2Proof/Machine/AdcSbc.lean ====
section
/-!
DEFINITION. ADC and SBC (45_adc_sbc.md); the variants stand in Flags.lean.
-/

namespace Sys2Proof.Machine

open Sys2Proof

/-- ADC, add with carry (R141). -/
def execAdc (m : Picked ChipGeneration) (s : State) : Host.Outcome State Fault Refusal :=
  withValue (resolve m.operand s) fun v s => .next (s.addValue m.variant v)

/-- SBC, subtract with carry (R145). -/
def execSbc (m : Picked (ChipGeneration × CmosDecSbcCv)) (s : State) : Host.Outcome State Fault Refusal :=
  withValue (resolve m.operand s) fun v s => .next (s.subtractValue m.variant.1 m.variant.2 v)

end Sys2Proof.Machine
end

