-- ==== Sys2Proof/Machine/ControlFlow.lean ====
section
/-!
DEFINITION. Branches, jumps, subroutines, the break trap and NOP (46_control_flow.md).
-/

namespace Sys2Proof.Machine

open Sys2Proof

/-- BCC, branch if carry clear (R152): C = 0. -/
def execBcc (m : Operand) (s : State) : Host.Outcome State Fault Refusal :=
  branch m s (s.flag .c == false)

/-- BCS, branch if carry set (R153): C = 1. -/
def execBcs (m : Operand) (s : State) : Host.Outcome State Fault Refusal :=
  branch m s (s.flag .c == true)

/-- BEQ, branch if equal (R154): Z = 1. -/
def execBeq (m : Operand) (s : State) : Host.Outcome State Fault Refusal :=
  branch m s (s.flag .z == true)

/-- BNE, branch if not equal (R155): Z = 0. -/
def execBne (m : Operand) (s : State) : Host.Outcome State Fault Refusal :=
  branch m s (s.flag .z == false)

/-- BMI, branch if minus (R156): N = 1. -/
def execBmi (m : Operand) (s : State) : Host.Outcome State Fault Refusal :=
  branch m s (s.flag .n == true)

/-- BPL, branch if plus (R157): N = 0. -/
def execBpl (m : Operand) (s : State) : Host.Outcome State Fault Refusal :=
  branch m s (s.flag .n == false)

/-- BVC, branch if overflow clear (R158): V = 0. -/
def execBvc (m : Operand) (s : State) : Host.Outcome State Fault Refusal :=
  branch m s (s.flag .v == false)

/-- BVS, branch if overflow set (R159): V = 1. -/
def execBvs (m : Operand) (s : State) : Host.Outcome State Fault Refusal :=
  branch m s (s.flag .v == true)

/-- JMP, jump (R160); its operand may be the page-bug sibling (R86, R89). -/
def execJmp (m : Operand) (s : State) : Host.Outcome State Fault Refusal :=
  withAddress (resolve m s) fun ea s => .next (s.setPc ea)

/-- JSR, jump to subroutine (R161): it pushes the address of the next instruction (C6, log 37). -/
def execJsr (m : Operand) (s : State) : Host.Outcome State Fault Refusal :=
  withAddress (resolve m s) fun ea s =>
    match pushAddress s.pc s with
    | .error f => .fault f
    | .ok s => .next (s.setPc ea)

/-- RTS, return from subroutine (R162): no increment. -/
def execRts (m : Operand) (s : State) : Host.Outcome State Fault Refusal :=
  withNothing (resolve m s) fun s =>
    match popAddress s with
    | .error f => .fault f
    | .ok (w, s) => .next (s.setPc w)

/-- BRK, software break (R163): the trap of R187, returning to opaddr + 2 (D7, log 12). -/
def execBrk (m : Operand) (s : State) : Host.Outcome State Fault Refusal :=
  withNothing (resolve m s) fun s => finish (takeBreak (s.lastOpcodeAddress + 2) s)

/-- RTI, return from interrupt (R164): the return of R188. -/
def execRti (m : Operand) (s : State) : Host.Outcome State Fault Refusal :=
  withNothing (resolve m s) fun s => finish (returnFromBreak s)

/-- NOP, no operation (R165). -/
def execNop (m : Operand) (s : State) : Host.Outcome State Fault Refusal :=
  withNothing (resolve m s) fun s => .next s

end Sys2Proof.Machine
end

