-- ==== Sys2Proof/Machine/DataMovement.lean ====
section
/-!
DEFINITION. Loads, stores and transfers (41_data_movement.md).
-/

namespace Sys2Proof.Machine

open Sys2Proof

/-- LDA, load accumulator (R106). -/
def execLda (m : Operand) (s : State) : Host.Outcome State Fault Refusal :=
  load m s State.setA

/-- LDX, load X (R107). -/
def execLdx (m : Operand) (s : State) : Host.Outcome State Fault Refusal :=
  load m s State.setX

/-- LDY, load Y (R108). -/
def execLdy (m : Operand) (s : State) : Host.Outcome State Fault Refusal :=
  load m s State.setY

/-- STA, store accumulator (R109). -/
def execSta (m : Operand) (s : State) : Host.Outcome State Fault Refusal :=
  store m s s.a

/-- STX, store X (R110). -/
def execStx (m : Operand) (s : State) : Host.Outcome State Fault Refusal :=
  store m s s.x

/-- STY, store Y (R111). -/
def execSty (m : Operand) (s : State) : Host.Outcome State Fault Refusal :=
  store m s s.y

/-- TAX, transfer A to X (R112). -/
def execTax (m : Operand) (s : State) : Host.Outcome State Fault Refusal :=
  transfer m s s.a State.setX

/-- TAY, transfer A to Y (R113). -/
def execTay (m : Operand) (s : State) : Host.Outcome State Fault Refusal :=
  transfer m s s.a State.setY

/-- TXA, transfer X to A (R114). -/
def execTxa (m : Operand) (s : State) : Host.Outcome State Fault Refusal :=
  transfer m s s.x State.setA

/-- TYA, transfer Y to A (R115). -/
def execTya (m : Operand) (s : State) : Host.Outcome State Fault Refusal :=
  transfer m s s.y State.setA

/-- TSX, transfer S to X (R116). -/
def execTsx (m : Operand) (s : State) : Host.Outcome State Fault Refusal :=
  transfer m s s.sp State.setX

/-- TXS, transfer X to S (R117): no flag; it starts a fresh stack region (D4, log 9). -/
def execTxs (m : Operand) (s : State) : Host.Outcome State Fault Refusal :=
  withNothing (resolve m s) fun s => .next ((s.setSp s.x).setStackWrapped false)

end Sys2Proof.Machine
end

