-- ==== Sys2Proof/Machine/FlagOps.lean ====
section
/-!
DEFINITION. The flag setters and clearers (47_flag_ops.md).
-/

namespace Sys2Proof.Machine

open Sys2Proof

/-- CLC, clear carry (R167). -/
def execClc (m : Operand) (s : State) : Host.Outcome State Fault Refusal :=
  assignFlag m s .c false

/-- SEC, set carry (R168). -/
def execSec (m : Operand) (s : State) : Host.Outcome State Fault Refusal :=
  assignFlag m s .c true

/-- CLD, clear decimal (R169). -/
def execCld (m : Operand) (s : State) : Host.Outcome State Fault Refusal :=
  assignFlag m s .d false

/-- SED, set decimal (R170). -/
def execSed (m : Operand) (s : State) : Host.Outcome State Fault Refusal :=
  assignFlag m s .d true

/-- CLI, clear interrupt disable (R171). -/
def execCli (m : Operand) (s : State) : Host.Outcome State Fault Refusal :=
  assignFlag m s .i false

/-- SEI, set interrupt disable (R172). -/
def execSei (m : Operand) (s : State) : Host.Outcome State Fault Refusal :=
  assignFlag m s .i true

/-- CLV, clear overflow (R173). -/
def execClv (m : Operand) (s : State) : Host.Outcome State Fault Refusal :=
  assignFlag m s .v false

end Sys2Proof.Machine
end

