-- ==== Sys2Proof/Machine/LogicArith.lean ====
section
/-!
DEFINITION. Logic, comparison, increment and decrement (43_logic_arith.md).
-/

namespace Sys2Proof.Machine

open Sys2Proof

/-- A <- r with N and Z from it, the common end of AND, ORA and EOR. -/
def State.setResult (s : State) (r : Byte) : State := (s.setA r).setNZ r

/-- AND, bitwise and (R122). -/
def execAnd (m : Operand) (s : State) : Host.Outcome State Fault Refusal :=
  withValue (resolve m s) fun v s => .next (s.setResult (s.a &&& v))

/-- ORA, bitwise or (R123). -/
def execOra (m : Operand) (s : State) : Host.Outcome State Fault Refusal :=
  withValue (resolve m s) fun v s => .next (s.setResult (s.a ||| v))

/-- EOR, bitwise exclusive or (R124). -/
def execEor (m : Operand) (s : State) : Host.Outcome State Fault Refusal :=
  withValue (resolve m s) fun v s => .next (s.setResult (s.a ^^^ v))

/-- BIT, test bits (R125): N and V from the operand, Z from A & v. -/
def execBit (m : Operand) (s : State) : Host.Outcome State Fault Refusal :=
  withValue (resolve m s) fun v s =>
    .next (((s.setFlag .z (s.a &&& v == 0x00)).setFlag .n (v.getLsbD 7)).setFlag .v (v.getLsbD 6))

/-- CMP, compare accumulator (R127). -/
def execCmp (m : Picked CmpCarryRule) (s : State) : Host.Outcome State Fault Refusal :=
  withValue (resolve m.operand s) fun v s => .next (compareFlags m.variant s.a v s)

/-- CPX, compare X (R128). -/
def execCpx (m : Picked CmpCarryRule) (s : State) : Host.Outcome State Fault Refusal :=
  withValue (resolve m.operand s) fun v s => .next (compareFlags m.variant s.x v s)

/-- CPY, compare Y (R129). -/
def execCpy (m : Picked CmpCarryRule) (s : State) : Host.Outcome State Fault Refusal :=
  withValue (resolve m.operand s) fun v s => .next (compareFlags m.variant s.y v s)

/-- INC, increment memory (R130). -/
def execInc (m : Operand) (s : State) : Host.Outcome State Fault Refusal :=
  modify m s (fun v _ => v + 1) (fun _ r s => s.setNZ r)

/-- DEC, decrement memory (R131). -/
def execDec (m : Operand) (s : State) : Host.Outcome State Fault Refusal :=
  modify m s (fun v _ => v - 1) (fun _ r s => s.setNZ r)

/-- INX, increment X (R132). -/
def execInx (m : Operand) (s : State) : Host.Outcome State Fault Refusal :=
  transfer m s (s.x + 1) State.setX

/-- INY, increment Y (R133). -/
def execIny (m : Operand) (s : State) : Host.Outcome State Fault Refusal :=
  transfer m s (s.y + 1) State.setY

/-- DEX, decrement X (R134). -/
def execDex (m : Operand) (s : State) : Host.Outcome State Fault Refusal :=
  transfer m s (s.x - 1) State.setX

/-- DEY, decrement Y (R135). -/
def execDey (m : Operand) (s : State) : Host.Outcome State Fault Refusal :=
  transfer m s (s.y - 1) State.setY

end Sys2Proof.Machine
end

