-- ==== Sys2Proof/Machine/ShiftRotate.lean ====
section
/-!
DEFINITION. Shifts and rotates (44_shift_rotate.md), all read-modify-write.
-/

namespace Sys2Proof.Machine

open Sys2Proof

/-- A flag as bit k of a byte. -/
def flagAt (on : Bool) (k : Nat) : Byte := if on then 0x01#8 <<< k else 0x00

/-- ASL, arithmetic shift left (R137). -/
def execAsl (m : Operand) (s : State) : Host.Outcome State Fault Refusal :=
  modify m s (fun v _ => v <<< 1) (fun v r s => (s.setFlag .c (v.getLsbD 7)).setNZ r)

/-- LSR, logical shift right (R138): N is forced to 0. -/
def execLsr (m : Operand) (s : State) : Host.Outcome State Fault Refusal :=
  modify m s (fun v _ => v >>> 1)
    (fun v r s => ((s.setFlag .c (v.getLsbD 0)).setFlag .n false).setFlag .z (r == 0x00))

/-- ROL, rotate left (R139). -/
def execRol (m : Operand) (s : State) : Host.Outcome State Fault Refusal :=
  modify m s (fun v s => v <<< 1 ||| flagAt (s.flag .c) 0)
    (fun v r s => (s.setFlag .c (v.getLsbD 7)).setNZ r)

/-- ROR, rotate right (R140): C is left alone under ROR_NO_CARRY_BUG. -/
def execRor (m : Picked Bool) (s : State) : Host.Outcome State Fault Refusal :=
  modify m.operand s (fun v s => v >>> 1 ||| flagAt (s.flag .c) 7)
    (fun v r s => (if m.variant then s else s.setFlag .c (v.getLsbD 0)).setNZ r)

end Sys2Proof.Machine
end

