-- ==== Sys2Proof/Machine/Stack.lean ====
section
/-!
DEFINITION. The stack instructions (42_stack.md).
-/

namespace Sys2Proof.Machine

open Sys2Proof

/-- PHA, push accumulator (R118). -/
def execPha (m : Operand) (s : State) : Host.Outcome State Fault Refusal :=
  withNothing (resolve m s) fun s => finish (push s.a s)

/-- PHP, push processor status (R119): P as stored (D30, log 28). -/
def execPhp (m : Operand) (s : State) : Host.Outcome State Fault Refusal :=
  withNothing (resolve m s) fun s => finish (push s.p s)

/-- PLA, pull accumulator (R120). -/
def execPla (m : Operand) (s : State) : Host.Outcome State Fault Refusal :=
  withNothing (resolve m s) fun s =>
    match pop s with
    | .error f => .fault f
    | .ok (b, s) => .next ((s.setA b).setNZ b)

/-- PLP, pull processor status (R121): E forced to 1, B to 0. -/
def execPlp (m : Operand) (s : State) : Host.Outcome State Fault Refusal :=
  withNothing (resolve m s) fun s =>
    match pop s with
    | .error f => .fault f
    | .ok (b, s) => .next (((s.setP b).setFlag .e true).setFlag .b false)

end Sys2Proof.Machine
end

