-- ==== Sys2Proof/Machine/Dispatch.lean ====
section
/-!
DEFINITION. The dispatch of step 7 (30_encoding.md R96): one arm for each instruction kind.
-/

namespace Sys2Proof.Machine

open Sys2Proof

def exec (i : Instr) (s : State) : Host.Outcome State Fault Refusal :=
  match i with
  -- data movement (41_data_movement.md)
  | .lda m => Sys2Proof.Machine.execLda m s
  | .ldx m => Sys2Proof.Machine.execLdx m s
  | .ldy m => Sys2Proof.Machine.execLdy m s
  | .sta m => Sys2Proof.Machine.execSta m s
  | .stx m => Sys2Proof.Machine.execStx m s
  | .sty m => Sys2Proof.Machine.execSty m s
  | .tax m => Sys2Proof.Machine.execTax m s
  | .tay m => Sys2Proof.Machine.execTay m s
  | .txa m => Sys2Proof.Machine.execTxa m s
  | .tya m => Sys2Proof.Machine.execTya m s
  | .tsx m => Sys2Proof.Machine.execTsx m s
  | .txs m => Sys2Proof.Machine.execTxs m s
  -- stack (42_stack.md)
  | .pha m => Sys2Proof.Machine.execPha m s
  | .php m => Sys2Proof.Machine.execPhp m s
  | .pla m => Sys2Proof.Machine.execPla m s
  | .plp m => Sys2Proof.Machine.execPlp m s
  -- logic, compare, increment and decrement (43_logic_arith.md)
  | .and m => Sys2Proof.Machine.execAnd m s
  | .ora m => Sys2Proof.Machine.execOra m s
  | .eor m => Sys2Proof.Machine.execEor m s
  | .bit m => Sys2Proof.Machine.execBit m s
  | .cmp m => Sys2Proof.Machine.execCmp m s
  | .cpx m => Sys2Proof.Machine.execCpx m s
  | .cpy m => Sys2Proof.Machine.execCpy m s
  | .inc m => Sys2Proof.Machine.execInc m s
  | .dec m => Sys2Proof.Machine.execDec m s
  | .inx m => Sys2Proof.Machine.execInx m s
  | .iny m => Sys2Proof.Machine.execIny m s
  | .dex m => Sys2Proof.Machine.execDex m s
  | .dey m => Sys2Proof.Machine.execDey m s
  -- shifts and rotates (44_shift_rotate.md)
  | .asl m => Sys2Proof.Machine.execAsl m s
  | .lsr m => Sys2Proof.Machine.execLsr m s
  | .rol m => Sys2Proof.Machine.execRol m s
  | .ror m => Sys2Proof.Machine.execRor m s
  -- add and subtract (45_adc_sbc.md)
  | .adc m => Sys2Proof.Machine.execAdc m s
  | .sbc m => Sys2Proof.Machine.execSbc m s
  -- control flow (46_control_flow.md)
  | .bcc m => Sys2Proof.Machine.execBcc m s
  | .bcs m => Sys2Proof.Machine.execBcs m s
  | .beq m => Sys2Proof.Machine.execBeq m s
  | .bne m => Sys2Proof.Machine.execBne m s
  | .bmi m => Sys2Proof.Machine.execBmi m s
  | .bpl m => Sys2Proof.Machine.execBpl m s
  | .bvc m => Sys2Proof.Machine.execBvc m s
  | .bvs m => Sys2Proof.Machine.execBvs m s
  | .jmp m => Sys2Proof.Machine.execJmp m s
  | .jsr m => Sys2Proof.Machine.execJsr m s
  | .rts m => Sys2Proof.Machine.execRts m s
  | .brk m => Sys2Proof.Machine.execBrk m s
  | .rti m => Sys2Proof.Machine.execRti m s
  | .nop m => Sys2Proof.Machine.execNop m s
  -- flag operations (47_flag_ops.md)
  | .clc m => Sys2Proof.Machine.execClc m s
  | .sec m => Sys2Proof.Machine.execSec m s
  | .cld m => Sys2Proof.Machine.execCld m s
  | .sed m => Sys2Proof.Machine.execSed m s
  | .cli m => Sys2Proof.Machine.execCli m s
  | .sei m => Sys2Proof.Machine.execSei m s
  | .clv m => Sys2Proof.Machine.execClv m s

end Sys2Proof.Machine
end

