-- ==== Sys2Proof/Machine/Step.lean ====
section
/-!
DEFINITION. One step (30_encoding.md R90 to R98), in the order of R186.
-/

namespace Sys2Proof.Machine

open Sys2Proof

/-- One call of `step()` under the parameters (R5 to R13) and an opcode table (R8). A signal is a next state whose
`outcome` carries it (log 4). -/
def stepWith (config : Config) (table : OpcodeTable) (s : State) : Host.Outcome State Fault Refusal :=
  if s.atLoadLimit config then .next (s.stopRun .stopped)
  else if s.atBreakpoint then .next s.stopAtBreakpoint
  else
    match decodeWith config table s.bytesAtPc with
    | .error _ => .fault (undocumentedFault s.fetchOpcode)
    | .ok (i, _) =>
      match exec i s.fetchOpcode with
      | .next t => .next (t.complete config)
      | .fault f => .fault f
      | .refused r => .refused r

/-- One step under the conventional parameters (log 2) and the default opcode table (R100). -/
def step (s : State) : Host.Outcome State Fault Refusal := stepWith Config.conventional defaultTable s

/-- The state with a table word's instruction where `step` fetches next: its bytes from PC up, and nothing in the way of
the fetch (log 32). -/
def State.withFetchWord (s : State) (nbits w : Nat) : State :=
  (s.writeBytes s.pc (tableBytes nbits w)).clearForFetch

end Sys2Proof.Machine
end

