-- ==== Sys2Proof/Machine/HostCalls.lean ====
section
/-!
DEFINITION. The host's calls other than `step` (60_exceptions.md R197): construction and reset (70_reset_and_hazards.md),
memory access and program load (20_memory.md R50, R51, R69), `run_state`, breakpoints, and the run (R198).
-/

namespace Sys2Proof.Machine

open Sys2Proof

/-- The values R199 leaves unspecified at construction: "A model draws every unspecified value freely" (D17). They are
an argument, so that a claim holds of every value. -/
structure Unspecified where
  a : Byte
  x : Byte
  y : Byte
  sp : Byte
  p : Byte
  pc : Word
  lastOpcodeAddress : Word
  deriving DecidableEq, Repr

/-- construct (R197, R199): the unspecified values in, a stopped core over zeroed memory out. The parameters are no part
of it (R48): the calls that go by them, `hostReset`, `stepWith` and `runToEnd`, take them, and a run goes by one value
(R15; log 1). -/
def construct (u : Unspecified) : State where
  a := u.a
  x := u.x
  y := u.y
  sp := u.sp
  p := u.p
  pc := u.pc
  mem := []
  stackWrapped := false
  numLoaded := 0
  numExecuted := 0
  runState := .stopped
  bpGuard := false
  lastOpcodeAddress := u.lastOpcodeAddress
  breakpoints := []
  outcome := .next
  freeCount := 0

/-! ## Reset (R200 to R208) -/

/-- The reset vector (R57, R201), read at reset time. -/
def State.resetVector (s : State) : Word := s.readWord 0xFFFC 0xFFFD

/-- Reset step 6 (R205): the synthesized CLI and CLD; the counters pass their limits unchecked (D28, log 35). -/
def State.doHousekeeping (config : Config) (s : State) : State :=
  if config.housekeeping then
    { (s.setFlag .i false).setFlag .d false with
      numLoaded := s.numLoaded + 2
      numExecuted := s.numExecuted + 2 }
  else s

/-- `reset()`: the steps of R200 to R206 in order. Step 4 has no effect (R203; C7, log 10). It always ends with `Next`
(R212). -/
def hostReset (config : Config) (s : State) : State :=
  let s := s.setP 0x00
  let s := s.setPc s.resetVector
  let s := (((s.setA 0x00).setX 0x00).setY 0x00).setP 0x00
  let s := (s.setSp 0xFF).setStackWrapped false
  let s := s.doHousekeeping config
  let s := (s.setFlag .e true).setFlag .b true
  { s with outcome := .next }

/-! ## Memory access (R50, R51, R69) -/

/-- An address of the space [0, 65536) (R49, R50). -/
def inMemory (addr : Int) : Bool := decide (0 ≤ addr) && decide (addr.toNat < 0x10000)

/-- The host's `read(addr)` (R50), bounds-checked. -/
def hostRead (s : State) (addr : Int) : Except Fault Byte :=
  if inMemory addr then .ok (s.mem.read addr.toNat) else .error (.memoryOutOfRange addr s)

/-- The host's `write(addr, byte)` (R51), "same bounds rule". -/
def hostWrite (s : State) (addr : Int) (v : Byte) : Except Fault State :=
  if inMemory addr then .ok { s with mem := s.mem.write addr.toNat v }
  else .error (.memoryOutOfRange addr s)

/-- load program (R69): the bytes in order from an offset, without wrapping; the bytes before a fault stay written (D23,
log 24). -/
def loadProgram (s : State) (offset : Nat) (bytes : List Byte) : Except Fault State :=
  match bytes with
  | [] => .ok s
  | b :: rest =>
    match hostWrite s offset b with
    | .error f => .error f
    | .ok s => loadProgram s (offset + 1) rest

/-! ## run_state and breakpoints (R44, R46, R185) -/

/-- set run_state: the signal the host gets back, if the value changed, and the new state (R185, R197; D35). -/
def setRunState (s : State) (r : RunState) : Option StepOutcome × State :=
  (if s.runState = r then none else some (.stateChanged r), { s with runState := r })

/-- An address into the set, kept by rising address. -/
def insertAddress (addr : Word) : List Word → List Word
  | [] => [addr]
  | b :: rest =>
    if addr.toNat < b.toNat then addr :: b :: rest
    else if addr = b then b :: rest
    else b :: insertAddress addr rest

/-- set a breakpoint (R197). -/
def setBreakpoint (s : State) (addr : Word) : State := { s with breakpoints := insertAddress addr s.breakpoints }

/-- clear a breakpoint (R197). -/
def clearBreakpoint (s : State) (addr : Word) : State := { s with breakpoints := s.breakpoints.filter (· != addr) }

/-! ## The source's byte conversion (R18, R181) -/

/-- The inverse of `twos_complement`, "defined only for -128..127" (R18); no rule of the core applies it (R181). -/
def unsignedOfSigned (n : Int) (s : State) : Except Fault Byte :=
  if -128 ≤ n ∧ n ≤ 127 then .ok (BitVec.ofInt 8 n) else .error (.valueOutOfRange n s)

/-! ## A run (R198) -/

/-- How a run stands after some steps (R198). -/
inductive RunResult where
  /-- the steps are used up and the run has not ended -/
  | going (s : State)
  /-- it ended at a limit, with `StateChanged` or `Stopped`; the final state -/
  | ended (s : State)
  /-- it faulted -/
  | faulted (f : Fault)
  /-- an instruction without a meaning; never with this model -/
  | refused (r : Refusal)
  deriving DecidableEq, Repr

/-- The outcomes that end a run: "a Breakpoint does not end it" (R198; D25, log 36). -/
def StepOutcome.endsRun : StepOutcome → Bool
  | .next => false
  | .breakpoint _ => false
  | .stateChanged _ => true
  | .stopped => true

/-- At most `n` steps of a run under its parameters and table (R198). -/
def runToEnd (config : Config) (table : OpcodeTable) (n : Nat) (s : State) : RunResult :=
  match n with
  | 0 => .going s
  | n + 1 =>
    match stepWith config table s with
    | .fault f => .faulted f
    | .refused r => .refused r
    | .next t => if t.outcome.endsRun then .ended t else runToEnd config table n t

end Sys2Proof.Machine
end

