-- ==== Sys2Proof/Safety.lean ====
section
/-!
DEFINITION. The terms claims are stated in: the invariant of the state, what an instruction keeps, the operand
requirements of 30_encoding.md R105, and safe runs (60_exceptions.md R198).
-/

namespace Sys2Proof.Machine

open Sys2Proof

/-! ## The invariant -/

/-- Addresses that rise, none twice: the set form of the breakpoints (R46). -/
def risingWords : List Word → Bool
  | [] => true
  | [_] => true
  | a :: b :: rest => decide (a.toNat < b.toNat) && risingWords (b :: rest)

/-- Memory is canonical (R49), the breakpoints are a set (R46), and "`stack_wrapped` implies S == 0xFF" (R42). -/
def State.inv (s : State) : Bool :=
  s.mem.wf && risingWords s.breakpoints && (!s.stackWrapped || s.sp == 0xFF)

/-- The invariant of every reachable state. -/
abbrev StateInv (s : State) : Prop := s.inv = true

/-! ## Frames -/

/-- Every flag but the named ones is as before. -/
def FlagsKept (but : List Flag) (s t : State) : Prop := ∀ f, f ∉ but → t.flag f = s.flag f

/-- Every byte of memory but those at the named addresses reads as before. -/
def MemoryKept (but : List Word) (s t : State) : Prop := ∀ a, a ∉ but → t.read a = s.read a

/-- N and Z stand as `setNZ(v)` leaves them (R33). -/
def NZFrom (v : Byte) (t : State) : Prop := t.flag .n = v.getLsbD 7 ∧ t.flag .z = decide (v = 0x00)

/-- The effect of a read-modify-write result besides the flags (R74, R97): in Accumulator mode A and nothing else, in a
mode with an address that byte of memory and nothing else; PC past the operand. -/
def WrittenBack (m : Operand) (r : Byte) (s t : State) : Prop :=
  (m = .accumulator → t = { s with a := r, pc := (s.past m).pc, p := t.p }) ∧
  (∀ ea, (resolve m s).ea = some ea →
    t = { s with mem := t.mem, pc := (s.past m).pc, p := t.p } ∧ t.read ea = r ∧ MemoryKept [ea] s t)

/-- The mode lets a read-modify-write kind run: it yields the value, and an address unless it is Accumulator (R105). -/
def Modifiable (m : Operand) (s : State) (v : Byte) : Prop :=
  (resolve m s).value = some v ∧ (m = .accumulator ∨ (resolve m s).ea ≠ none)

/-! ## Operand requirements (R105) -/

/-- "needs value" (R105). -/
def needsValue (k : Kind) : Bool :=
  [.lda, .ldx, .ldy, .and, .ora, .eor, .bit, .cmp, .cpx, .cpy, .adc, .sbc,
    .asl, .lsr, .rol, .ror, .inc, .dec].contains k

/-- "needs address" (R105), in an operand form. -/
def needsAddress (k : Kind) (m : Operand) : Bool :=
  [Kind.sta, .stx, .sty, .bcc, .bcs, .beq, .bne, .bmi, .bpl, .bvc, .bvs, .jmp, .jsr].contains k ||
    ([Kind.asl, .lsr, .rol, .ror, .inc, .dec].contains k && m != .accumulator)

/-- The operand form yields what the kind needs (R96). -/
def operandsSuffice (i : Instr) (s : State) : Bool :=
  (!needsValue i.kind || (resolve i.operand s).value.isSome) &&
    (!needsAddress i.kind i.operand || (resolve i.operand s).ea.isSome)

/-! ## Decimal digits (45_adc_sbc.md R149) -/

/-- "each nibble holds a decimal digit 0..9" (R149). -/
def isBcd (b : Byte) : Bool := decide (b.toNat / 16 ≤ 9) && decide (b.toNat % 16 ≤ 9)

/-- The number two decimal digits stand for. -/
def bcdValue (b : Byte) : Nat := 10 * (b.toNat / 16) + b.toNat % 16

/-! ## Steps and runs -/

/-- Under these parameters nothing of R90 and R92 stops a step before its fetch. -/
def Fetches (config : Config) (s : State) : Prop :=
  (∀ l, config.loadedLimit = some l → s.numLoaded < l) ∧ (s.pc ∈ s.breakpoints → s.bpGuard = true)

/-- Bytes pushed one after another (R68). -/
def pushAll (bytes : List Byte) (s : State) : Except Fault State :=
  match bytes with
  | [] => .ok s
  | b :: rest =>
    match push b s with
    | .error f => .error f
    | .ok t => pushAll rest t

/-- A run of at most `n` steps that does not fault and is not refused (R198): what a safe run is. -/
def SafeRun (config : Config) (table : OpcodeTable) (n : Nat) (s : State) : Prop :=
  (∃ t, runToEnd config table n s = .going t) ∨ (∃ t, runToEnd config table n s = .ended t)

end Sys2Proof.Machine
end

