-- ==== Sys2Proof/Certificates/Slice0/Obligations.lean ====
section
/-!
DEFINITION. The statements for the provers, from the numbered rules of spec/. A meaning is stated at the state `exec`
sees: the opcode is fetched, so PC is at the byte after it and `lastOpcodeAddress` is its address (R91, R93). -/

open Sys2Proof Sys2Proof.Machine

/-! ## Encoding -/

/-- Words written out from the encodings of the rules, one or more for each family, decode to the instruction they
stand for (R100; the map is "from general knowledge, not in source", log 11). `decode` goes by the conventional
parameters, so the variants of ROR, SBC, ADC and JMP are those of log 2. -/
def Obligations.ListedWordsDecode : Prop :=
  decode [0xA9, 0x80] = .ok (.lda (.immediate 0x80), []) ∧
  decode [0x96, 0x10] = .ok (.stx (.zeroPageY 0x10), []) ∧
  decode [0x08] = .ok (.php .implied, []) ∧
  decode [0x31, 0x44] = .ok (.and (.indirectIndexed 0x44), []) ∧
  decode [0xDE, 0x34, 0x12] = .ok (.dec (.absoluteX 0x1234), []) ∧
  decode [0x6A] = .ok (.ror ⟨false, .accumulator⟩, []) ∧
  decode [0xE1, 0x20] = .ok (.sbc ⟨(.nmos, .asNmos), .indexedIndirect 0x20⟩, []) ∧
  decode [0x79, 0xFF, 0x02] = .ok (.adc ⟨.nmos, .absoluteY 0x02FF⟩, []) ∧
  decode [0xD0, 0xFD] = .ok (.bne (.relative 0xFD), []) ∧
  decode [0x6C, 0xFF, 0x02] = .ok (.jmp (.absoluteIndirect 0x02FF), []) ∧
  decode [0x78] = .ok (.sei .implied, []) ∧
  decode [0x02] = .error (.undocumented 0x02)

/-- Decoding the bytes of a well-formed instruction gives it back, with every operand, and leaves the bytes after it,
under parameters that pick its variant (R15, R70, R72, R89, R100); and every well-formed instruction is picked by
some. The map is "from general knowledge, not in source" (log 11). -/
def Obligations.DecodeOfEncode : Prop :=
  (∀ (c : Config) (i : Instr) (rest : List Byte), WellFormed i → i.builtUnder c →
    decodeWith c defaultTable (encode i ++ rest) = .ok (i, rest)) ∧
  ∀ i : Instr, WellFormed i → ∃ c : Config, i.builtUnder c

/-- What decodes is a well-formed instruction in the variant the parameters pick, and its own bytes: no two byte
strings decode to one instruction, and no unassigned encoding falls to a neighbour (R15, R71, R101). The map is "from
general knowledge, not in source" (log 11). -/
def Obligations.EncodeOfDecode : Prop :=
  ∀ (c : Config) (bytes rest : List Byte) (i : Instr),
    decodeWith c defaultTable bytes = .ok (i, rest) → WellFormed i ∧ i.builtUnder c ∧ encode i ++ rest = bytes

/-! ## Construction and reset -/

/-- Reset from any state (R200 to R208): the registers, the stack state and P as R207 lists them, PC from the vector,
the counters plus 2 each under housekeeping, everything else unchanged. After construction and one reset nothing but
`last_opcode_address`, which reset leaves alone, depends on the values R199 leaves unspecified; `State.reset` is the
case of the choices of log 2 and log 3. The spec's own choices: PC stays at the vector (D5, log 10), `stack_wrapped`
is cleared (D4, log 9), the counters are not zeroed (D16, log 21) and pass the limits unchecked (D28, log 35), the
values at construction (D15, log 20); the outcome field is the model's report (log 4). -/
def Obligations.ResetProtocol : Prop :=
  (∀ (c : Config) (s : State), hostReset c s =
    { s with
      a := 0x00, x := 0x00, y := 0x00, sp := 0xFF, p := 0x30
      pc := BitVec.ofNat 16 ((s.mem.read 0xFFFC).toNat + 256 * (s.mem.read 0xFFFD).toNat)
      stackWrapped := false
      numLoaded := s.numLoaded + (if c.housekeeping then 2 else 0)
      numExecuted := s.numExecuted + (if c.housekeeping then 2 else 0)
      outcome := .next }) ∧
  (∀ (c : Config) (u : Unspecified), hostReset c (construct u) =
    { State.reset with
      lastOpcodeAddress := u.lastOpcodeAddress
      numLoaded := if c.housekeeping then 2 else 0
      numExecuted := if c.housekeeping then 2 else 0 })

/-- The invariant holds at reset: memory is canonical (R49), the breakpoints are a set (R46), and `stack_wrapped`
implies S = 0xFF (R42, "derived"). `stack_wrapped` is the spec's own D4 (log 9), the empty breakpoint set its D15 (log
20), the choices of `State.reset` logs 2 and 3. -/
def Obligations.InvariantAtReset : Prop := StateInv State.reset

/-- Every step that answers a next state keeps the invariant, under any parameters and opcode table (R46, R49; R42,
which is the spec's own `stack_wrapped`, D4, log 9). -/
def Obligations.EveryStepKeepsInvariant : Prop :=
  ∀ (c : Config) (table : OpcodeTable) (s t : State), StateInv s → stepWith c table s = .next t → StateInv t

/-- The host's calls keep the invariant, and construction establishes it (R197). `stack_wrapped` is the spec's own D4
(log 9). That construction leaves it clear and the breakpoints empty is its D15 (log 20). -/
def Obligations.HostCallsKeepInvariant : Prop :=
  (∀ u, StateInv (construct u)) ∧
  (∀ c s, StateInv s → StateInv (hostReset c s)) ∧
  (∀ s addr v t, StateInv s → hostWrite s addr v = .ok t → StateInv t) ∧
  (∀ s offset bytes t, StateInv s → loadProgram s offset bytes = .ok t → StateInv t) ∧
  (∀ s r, StateInv s → StateInv (setRunState s r).2) ∧
  (∀ s addr, StateInv s → StateInv (setBreakpoint s addr)) ∧
  (∀ s addr, StateInv s → StateInv (clearBreakpoint s addr))

/-- The host's memory access and program load (R50, R51, R69; D23, log 24): in range a read gives the byte there and a
write stores its byte and changes nothing else, out of range both fault; a load that fits writes byte i at offset + i
and nothing else; one that runs past the top faults at address 65536 with the bytes before it written; one whose
offset is above 65536 faults at its offset with nothing written, unless it is empty. -/
def Obligations.ProgramLoadIsBoundsChecked : Prop :=
  (∀ s (addr : Word), hostRead s addr.toNat = .ok (s.read addr)) ∧
  (∀ s (addr : Word) v, ∃ t, hostWrite s addr.toNat v = .ok t ∧ t = { s with mem := t.mem } ∧
    t.read addr = v ∧ MemoryKept [addr] s t) ∧
  (∀ s (addr : Int) v, (addr < 0 ∨ 0x10000 ≤ addr) →
    hostRead s addr = .error (.memoryOutOfRange addr s) ∧ hostWrite s addr v = .error (.memoryOutOfRange addr s)) ∧
  (∀ s offset bytes, offset + bytes.length ≤ 0x10000 →
    ∃ t, loadProgram s offset bytes = .ok t ∧ t = { s with mem := t.mem } ∧
      (∀ k (h : k < bytes.length), t.mem.read (offset + k) = bytes[k]) ∧
      ∀ a : Nat, (a < offset ∨ offset + bytes.length ≤ a) → t.mem.read a = s.mem.read a) ∧
  (∀ s offset bytes, offset ≤ 0x10000 → 0x10000 < offset + bytes.length →
    ∃ t, loadProgram s offset (bytes.take (0x10000 - offset)) = .ok t ∧
      loadProgram s offset bytes = .error (.memoryOutOfRange 0x10000 t)) ∧
  (∀ s (offset : Nat), 0x10000 < offset →
    loadProgram s offset [] = .ok s ∧
    ∀ b rest, loadProgram s offset (b :: rest) = .error (.memoryOutOfRange offset s))

/-! ## The step cycle -/

/-- A step that nothing stops before its fetch runs the instruction its bytes decode to: `exec` in the state after the
opcode fetch (R91 to R97), then completion (R98), which counts the instruction and, at a reached executed limit, moves
a RUNNING core to STOPPED with the signal, a STOPPED one silently (D13, log 18). A fault of the instruction is the
step's. `step` is the step under the conventional parameters and the default table (log 2). -/
def Obligations.StepRunsDecodedInstruction : Prop :=
  (∀ s, step s = stepWith Config.conventional defaultTable s) ∧
  ∀ (c : Config) (table : OpcodeTable) (s : State) (i : Instr) (rest : List Byte),
    Fetches c s → decodeWith c table [s.read s.pc, s.read (s.pc + 1), s.read (s.pc + 2)] = .ok (i, rest) →
    let fetched : State := { s with
      lastOpcodeAddress := s.pc, bpGuard := false, numLoaded := s.numLoaded + 1, pc := s.pc + 1 }
    (∀ t, exec i fetched = .next t →
      ((∀ l, c.executedLimit = some l → t.numExecuted + 1 < l) →
        stepWith c table s = .next { t with numExecuted := t.numExecuted + 1, outcome := .next }) ∧
      (∀ l, c.executedLimit = some l → l ≤ t.numExecuted + 1 →
        stepWith c table s = .next { t with
          numExecuted := t.numExecuted + 1
          runState := .stopped
          outcome := if t.runState = .running then .stateChanged .stopped else .next })) ∧
    (∀ f, exec i fetched = .fault f → stepWith c table s = .fault f)

/-- The load limit (R90): the step fetches nothing; a RUNNING core becomes STOPPED with the signal, a STOPPED one
answers Stopped (D13, log 18), and nothing else changes. -/
def Obligations.LoadLimitStopsTheStep : Prop :=
  ∀ (c : Config) (table : OpcodeTable) (s : State) (l : Nat), c.loadedLimit = some l → l ≤ s.numLoaded →
    stepWith c table s = .next { s with
      runState := .stopped
      outcome := if s.runState = .running then .stateChanged .stopped else .stopped }

/-- The breakpoint check (R92, R184): with the guard clear the step only signals and sets the guard; a step that
passes the check clears it, so the next step at the same address runs the instruction there. That the signal changes
nothing else is the spec's own D36 (log 31); the outcome field is the model's report (log 4). What the step does then
is R93 to R98, and for a byte without an entry R94 and R178 (D32, log 41). -/
def Obligations.BreakpointSignalsThenRuns : Prop :=
  ∀ (c : Config) (table : OpcodeTable) (s : State), (∀ l, c.loadedLimit = some l → s.numLoaded < l) →
    (s.pc ∈ s.breakpoints → s.bpGuard = false →
      stepWith c table s = .next { s with
        lastOpcodeAddress := s.pc, bpGuard := true, outcome := .breakpoint s.pc }) ∧
    ((s.pc ∈ s.breakpoints → s.bpGuard = true) →
      let fetched : State := { s with
        lastOpcodeAddress := s.pc, bpGuard := false, numLoaded := s.numLoaded + 1, pc := s.pc + 1 }
      (∀ i rest, decodeWith c table s.bytesAtPc = .ok (i, rest) →
        (∀ t, exec i fetched = .next t → t.bpGuard = false ∧ stepWith c table s = .next (t.complete c)) ∧
        (∀ f, exec i fetched = .fault f → stepWith c table s = .fault f)) ∧
      (table (s.read s.pc) = none → stepWith c table s = .fault (.undocumented (s.read s.pc) s.pc fetched)))

/-- An opcode byte without an entry (R94, R178), under any table: the fault records the byte and its address (D32, log
41) and carries the state left (log 5), in which PC is one past the byte, it is counted as loaded and not as executed,
and nothing else changed. -/
def Obligations.UndocumentedOpcodeFaults : Prop :=
  ∀ (c : Config) (table : OpcodeTable) (s : State), Fetches c s → table (s.read s.pc) = none →
    stepWith c table s = .fault (.undocumented (s.read s.pc) s.pc { s with
      lastOpcodeAddress := s.pc, bpGuard := false, numLoaded := s.numLoaded + 1, pc := s.pc + 1 })

/-- A step that answers a next state counts one load and one execution, or, where it was stopped before the fetch,
none (R43, R93, R98). It never changes the breakpoints (R46); the parameters are no state (R48). -/
def Obligations.StepCountsAndKeepsHostState : Prop :=
  ∀ (c : Config) (table : OpcodeTable) (s t : State), stepWith c table s = .next t →
    ((Fetches c s ∧ t.numLoaded = s.numLoaded + 1 ∧ t.numExecuted = s.numExecuted + 1) ∨
      (¬ Fetches c s ∧ t.numLoaded = s.numLoaded ∧ t.numExecuted = s.numExecuted ∧ t.pc = s.pc ∧ t.mem = s.mem)) ∧
    t.breakpoints = s.breakpoints

/-- The faults a step can raise under the default table and any parameters: Undocumented and the two stack faults
(R176, R177, R179, R180, R181); and it refuses nothing. The closed list of faults is the spec's own (D32, D37, log
41); that no step raises ValueOutOfRange rests on its D11 (log 16), and the two stack faults on its `stack_wrapped`
(D4, log 9). The table is "from general knowledge, not in source" (log 11). -/
def Obligations.OnlyThreeFaultsCanArise : Prop :=
  ∀ (c : Config) (s : State),
    (∀ f, stepWith c defaultTable s = .fault f →
      (∃ op addr left, f = .undocumented op addr left) ∨ (∃ left, f = .stackOverflow left) ∨
      (∃ left, f = .stackUnderflow left)) ∧
    ∀ r, stepWith c defaultTable s ≠ .refused r

/-! ## Operands -/

/-- The operand bytes of a mode are fetched from the address after the opcode, PC ends past exactly them, and a mode
that yields an address also yields the byte there (R72, R73; that Relative passes its offset byte is the spec's own
D29, log 27). Implied yields nothing, Accumulator the value A and no address, and neither moves PC (R75, R76). -/
def Obligations.ResolveFetchesAndAdvances : Prop :=
  (∀ (mode : Mode) (s : State),
    ∃ m rest, decodeOperand mode [s.read s.pc, s.read (s.pc + 1)] = some (m, rest) ∧ m.mode = mode ∧
      m.bytes ++ rest = [s.read s.pc, s.read (s.pc + 1)] ∧
      m.bytes.length = mode.length - 1 ∧
      (resolve m s).after = { s with pc := s.pc + BitVec.ofNat 16 (mode.length - 1) } ∧
      (∀ ea, (resolve m s).ea = some ea → (resolve m s).value = some (s.read ea)) ∧
      ((resolve m s).ea = none → mode = .implied ∨ mode = .accumulator ∨ mode = .immediate)) ∧
  ∀ s : State,
    resolve .implied s = { ea := none, value := none, after := s } ∧
    resolve .accumulator s = { ea := none, value := some s.a, after := s }

/-- Immediate and the zero-page modes, from the byte at PC: PC + 1, the address wraps within page zero (R77 to R80). -/
def Obligations.ImmediateAndZeroPageModes : Prop :=
  ∀ s : State,
    let n := s.read s.pc
    let next : State := { s with pc := s.pc + 1 }
    let at8 := fun k : Nat => BitVec.ofNat 16 (k % 0x100)
    resolve (.immediate n) s = { ea := none, value := some n, after := next } ∧
    resolve (.zeroPage n) s = { ea := some (at8 n.toNat), value := some (s.read (at8 n.toNat)), after := next } ∧
    resolve (.zeroPageX n) s =
      { ea := some (at8 (n.toNat + s.x.toNat)), value := some (s.read (at8 (n.toNat + s.x.toNat))), after := next } ∧
    resolve (.zeroPageY n) s =
      { ea := some (at8 (n.toNat + s.y.toNat)), value := some (s.read (at8 (n.toNat + s.y.toNat))), after := next } ∧
    decodeOperand .immediate [n] = some (.immediate n, []) ∧
    decodeOperand .zeroPage [n] = some (.zeroPage n, []) ∧
    decodeOperand .zeroPageX [n] = some (.zeroPageX n, []) ∧
    decodeOperand .zeroPageY [n] = some (.zeroPageY n, [])

/-- The absolute modes, from the two bytes at PC, low byte first: PC + 2, the indexed address wraps at 0x10000 (R82 to
R84). -/
def Obligations.AbsoluteModes : Prop :=
  ∀ s : State,
    let lo := s.read s.pc
    let hi := s.read (s.pc + 1)
    let base := lo.toNat + 0x100 * hi.toNat
    let next : State := { s with pc := s.pc + 2 }
    let yields := fun (m : Operand) (k : Nat) =>
      resolve m s = { ea := some (BitVec.ofNat 16 k), value := some (s.read (BitVec.ofNat 16 k)), after := next }
    (∃ m, decodeOperand .absolute [lo, hi] = some (m, []) ∧ yields m base) ∧
    (∃ m, decodeOperand .absoluteX [lo, hi] = some (m, []) ∧ yields m (base + s.x.toNat)) ∧
    (∃ m, decodeOperand .absoluteY [lo, hi] = some (m, []) ∧ yields m (base + s.y.toNat))

/-- IndexedIndirect and IndirectIndexed, from the byte at PC: the pointer is read within page zero, high byte after
the low one modulo 0x100, and Y is added to the word modulo 0x10000 (R87, R88). -/
def Obligations.IndirectModes : Prop :=
  ∀ s : State,
    let n := s.read s.pc
    let next : State := { s with pc := s.pc + 1 }
    let byteAt := fun k : Nat => (s.read (BitVec.ofNat 16 (k % 0x100))).toNat
    let pointer := fun k : Nat => byteAt k + 0x100 * byteAt (k + 1)
    let yields := fun (m : Operand) (k : Nat) =>
      resolve m s = { ea := some (BitVec.ofNat 16 k), value := some (s.read (BitVec.ofNat 16 k)), after := next }
    (∃ m, decodeOperand .indexedIndirect [n] = some (m, []) ∧ yields m (pointer (n.toNat + s.x.toNat))) ∧
    (∃ m, decodeOperand .indirectIndexed [n] = some (m, []) ∧ yields m (pointer n.toNat + s.y.toNat))

/-- A form that does not yield what the kind needs (R105) raises IncompleteInstruction before any effect of the body:
PC is past the operand and nothing else changed (R96, R177; the missing address is the spec's own D10, log 15). Every
instruction of the table (log 11) yields what it needs. -/
def Obligations.MissingOperandIsIncomplete : Prop :=
  ∀ (i : Instr) (s : State),
    (operandsSuffice i s = false →
      exec i s = .fault (.incompleteInstruction (s.read s.lastOpcodeAddress) s.lastOpcodeAddress
        { s with pc := s.pc + BitVec.ofNat 16 (i.length - 1) })) ∧
    (WellFormed i → operandsSuffice i s = true)

/-! ## Data movement -/

/-- LDA, LDX, LDY in every form that yields a value (R106 to R108). -/
def Obligations.LoadsWriteTheirRegister : Prop :=
  ∀ (m : Operand) (s : State) (v : Byte), (resolve m s).value = some v →
    (∃ t, exec (.lda m) s = .next t ∧ t = { s with a := v, pc := (s.past m).pc, p := t.p } ∧
      NZFrom v t ∧ FlagsKept [.n, .z] s t) ∧
    (∃ t, exec (.ldx m) s = .next t ∧ t = { s with x := v, pc := (s.past m).pc, p := t.p } ∧
      NZFrom v t ∧ FlagsKept [.n, .z] s t) ∧
    (∃ t, exec (.ldy m) s = .next t ∧ t = { s with y := v, pc := (s.past m).pc, p := t.p } ∧
      NZFrom v t ∧ FlagsKept [.n, .z] s t)

/-- STA, STX, STY in every form that yields an address: the byte there, no flag, no register, no other byte (R109 to
R111). -/
def Obligations.StoresWriteTheirAddress : Prop :=
  ∀ (m : Operand) (s : State) (ea : Word), (resolve m s).ea = some ea →
    (∃ t, exec (.sta m) s = .next t ∧ t = { s with mem := t.mem, pc := (s.past m).pc } ∧
      t.read ea = s.a ∧ MemoryKept [ea] s t) ∧
    (∃ t, exec (.stx m) s = .next t ∧ t = { s with mem := t.mem, pc := (s.past m).pc } ∧
      t.read ea = s.x ∧ MemoryKept [ea] s t) ∧
    (∃ t, exec (.sty m) s = .next t ∧ t = { s with mem := t.mem, pc := (s.past m).pc } ∧
      t.read ea = s.y ∧ MemoryKept [ea] s t)

/-- TAX, TAY, TXA, TYA, TSX (R112 to R116), in every form (R105: they need no operand). -/
def Obligations.TransfersCopyWithNZ : Prop :=
  ∀ (m : Operand) (s : State),
    (∃ t, exec (.tax m) s = .next t ∧ t = { s with x := s.a, pc := (s.past m).pc, p := t.p } ∧
      NZFrom s.a t ∧ FlagsKept [.n, .z] s t) ∧
    (∃ t, exec (.tay m) s = .next t ∧ t = { s with y := s.a, pc := (s.past m).pc, p := t.p } ∧
      NZFrom s.a t ∧ FlagsKept [.n, .z] s t) ∧
    (∃ t, exec (.txa m) s = .next t ∧ t = { s with a := s.x, pc := (s.past m).pc, p := t.p } ∧
      NZFrom s.x t ∧ FlagsKept [.n, .z] s t) ∧
    (∃ t, exec (.tya m) s = .next t ∧ t = { s with a := s.y, pc := (s.past m).pc, p := t.p } ∧
      NZFrom s.y t ∧ FlagsKept [.n, .z] s t) ∧
    (∃ t, exec (.tsx m) s = .next t ∧ t = { s with x := s.sp, pc := (s.past m).pc, p := t.p } ∧
      NZFrom s.sp t ∧ FlagsKept [.n, .z] s t)

/-- TXS writes S and no flag (R117); it also clears `stack_wrapped`, the spec's own choice (D4, log 9). NOP does
nothing but pass its operand (R165). -/
def Obligations.TxsAndNop : Prop :=
  ∀ (m : Operand) (s : State),
    exec (.txs m) s = .next { s with sp := s.x, stackWrapped := false, pc := (s.past m).pc } ∧
    exec (.nop m) s = .next { s with pc := (s.past m).pc }

/-! ## The stack -/

/-- PHA and PHP while not `stack_wrapped`: one byte at `0x0100 | S`, S one lower, the wrap recorded at S = 0x00; PHP
pushes P as stored (R64, R118, R119; D4, D30, logs 9 and 28). -/
def Obligations.PushesStoreOneByte : Prop :=
  ∀ (m : Operand) (s : State), s.stackWrapped = false →
    s.stackAddress.toNat = 0x100 + s.sp.toNat ∧
    (∃ t, exec (.pha m) s = .next t ∧
      t = { s with mem := t.mem, sp := s.sp - 1, stackWrapped := s.sp == 0x00, pc := (s.past m).pc } ∧
      t.read s.stackAddress = s.a ∧ MemoryKept [s.stackAddress] s t) ∧
    (∃ t, exec (.php m) s = .next t ∧
      t = { s with mem := t.mem, sp := s.sp - 1, stackWrapped := s.sp == 0x00, pc := (s.past m).pc } ∧
      t.read s.stackAddress = s.p ∧ MemoryKept [s.stackAddress] s t)

/-- PLA and PLP where the stack is not empty: the byte above S, S one higher; PLA sets N and Z, PLP loads P with E
forced to 1 and B to 0 (R65, R120, R121; D4, log 9). -/
def Obligations.PullsLoadOneByte : Prop :=
  ∀ (m : Operand) (s : State), (s.sp ≠ 0xFF ∨ s.stackWrapped = true) →
    let b := s.read (s.setSp (s.sp + 1)).stackAddress
    (∃ t, exec (.pla m) s = .next t ∧
      t = { s with a := b, sp := s.sp + 1, stackWrapped := false, pc := (s.past m).pc, p := t.p } ∧
      NZFrom b t ∧ FlagsKept [.n, .z] s t) ∧
    exec (.plp m) s = .next { s with
      p := (b ||| 0x20#8) &&& 0xEF#8, sp := s.sp + 1, stackWrapped := false, pc := (s.past m).pc }

/-- `push_address` is the two pushes, high byte first, and a fault of the second leaves the first (R66); `pop_address`
is the two pops, low byte first, and a fault of the second leaves the first (R67). -/
def Obligations.AddressesAreTwoBytes : Prop :=
  (∀ (w : Word) (s t : State), push (BitVec.ofNat 8 (w.toNat / 0x100)) s = .ok t →
    pushAddress w s = push (BitVec.ofNat 8 (w.toNat % 0x100)) t) ∧
  (∀ (w : Word) (s : State) (f : Fault), push (BitVec.ofNat 8 (w.toNat / 0x100)) s = .error f →
    pushAddress w s = .error f) ∧
  (∀ (s t u : State) (lo hi : Byte), pop s = .ok (lo, t) → pop t = .ok (hi, u) →
    popAddress s = .ok (BitVec.ofNat 16 (lo.toNat + 0x100 * hi.toNat), u)) ∧
  (∀ (s : State) (f : Fault), pop s = .error f → popAddress s = .error f) ∧
  (∀ (s t : State) (lo : Byte) (f : Fault), pop s = .ok (lo, t) → pop t = .error f → popAddress s = .error f)

/-- Push then pop gives the byte and leaves S and `stack_wrapped` as they were, and the same for an address, whenever
the pushes do not fault (R68, "derived"; `stack_wrapped` is the spec's own D4, log 9). -/
def Obligations.PushThenPopReturns : Prop :=
  (∀ (b : Byte) (s t : State), push b s = .ok t → pop t = .ok (b, { s with mem := t.mem })) ∧
  (∀ (w : Word) (s t : State), pushAddress w s = .ok t → popAddress t = .ok (w, { s with mem := t.mem }))

/-- From S = 0xFF, not wrapped, 256 pushes succeed, write 0x01FF down to 0x0100 and end with S = 0xFF and
`stack_wrapped`; the 257th raises StackOverflow; a pop from the first state raises StackUnderflow (R68, "derived"; the
spec's own D4, log 9). -/
def Obligations.StackHolds256Bytes : Prop :=
  ∀ (s : State) (bytes : List Byte), s.sp = 0xFF → s.stackWrapped = false → bytes.length = 256 →
    pop s = .error (.stackUnderflow s) ∧
    ∃ t, pushAll bytes s = .ok t ∧ t = { s with mem := t.mem, stackWrapped := true } ∧
      (∀ k (h : k < bytes.length), t.mem.read (0x1FF - k) = bytes[k]) ∧
      (∀ a : Word, (a.toNat < 0x100 ∨ 0x1FF < a.toNat) → t.read a = s.read a) ∧
      ∀ b, push b t = .error (.stackOverflow t)

/-- The pushing instructions overflow at the first push that is below page one, and what was written before it stays
(R64, R180, R183): PHA and PHP leave nothing; JSR may leave the high byte; BRK leaves I and B set and one or two
bytes. The spec's own choices: `stack_wrapped` (D4, log 9), BRK's `opaddr + 2` (D7, log 12), JSR's return address and
BRK's order (C6, C13, log 37); the carried state is the model's form (log 5). -/
def Obligations.OverflowKeepsPartialEffects : Prop :=
  ∀ (m : Operand) (s : State),
    (s.stackWrapped = true →
      exec (.pha m) s = .fault (.stackOverflow (s.past m)) ∧
      exec (.php m) s = .fault (.stackOverflow (s.past m)) ∧
      exec (.brk m) s = .fault (.stackOverflow { s with pc := (s.past m).pc, p := s.p ||| 0x14#8 }) ∧
      ∀ ea, (resolve m s).ea = some ea → exec (.jsr m) s = .fault (.stackOverflow (s.past m))) ∧
    (s.stackWrapped = false → s.sp = 0x00 →
      (∀ ea, (resolve m s).ea = some ea → ∃ left, exec (.jsr m) s = .fault (.stackOverflow left) ∧
        left = { s with mem := left.mem, sp := 0xFF, stackWrapped := true, pc := (s.past m).pc } ∧
        left.read 0x0100 = hiByte (s.past m).pc ∧ MemoryKept [0x0100] s left) ∧
      (∃ left, exec (.brk m) s = .fault (.stackOverflow left) ∧
        left = { s with
          mem := left.mem, sp := 0xFF, stackWrapped := true, pc := (s.past m).pc, p := s.p ||| 0x14#8 } ∧
        left.read 0x0100 = hiByte (s.lastOpcodeAddress + 2) ∧ MemoryKept [0x0100] s left)) ∧
    (s.stackWrapped = false → s.sp = 0x01 →
      ∃ left, exec (.brk m) s = .fault (.stackOverflow left) ∧
        left = { s with
          mem := left.mem, sp := 0xFF, stackWrapped := true, pc := (s.past m).pc, p := s.p ||| 0x14#8 } ∧
        left.read 0x0101 = hiByte (s.lastOpcodeAddress + 2) ∧
        left.read 0x0100 = loByte (s.lastOpcodeAddress + 2) ∧ MemoryKept [0x0101, 0x0100] s left)

/-- The pulling instructions underflow at the first pop from an empty stack, and the pops before it stay (R65, R180,
R183). The spec's own choices: underflow by `stack_wrapped` (D4, log 9), P loaded verbatim by RTI (D8, log 13); the
carried state is the model's form (log 5). -/
def Obligations.UnderflowKeepsPartialEffects : Prop :=
  ∀ (m : Operand) (s : State),
    let top := s.read 0x01FF
    (s.sp = 0xFF → s.stackWrapped = false →
      exec (.pla m) s = .fault (.stackUnderflow (s.past m)) ∧
      exec (.plp m) s = .fault (.stackUnderflow (s.past m)) ∧
      exec (.rts m) s = .fault (.stackUnderflow (s.past m)) ∧
      exec (.rti m) s = .fault (.stackUnderflow (s.past m))) ∧
    (s.sp = 0xFE →
      exec (.rts m) s =
        .fault (.stackUnderflow { s with sp := 0xFF, stackWrapped := false, pc := (s.past m).pc }) ∧
      exec (.rti m) s =
        .fault (.stackUnderflow { s with sp := 0xFF, stackWrapped := false, pc := (s.past m).pc, p := top })) ∧
    (s.sp = 0xFD →
      exec (.rti m) s =
        .fault (.stackUnderflow { s with
          sp := 0xFF, stackWrapped := false, pc := (s.past m).pc, p := s.read 0x01FE }))

/-! ## Logic, comparison, increment and decrement -/

/-- AND, ORA, EOR in every form that yields a value (R122 to R124). -/
def Obligations.LogicWritesAccumulator : Prop :=
  ∀ (m : Operand) (s : State) (v : Byte), (resolve m s).value = some v →
    (∃ t, exec (.and m) s = .next t ∧ t = { s with a := s.a &&& v, pc := (s.past m).pc, p := t.p } ∧
      NZFrom (s.a &&& v) t ∧ FlagsKept [.n, .z] s t) ∧
    (∃ t, exec (.ora m) s = .next t ∧ t = { s with a := s.a ||| v, pc := (s.past m).pc, p := t.p } ∧
      NZFrom (s.a ||| v) t ∧ FlagsKept [.n, .z] s t) ∧
    (∃ t, exec (.eor m) s = .next t ∧ t = { s with a := s.a ^^^ v, pc := (s.past m).pc, p := t.p } ∧
      NZFrom (s.a ^^^ v) t ∧ FlagsKept [.n, .z] s t)

/-- BIT: Z from A & v, N and V from bits 7 and 6 of v, nothing else (R125). -/
def Obligations.BitTestsTheOperand : Prop :=
  ∀ (m : Operand) (s : State) (v : Byte), (resolve m s).value = some v →
    ∃ t, exec (.bit m) s = .next t ∧ t = { s with pc := (s.past m).pc, p := t.p } ∧
      t.flag .z = decide (s.a &&& v = 0x00) ∧ t.flag .n = v.getLsbD 7 ∧ t.flag .v = v.getLsbD 6 ∧
      FlagsKept [.z, .n, .v] s t

/-- CMP, CPX, CPY (R126 to R129): N and Z from the difference byte, C by CMP_CARRY_RULE, under both its values (D2,
log 7); Z = 1 implies C = 1. That the difference is reduced modulo 0x100, so that a comparison completes on every pair
of bytes, is the spec's own D11 (log 16). -/
def Obligations.ComparesSetNZC : Prop :=
  ∀ (rule : CmpCarryRule) (m : Operand) (s : State) (v : Byte), (resolve m s).value = some v →
    let compared := fun (r : Byte) (t : State) =>
      t = { s with pc := (s.past m).pc, p := t.p } ∧
      t.flag .n = decide (128 ≤ (r.toNat + 256 - v.toNat) % 256) ∧ t.flag .z = decide (r = v) ∧
      (rule = .unsignedGe → t.flag .c = decide (v.toNat ≤ r.toNat)) ∧
      (rule = .bit7OfDifference → t.flag .c = !t.flag .n) ∧
      (t.flag .z = true → t.flag .c = true) ∧
      FlagsKept [.n, .z, .c] s t
    (∃ t, exec (.cmp ⟨rule, m⟩) s = .next t ∧ compared s.a t) ∧
    (∃ t, exec (.cpx ⟨rule, m⟩) s = .next t ∧ compared s.x t) ∧
    (∃ t, exec (.cpy ⟨rule, m⟩) s = .next t ∧ compared s.y t)

/-- INC and DEC (R130, R131), to memory and, under a table that pairs them with it, to A. -/
def Obligations.IncAndDecWriteBack : Prop :=
  ∀ (m : Operand) (s : State) (v : Byte), Modifiable m s v →
    (∃ t, exec (.inc m) s = .next t ∧ WrittenBack m (BitVec.ofNat 8 (v.toNat + 1)) s t ∧
      NZFrom (BitVec.ofNat 8 (v.toNat + 1)) t ∧ FlagsKept [.n, .z] s t) ∧
    (∃ t, exec (.dec m) s = .next t ∧ WrittenBack m (BitVec.ofNat 8 (v.toNat + 255)) s t ∧
      NZFrom (BitVec.ofNat 8 (v.toNat + 255)) t ∧ FlagsKept [.n, .z] s t)

/-- INX, INY, DEX, DEY: the index register plus or minus one modulo 0x100 (R132 to R135). -/
def Obligations.IndexCountsWithNZ : Prop :=
  ∀ (m : Operand) (s : State),
    let up := fun b : Byte => BitVec.ofNat 8 (b.toNat + 1)
    let down := fun b : Byte => BitVec.ofNat 8 (b.toNat + 255)
    (∃ t, exec (.inx m) s = .next t ∧ t = { s with x := up s.x, pc := (s.past m).pc, p := t.p } ∧
      NZFrom (up s.x) t ∧ FlagsKept [.n, .z] s t) ∧
    (∃ t, exec (.iny m) s = .next t ∧ t = { s with y := up s.y, pc := (s.past m).pc, p := t.p } ∧
      NZFrom (up s.y) t ∧ FlagsKept [.n, .z] s t) ∧
    (∃ t, exec (.dex m) s = .next t ∧ t = { s with x := down s.x, pc := (s.past m).pc, p := t.p } ∧
      NZFrom (down s.x) t ∧ FlagsKept [.n, .z] s t) ∧
    (∃ t, exec (.dey m) s = .next t ∧ t = { s with y := down s.y, pc := (s.past m).pc, p := t.p } ∧
      NZFrom (down s.y) t ∧ FlagsKept [.n, .z] s t)

/-! ## Shifts and rotates -/

/-- ASL and LSR, to A or to memory (R137, R138): C is the bit shifted out; LSR leaves N = 0. -/
def Obligations.ShiftsWriteBack : Prop :=
  ∀ (m : Operand) (s : State) (v : Byte), Modifiable m s v →
    let left := BitVec.ofNat 8 (2 * v.toNat)
    let right := BitVec.ofNat 8 (v.toNat / 2)
    (∃ t, exec (.asl m) s = .next t ∧ WrittenBack m left s t ∧ NZFrom left t ∧
      t.flag .c = v.getLsbD 7 ∧ FlagsKept [.n, .z, .c] s t) ∧
    (∃ t, exec (.lsr m) s = .next t ∧ WrittenBack m right s t ∧
      t.flag .n = false ∧ t.flag .z = decide (right = 0x00) ∧
      t.flag .c = v.getLsbD 0 ∧ FlagsKept [.n, .z, .c] s t)

/-- ROL and ROR through the old C, to A or to memory (R139, R140); with ROR_NO_CARRY_BUG ROR leaves C as it was. -/
def Obligations.RotatesWriteBack : Prop :=
  ∀ (noCarryBug : Bool) (m : Operand) (s : State) (v : Byte), Modifiable m s v →
    let left := BitVec.ofNat 8 (2 * v.toNat + (s.flag .c).toNat)
    let right := BitVec.ofNat 8 (v.toNat / 2 + 128 * (s.flag .c).toNat)
    (∃ t, exec (.rol m) s = .next t ∧ WrittenBack m left s t ∧ NZFrom left t ∧
      t.flag .c = v.getLsbD 7 ∧ FlagsKept [.n, .z, .c] s t) ∧
    (∃ t, exec (.ror ⟨noCarryBug, m⟩) s = .next t ∧ WrittenBack m right s t ∧ NZFrom right t ∧
      t.flag .c = (if noCarryBug then s.flag .c else v.getLsbD 0) ∧ FlagsKept [.n, .z, .c] s t)

/-! ## ADC and SBC -/

/-- Binary ADC, under both generations (R141, R142): the sum modulo 0x100, C its carry, V the signed overflow (the
predicate the spec takes in place of the source's formula, C3, log 23), N and Z from A. -/
def Obligations.BinaryAdcAdds : Prop :=
  ∀ (generation : ChipGeneration) (m : Operand) (s : State) (v : Byte),
    (resolve m s).value = some v → s.flag .d = false →
    let sum := s.a.toNat + v.toNat + (s.flag .c).toNat
    let signedSum := s.a.toInt + v.toInt + ((s.flag .c).toNat : Int)
    ∃ t, exec (.adc ⟨generation, m⟩) s = .next t ∧
      t = { s with a := BitVec.ofNat 8 sum, pc := (s.past m).pc, p := t.p } ∧
      NZFrom (BitVec.ofNat 8 sum) t ∧ t.flag .c = decide (0x100 ≤ sum) ∧
      t.flag .v = decide (signedSum < -128 ∨ 127 < signedSum) ∧ FlagsKept [.n, .z, .c, .v] s t

/-- Decimal ADC on two decimal numbers, under both generations: A is the decimal sum of the two digits and C its carry
(R143, R144); under CMOS N and Z are A's, under NMOS Z is the binary sum's. -/
def Obligations.DecimalAdcAddsDigits : Prop :=
  ∀ (generation : ChipGeneration) (m : Operand) (s : State) (v : Byte),
    (resolve m s).value = some v → s.flag .d = true →
    isBcd s.a = true → isBcd v = true →
    let sum := bcdValue s.a + bcdValue v + (s.flag .c).toNat
    ∃ t, exec (.adc ⟨generation, m⟩) s = .next t ∧ t = { s with a := t.a, pc := (s.past m).pc, p := t.p } ∧
      isBcd t.a = true ∧ bcdValue t.a = sum % 100 ∧ t.flag .c = decide (100 ≤ sum) ∧
      (generation = .cmos → NZFrom t.a t) ∧
      (generation = .nmos →
        t.flag .z = decide ((s.a.toNat + v.toNat + (s.flag .c).toNat) % 256 = 0)) ∧
      FlagsKept [.n, .z, .c, .v] s t

/-- Decimal ADC on every pair of bytes (R143, R144): the low digit, `rs` and `r` in arithmetic, A and C from `r` under
both generations, the other flags by the generation. The spec's own choices: the algorithms apply to bytes that are no
BCD (R149, D34, log 30), and the V of NMOS (D22, log 23). -/
def Obligations.DecimalAdcOnAllBytes : Prop :=
  ∀ (generation : ChipGeneration) (m : Operand) (s : State) (v : Byte),
    (resolve m s).value = some v → s.flag .d = true →
    let low := s.a.toNat % 16 + v.toNat % 16 + (s.flag .c).toNat
    let ln := if 10 ≤ low then (low + 6) % 16 + 16 else low
    let rs := ln + 16 * (s.a.toNat / 16) + 16 * (v.toNat / 16)
    let r := if 0xA0 ≤ rs then rs + 0x60 else rs
    ∃ t, exec (.adc ⟨generation, m⟩) s = .next t ∧
      t = { s with a := BitVec.ofNat 8 r, pc := (s.past m).pc, p := t.p } ∧ t.flag .c = decide (0x99 < r) ∧
      (generation = .nmos →
        t.flag .n = rs.testBit 7 ∧
        t.flag .z = decide ((s.a.toNat + v.toNat + (s.flag .c).toNat) % 256 = 0) ∧
        t.flag .v = (s.a.getLsbD 7 == v.getLsbD 7 && s.a.getLsbD 7 != rs.testBit 7)) ∧
      (generation = .cmos →
        NZFrom (BitVec.ofNat 8 r) t ∧ t.flag .v = decide (0x80 ≤ r)) ∧
      FlagsKept [.n, .z, .c, .v] s t

/-- Binary SBC, under both generations (R145, R146): A minus v minus the borrow, C = 1 where there is no borrow, V the
signed overflow, N and Z from A. -/
def Obligations.BinarySbcSubtracts : Prop :=
  ∀ (generation : ChipGeneration) (cv : CmosDecSbcCv) (m : Operand) (s : State) (v : Byte),
    (resolve m s).value = some v → s.flag .d = false →
    let borrow := 1 - (s.flag .c).toNat
    let signedDiff := s.a.toInt - v.toInt - (borrow : Int)
    let out := BitVec.ofNat 8 (s.a.toNat + 256 - v.toNat - borrow)
    ∃ t, exec (.sbc ⟨(generation, cv), m⟩) s = .next t ∧
      t = { s with a := out, pc := (s.past m).pc, p := t.p } ∧
      NZFrom out t ∧ t.flag .c = decide (v.toNat + borrow ≤ s.a.toNat) ∧
      t.flag .v = decide (signedDiff < -128 ∨ 127 < signedDiff) ∧ FlagsKept [.n, .z, .c, .v] s t

/-- Decimal SBC on two decimal numbers, but for a drawn C and V: A is the decimal difference modulo 100, C = 1 where
there is no borrow, N and Z from A, V the binary one (R147; under CMOS the spec's default D3, log 8). -/
def Obligations.DecimalSbcSubtractsDigits : Prop :=
  ∀ (generation : ChipGeneration) (cv : CmosDecSbcCv) (m : Operand) (s : State) (v : Byte),
    (resolve m s).value = some v → s.flag .d = true →
    isBcd s.a = true → isBcd v = true →
    (generation = .cmos → cv = .asNmos) →
    let borrow := 1 - (s.flag .c).toNat
    let signedDiff := s.a.toInt - v.toInt - (borrow : Int)
    ∃ t, exec (.sbc ⟨(generation, cv), m⟩) s = .next t ∧ t = { s with a := t.a, pc := (s.past m).pc, p := t.p } ∧
      isBcd t.a = true ∧ bcdValue t.a = (bcdValue s.a + 100 - bcdValue v - borrow) % 100 ∧
      t.flag .c = decide (bcdValue v + borrow ≤ bcdValue s.a) ∧ NZFrom t.a t ∧
      t.flag .v = decide (signedDiff < -128 ∨ 127 < signedDiff) ∧ FlagsKept [.n, .z, .c, .v] s t

/-- Decimal SBC on every pair of bytes, under both generations (R147, R148): A, N and Z always; C and V by the NMOS
formulas (under CMOS the spec's own default D3, log 8), or, under CMOS and `draw`, the two fresh free bits, whatever
they are (log 6). That the algorithms apply to bytes that are no BCD is the spec's own D34 (R149, log 30). -/
def Obligations.DecimalSbcOnAllBytes : Prop :=
  ∀ (generation : ChipGeneration) (cv : CmosDecSbcCv) (m : Operand) (s : State) (v : Byte),
    (resolve m s).value = some v → s.flag .d = true →
    let borrow := 1 - (s.flag .c).toNat
    let low : Int := (s.a.toNat % 16 : Nat) - (v.toNat % 16 : Nat) - (borrow : Int)
    let ln : Int := if low < 0 then (low - 6) % 16 - 16 else low
    let high : Int := ln + 16 * (s.a.toNat / 16 : Nat) - 16 * (v.toNat / 16 : Nat)
    let r : Int := if high < 0 then high - 0x60 else high
    let signedDiff := s.a.toInt - v.toInt - (borrow : Int)
    let drawn := generation = .cmos ∧ cv = .draw
    ∃ t, exec (.sbc ⟨(generation, cv), m⟩) s = .next t ∧
      t = { s with
        a := BitVec.ofInt 8 r, pc := (s.past m).pc, p := t.p
        freeCount := if drawn then s.freeCount + 2 else s.freeCount } ∧
      NZFrom (BitVec.ofInt 8 r) t ∧
      (drawn → t.flag .c = Config.freeBit s.freeCount ∧ t.flag .v = Config.freeBit (s.freeCount + 1)) ∧
      (¬ drawn → t.flag .c = decide (0 ≤ r) ∧
        t.flag .v = decide (signedDiff < -128 ∨ 127 < signedDiff)) ∧
      FlagsKept [.n, .z, .c, .v] s t

/-- CHIP_GENERATION picks between variants of ADC and SBC alone, and they differ in decimal mode alone (R5): under
another generation a table entry gives an instruction that does the same from every state, but for ADC and SBC while D
= 1. -/
def Obligations.GenerationMattersInDecimalOnly : Prop :=
  ∀ (c : Config) (g : ChipGeneration) (k : Kind) (m : Operand) (s : State),
    (s.flag .d = false ∨ (k ≠ .adc ∧ k ≠ .sbc)) →
    exec (k.instr { c with chipGeneration := g } m) s = exec (k.instr c m) s

/-! ## Control flow -/

/-- The eight branches on a relative operand (R81, R151 to R159; the conditions are "from general knowledge, not in
source", D21, log 22): taken, PC is the next instruction plus the signed offset modulo 0x10000; not taken, the next
instruction, past the offset byte (the spec's own D29, log 27); nothing else changes. -/
def Obligations.BranchesTestTheirFlag : Prop :=
  ∀ (offset : Byte) (s : State),
    let goes := fun taken : Bool => Host.Outcome.next (φ := Fault) (ρ := Refusal) { s with
      pc := if taken then BitVec.ofInt 16 (s.pc.toNat + 1 + offset.toInt) else s.pc + 1 }
    exec (.bcc (.relative offset)) s = goes (!s.flag .c) ∧
    exec (.bcs (.relative offset)) s = goes (s.flag .c) ∧
    exec (.bne (.relative offset)) s = goes (!s.flag .z) ∧
    exec (.beq (.relative offset)) s = goes (s.flag .z) ∧
    exec (.bpl (.relative offset)) s = goes (!s.flag .n) ∧
    exec (.bmi (.relative offset)) s = goes (s.flag .n) ∧
    exec (.bvc (.relative offset)) s = goes (!s.flag .v) ∧
    exec (.bvs (.relative offset)) s = goes (s.flag .v)

/-- JMP (R82, R85, R86, R160): absolute to its operand; indirect through the pointer, whose high byte comes from the
next address modulo 0x10000 (D26, log 26), or, in the page-bug sibling and with a pointer ending in 0xFF (C10, log
26), from the start of the pointer's page. The profile puts the sibling in place of the indirect form of JMP (R89),
and changes no other operand of any kind. -/
def Obligations.JumpsReachTheirTarget : Prop :=
  (∀ (w : Word) (s : State),
    let next := BitVec.ofNat 16 (w.toNat + 1)
    let pageStart := BitVec.ofNat 16 (w.toNat - 0xFF)
    let target := fun highAt : Word => BitVec.ofNat 16 ((s.read w).toNat + 0x100 * (s.read highAt).toNat)
    exec (.jmp (.absolute w)) s = .next { s with pc := w } ∧
    exec (.jmp (.absoluteIndirect w)) s = .next { s with pc := target next } ∧
    exec (.jmp (.absoluteIndirectPageBug w)) s =
      .next { s with pc := target (if w.toNat % 0x100 = 0xFF then pageStart else next) }) ∧
  ∀ (c : Config) (k : Kind) (m : Operand),
    (k.instr c m).operand =
      match k, m with
      | .jmp, .absoluteIndirect w => if c.jmpIndirectPageBug then .absoluteIndirectPageBug w else .absoluteIndirect w
      | _, m => m

/-- JSR where both pushes fit (R161): the address of the next instruction, high byte first, and PC at the target. The
pushed address is the spec's own C6 (log 37), `stack_wrapped` its D4 (log 9). -/
def Obligations.JsrPushesReturnAddress : Prop :=
  ∀ (m : Operand) (s : State) (ea : Word), (resolve m s).ea = some ea → s.stackWrapped = false → s.sp ≠ 0x00 →
    let second := (s.setSp (s.sp - 1)).stackAddress
    ∃ t, exec (.jsr m) s = .next t ∧
      t = { s with mem := t.mem, sp := s.sp - 2, stackWrapped := s.sp == 0x01, pc := ea } ∧
      t.read s.stackAddress = hiByte (s.past m).pc ∧ t.read second = loByte (s.past m).pc ∧
      MemoryKept [s.stackAddress, second] s t

/-- RTS where both pops are there (R162): PC from the stack, low byte first, not incremented (the spec's own C6, log
37); the condition and the effect on `stack_wrapped` are its D4 (log 9). -/
def Obligations.RtsPopsPc : Prop :=
  ∀ (m : Operand) (s : State), s.sp ≠ 0xFE → (s.sp ≠ 0xFF ∨ s.stackWrapped = true) →
    exec (.rts m) s = .next { s with
      sp := s.sp + 2, stackWrapped := false
      pc := BitVec.ofNat 16 ((s.read (s.setSp (s.sp + 1)).stackAddress).toNat +
        0x100 * (s.read (s.setSp (s.sp + 2)).stackAddress).toNat) }

/-- BRK where all three pushes fit (R163, R187): I and B set, `opaddr + 2` and then P pushed, PC from the vector at
0xFFFE. That it pushes `opaddr + 2` from a one-byte BRK is the spec's own D7, log 12; that P is pushed after I and B
are set is its C13, log 37, and `stack_wrapped` its D4, log 9. -/
def Obligations.BrkTakesTheTrap : Prop :=
  ∀ (m : Operand) (s : State), s.stackWrapped = false → s.sp ≠ 0x00 → s.sp ≠ 0x01 →
    let second := (s.setSp (s.sp - 1)).stackAddress
    let third := (s.setSp (s.sp - 2)).stackAddress
    ∃ t, exec (.brk m) s = .next t ∧
      t = { s with
        mem := t.mem, sp := s.sp - 3, stackWrapped := s.sp == 0x02, p := s.p ||| 0x14#8
        pc := BitVec.ofNat 16 ((s.read 0xFFFE).toNat + 0x100 * (s.read 0xFFFF).toNat) } ∧
      t.read s.stackAddress = hiByte (s.lastOpcodeAddress + 2) ∧
      t.read second = loByte (s.lastOpcodeAddress + 2) ∧ t.read third = s.p ||| 0x14#8 ∧
      MemoryKept [s.stackAddress, second, third] s t

/-- RTI where all three pops are there (R164, R188): P verbatim (D8, log 13) but for I, which is cleared, then PC. The
condition and the effect on `stack_wrapped` are the spec's own D4 (log 9). -/
def Obligations.RtiReturnsFromTheTrap : Prop :=
  ∀ (m : Operand) (s : State), s.sp ≠ 0xFD → s.sp ≠ 0xFE → (s.sp ≠ 0xFF ∨ s.stackWrapped = true) →
    exec (.rti m) s = .next { s with
      sp := s.sp + 3, stackWrapped := false
      p := s.read (s.setSp (s.sp + 1)).stackAddress &&& 0xFB#8
      pc := BitVec.ofNat 16 ((s.read (s.setSp (s.sp + 2)).stackAddress).toNat +
        0x100 * (s.read (s.setSp (s.sp + 3)).stackAddress).toNat) }

/-- An RTS run in the state a JSR left returns to the instruction after the JSR with the stack as it was (R161, R162);
an RTI run in the state a BRK left goes on two bytes past the BRK with the stack as it was, B set and I clear (R163,
R164, R188). The spec's own choices: the address JSR pushes and RTS takes as it is, and P pushed after I and B are set
(C6, C13, log 37), BRK's `opaddr + 2` (D7, log 12), P loaded verbatim by RTI (D8, log 13), `stack_wrapped` (D4, log
9). -/
def Obligations.ReturnsUndoCallAndTrap : Prop :=
  (∀ (m : Operand) (s t : State), exec (.jsr m) s = .next t →
    exec (.rts .implied) t = .next { s with mem := t.mem, pc := (s.past m).pc }) ∧
  (∀ (m : Operand) (s t : State), exec (.brk m) s = .next t →
    exec (.rti .implied) t = .next { s with
      mem := t.mem, p := (s.p ||| 0x10#8) &&& 0xFB#8, pc := s.lastOpcodeAddress + 2 })

/-! ## Flag operations -/

/-- CLC, SEC, CLD, SED, CLI, SEI, CLV: the named flag's bit of P and nothing else (R32, R167 to R173). -/
def Obligations.FlagOperationsChangeOneBit : Prop :=
  ∀ (m : Operand) (s : State),
    exec (.clc m) s = .next { s with pc := (s.past m).pc, p := s.p &&& 0xFE#8 } ∧
    exec (.sec m) s = .next { s with pc := (s.past m).pc, p := s.p ||| 0x01#8 } ∧
    exec (.cld m) s = .next { s with pc := (s.past m).pc, p := s.p &&& 0xF7#8 } ∧
    exec (.sed m) s = .next { s with pc := (s.past m).pc, p := s.p ||| 0x08#8 } ∧
    exec (.cli m) s = .next { s with pc := (s.past m).pc, p := s.p &&& 0xFB#8 } ∧
    exec (.sei m) s = .next { s with pc := (s.past m).pc, p := s.p ||| 0x04#8 } ∧
    exec (.clv m) s = .next { s with pc := (s.past m).pc, p := s.p &&& 0xBF#8 }

/-- Flag and P coherence (R32): P is the sum of its flags' weights, writing one flag reads back and leaves the others,
writing P writes all eight; and `setNZ(v)` writes N from bit 7 of v, Z from v = 0, nothing else (R33). -/
def Obligations.FlagsAreTheBitsOfP : Prop :=
  (∀ s : State, s.p.toNat = 128 * (s.flag .n).toNat + 64 * (s.flag .v).toNat + 32 * (s.flag .e).toNat +
    16 * (s.flag .b).toNat + 8 * (s.flag .d).toNat + 4 * (s.flag .i).toNat + 2 * (s.flag .z).toNat +
    (s.flag .c).toNat) ∧
  (∀ (s : State) (f : Flag) (on : Bool),
    (s.setFlag f on).flag f = on ∧ FlagsKept [f] s (s.setFlag f on) ∧
    s.setFlag f on = { s with p := (s.setFlag f on).p }) ∧
  (∀ (s : State) (v : Byte) (f : Flag), (s.setP v).flag f = decide (v.toNat / 2 ^ f.bit % 2 = 1)) ∧
  (∀ (s : State) (v : Byte), NZFrom v (s.setNZ v) ∧ FlagsKept [.n, .z] s (s.setNZ v) ∧
    s.setNZ v = { s with p := (s.setNZ v).p })

/-! ## Rules over all instructions -/

/-- Who writes which flag (R34 to R41): E, B, I, D, V, and N, Z, C change in the listed instructions alone; V becomes
1 in ADC, SBC, BIT, PLP and RTI alone. -/
def Obligations.FlagWritersAreListed : Prop :=
  ∀ (i : Instr) (s t : State), exec i s = .next t →
    (i.kind ∉ [Kind.plp, .rti] → t.flag .e = s.flag .e) ∧
    (i.kind ∉ [Kind.plp, .rti, .brk] → t.flag .b = s.flag .b) ∧
    (i.kind ∉ [Kind.plp, .rti, .sed, .cld] → t.flag .d = s.flag .d) ∧
    (i.kind ∉ [Kind.plp, .rti, .brk, .sei, .cli] → t.flag .i = s.flag .i) ∧
    (i.kind ∉ [Kind.plp, .rti, .adc, .sbc, .bit, .clv] → t.flag .v = s.flag .v) ∧
    (i.kind ∉ [Kind.plp, .rti, .adc, .sbc, .bit] → t.flag .v = true → s.flag .v = true) ∧
    (i.kind ∉ [Kind.plp, .rti, .adc, .sbc, .cmp, .cpx, .cpy, .asl, .lsr, .rol, .ror, .clc, .sec] →
      t.flag .c = s.flag .c) ∧
    (i.kind ∉ [Kind.lda, .ldx, .ldy, .tax, .tay, .txa, .tya, .tsx, .pla, .and, .ora, .eor, .inc, .dec, .inx, .iny,
        .dex, .dey, .asl, .rol, .ror, .lsr, .bit, .cmp, .cpx, .cpy, .adc, .sbc, .plp, .rti] →
      t.flag .n = s.flag .n ∧ t.flag .z = s.flag .z)

/-- Who writes which register (R25 to R27, R166): A, X, Y, S, `stack_wrapped` and PC change in the listed instructions
of the table alone; every other one leaves PC past its operand. `stack_wrapped` is the spec's own D4 (log 9). The
table is log 11's. -/
def Obligations.RegisterWritersAreListed : Prop :=
  ∀ (i : Instr) (s t : State), WellFormed i → exec i s = .next t →
    (i.kind ∉ [Kind.lda, .pla, .txa, .tya, .and, .ora, .eor, .adc, .sbc] → i.operand ≠ .accumulator → t.a = s.a) ∧
    (i.kind ∉ [Kind.ldx, .tax, .tsx, .inx, .dex] → t.x = s.x) ∧
    (i.kind ∉ [Kind.ldy, .tay, .iny, .dey] → t.y = s.y) ∧
    (i.kind ∉ [Kind.txs, .pha, .php, .pla, .plp, .jsr, .rts, .brk, .rti] →
      t.sp = s.sp ∧ t.stackWrapped = s.stackWrapped) ∧
    (i.kind ∉ [Kind.bcc, .bcs, .beq, .bne, .bmi, .bpl, .bvc, .bvs, .jmp, .jsr, .rts, .brk, .rti] →
      t.pc = s.pc + BitVec.ofNat 16 (i.length - 1))

/-- Who writes memory, and where (R57, R74, R109 to R111, R118, R119, R161, R163): the stores and read-modify-write
instructions the byte at their address, PHA and PHP the stack slot at S (R64), JSR also the slot below it and BRK also
the two below it, each wrapping in page one, every other instruction nothing. The wrap of S is the spec's own D4
(log 9). -/
def Obligations.MemoryWritersAreListed : Prop :=
  ∀ (i : Instr) (s t : State), exec i s = .next t →
    (i.kind ∉ [Kind.sta, .stx, .sty, .inc, .dec, .asl, .lsr, .rol, .ror, .pha, .php, .jsr, .brk] → t.mem = s.mem) ∧
    (i.kind ∈ [Kind.sta, .stx, .sty, .inc, .dec, .asl, .lsr, .rol, .ror] →
      ∀ a : Word, (resolve i.operand s).ea ≠ some a → t.read a = s.read a) ∧
    let second := (s.setSp (s.sp - 1)).stackAddress
    let third := (s.setSp (s.sp - 2)).stackAddress
    (i.kind ∈ [Kind.pha, .php] → MemoryKept [s.stackAddress] s t) ∧
    (i.kind = .jsr → MemoryKept [s.stackAddress, second] s t) ∧
    (i.kind = .brk → MemoryKept [s.stackAddress, second, third] s t)

/-- No instruction touches the counters, `run_state`, the guard, `last_opcode_address`, the breakpoints or the
reported outcome (R43 to R46, R192): those belong to the step and the host; the outcome field is the model's report
(log 4). -/
def Obligations.InstructionsKeepBookkeeping : Prop :=
  ∀ (i : Instr) (s t : State), exec i s = .next t →
    t.numLoaded = s.numLoaded ∧ t.numExecuted = s.numExecuted ∧ t.runState = s.runState ∧ t.bpGuard = s.bpGuard ∧
    t.lastOpcodeAddress = s.lastOpcodeAddress ∧ t.breakpoints = s.breakpoints ∧ t.outcome = s.outcome

/-- Every instruction of the table completes or stops at the stack (R180, R183): outside the pushing and pulling
instructions it always answers a next state. That a comparison never faults is the spec's own D11 (log 16), that
decimal arithmetic takes every byte its D34 (log 30). The table is log 11's. -/
def Obligations.OnlyStackInstructionsCanFault : Prop :=
  ∀ (i : Instr) (s : State), WellFormed i →
    i.kind ∉ [Kind.pha, .php, .jsr, .brk, .pla, .plp, .rts, .rti] → ∃ t, exec i s = .next t

/-- The step does not read the outcome field, which is the model's own report to the host (log 4), and STOPPED does
not block a step (R44, R196; D14, log 19): neither changes what a step does to the rest of the state. -/
def Obligations.ReportsDoNotSteerTheStep : Prop :=
  ∀ (c : Config) (table : OpcodeTable) (s t : State) (r : RunState) (o : StepOutcome), stepWith c table s = .next t →
    ∃ u, stepWith c table { s with runState := r, outcome := o } = .next u ∧
      { u with runState := t.runState, outcome := t.outcome } = t

/-! ## The host's requests -/

/-- Setting `run_state` writes it and gives the host StateChanged of the new value, or, where it stands so already,
gives nothing and changes nothing (R185, R197; the spec's own D35, log 44). Setting a breakpoint puts its address into
the set, clearing takes it out, and neither changes another address or anything else (R46, R197; the set is the list
of log 31). -/
def Obligations.HostSetsRunStateAndBreakpoints : Prop :=
  (∀ (s : State) (r : RunState),
    (s.runState = r → setRunState s r = (none, s)) ∧
    (s.runState ≠ r → setRunState s r = (some (.stateChanged r), { s with runState := r }))) ∧
  (∀ (s : State) (addr : Word),
    (∀ b, b ∈ (setBreakpoint s addr).breakpoints ↔ b = addr ∨ b ∈ s.breakpoints) ∧
    setBreakpoint s addr = { s with breakpoints := (setBreakpoint s addr).breakpoints }) ∧
  ∀ (s : State) (addr : Word),
    (∀ b, b ∈ (clearBreakpoint s addr).breakpoints ↔ b ≠ addr ∧ b ∈ s.breakpoints) ∧
    clearBreakpoint s addr = { s with breakpoints := (clearBreakpoint s addr).breakpoints }
end

