-- ==== Sys2Proof/Laws/Decode.lean ====
section
/-!
SUPPORT. Small lemmas of the decoder and the encoder (30_encoding.md R70 to R72).
-/

namespace Sys2Proof

@[simp] theorem Kind.kind_instr (c : Config) (k : Kind) (m : Operand) : (k.instr c m).kind = k := by cases k <;> rfl

@[simp] theorem mode_jmpOperand (bug : Bool) (m : Operand) : (jmpOperand bug m).mode = m.mode := by
  cases m <;> cases bug <;> rfl

@[simp] theorem bytes_jmpOperand (bug : Bool) (m : Operand) : (jmpOperand bug m).bytes = m.bytes := by
  cases m <;> cases bug <;> rfl

/-- The variant changes neither the mode nor the operand bytes. -/
@[simp] theorem Kind.mode_operand_instr (c : Config) (k : Kind) (m : Operand) : (k.instr c m).operand.mode = m.mode := by
  cases k <;> first | rfl | exact mode_jmpOperand _ _

@[simp] theorem Kind.bytes_operand_instr (c : Config) (k : Kind) (m : Operand) :
    (k.instr c m).operand.bytes = m.bytes := by
  cases k <;> first | rfl | exact bytes_jmpOperand _ _

theorem Mode.length_pos (m : Mode) : 1 ≤ m.length := by cases m <;> decide

theorem Mode.length_le (m : Mode) : m.length ≤ 3 := by cases m <;> decide

/-- The operand bytes are one fewer than the instruction's length (R72). -/
theorem Operand.length_bytes (m : Operand) : m.bytes.length + 1 = m.mode.length := by cases m <;> rfl

/-- The modes a kind is well formed in are the modes its rule gives an opcode to. -/
theorem Kind.modes_eq_opcodes (k : Kind) : k.modes = k.opcodes.map Prod.fst := by cases k <;> rfl

/-- Under the parameters and a table the opcode's entry decides the mode, and the mode the operand (R70). -/
theorem decodeWith_cons (c : Config) (table : OpcodeTable) (op : Byte) (rest : List Byte) :
    decodeWith c table (op :: rest) =
      match table op with
      | none => .error (.undocumented op)
      | some (kind, mode) =>
        match decodeOperand mode rest with
        | none => .error (.truncated op)
        | some (operand, rest') => .ok (kind.instr c operand, rest') := rfl

/-- Two bytes after the opcode are enough for every mode (R72). -/
theorem decodeOperand_isSome (mode : Mode) (b c : Byte) (rest : List Byte) :
    (decodeOperand mode (b :: c :: rest)).isSome = true := by cases mode <;> rfl

/-- The decoded operand has the mode that was asked for. -/
theorem mode_of_decodeOperand {mode : Mode} {bytes rest : List Byte} {m : Operand}
    (h : decodeOperand mode bytes = some (m, rest)) : m.mode = mode := by
  cases mode <;> rcases bytes with _ | ⟨b, _ | ⟨c, l⟩⟩ <;>
    simp only [decodeOperand, takeByte, takeWord, Option.some.injEq, Prod.mk.injEq, reduceCtorEq] at h <;>
    obtain ⟨rfl, -⟩ := h <;> rfl

end Sys2Proof
end

