-- ==== Sys2Proof/Laws/State.lean ====
section
/-!
SUPPORT. One lemma for each field and each update of the state, true by rfl: a later proof unfolds no record update.
-/

namespace Sys2Proof.Machine

open Sys2Proof

variable (s : State)

/-! ### setA -/

@[simp] theorem State.a_setA (v : Byte) : (s.setA v).a = v := rfl
@[simp] theorem State.x_setA (v : Byte) : (s.setA v).x = s.x := rfl
@[simp] theorem State.y_setA (v : Byte) : (s.setA v).y = s.y := rfl
@[simp] theorem State.sp_setA (v : Byte) : (s.setA v).sp = s.sp := rfl
@[simp] theorem State.p_setA (v : Byte) : (s.setA v).p = s.p := rfl
@[simp] theorem State.pc_setA (v : Byte) : (s.setA v).pc = s.pc := rfl
@[simp] theorem State.mem_setA (v : Byte) : (s.setA v).mem = s.mem := rfl
@[simp] theorem State.stackWrapped_setA (v : Byte) : (s.setA v).stackWrapped = s.stackWrapped := rfl
@[simp] theorem State.numLoaded_setA (v : Byte) : (s.setA v).numLoaded = s.numLoaded := rfl
@[simp] theorem State.numExecuted_setA (v : Byte) : (s.setA v).numExecuted = s.numExecuted := rfl
@[simp] theorem State.runState_setA (v : Byte) : (s.setA v).runState = s.runState := rfl
@[simp] theorem State.bpGuard_setA (v : Byte) : (s.setA v).bpGuard = s.bpGuard := rfl
@[simp] theorem State.lastOpcodeAddress_setA (v : Byte) : (s.setA v).lastOpcodeAddress = s.lastOpcodeAddress := rfl
@[simp] theorem State.breakpoints_setA (v : Byte) : (s.setA v).breakpoints = s.breakpoints := rfl
@[simp] theorem State.outcome_setA (v : Byte) : (s.setA v).outcome = s.outcome := rfl
@[simp] theorem State.freeCount_setA (v : Byte) : (s.setA v).freeCount = s.freeCount := rfl

/-! ### setX -/

@[simp] theorem State.a_setX (v : Byte) : (s.setX v).a = s.a := rfl
@[simp] theorem State.x_setX (v : Byte) : (s.setX v).x = v := rfl
@[simp] theorem State.y_setX (v : Byte) : (s.setX v).y = s.y := rfl
@[simp] theorem State.sp_setX (v : Byte) : (s.setX v).sp = s.sp := rfl
@[simp] theorem State.p_setX (v : Byte) : (s.setX v).p = s.p := rfl
@[simp] theorem State.pc_setX (v : Byte) : (s.setX v).pc = s.pc := rfl
@[simp] theorem State.mem_setX (v : Byte) : (s.setX v).mem = s.mem := rfl
@[simp] theorem State.stackWrapped_setX (v : Byte) : (s.setX v).stackWrapped = s.stackWrapped := rfl
@[simp] theorem State.numLoaded_setX (v : Byte) : (s.setX v).numLoaded = s.numLoaded := rfl
@[simp] theorem State.numExecuted_setX (v : Byte) : (s.setX v).numExecuted = s.numExecuted := rfl
@[simp] theorem State.runState_setX (v : Byte) : (s.setX v).runState = s.runState := rfl
@[simp] theorem State.bpGuard_setX (v : Byte) : (s.setX v).bpGuard = s.bpGuard := rfl
@[simp] theorem State.lastOpcodeAddress_setX (v : Byte) : (s.setX v).lastOpcodeAddress = s.lastOpcodeAddress := rfl
@[simp] theorem State.breakpoints_setX (v : Byte) : (s.setX v).breakpoints = s.breakpoints := rfl
@[simp] theorem State.outcome_setX (v : Byte) : (s.setX v).outcome = s.outcome := rfl
@[simp] theorem State.freeCount_setX (v : Byte) : (s.setX v).freeCount = s.freeCount := rfl

/-! ### setY -/

@[simp] theorem State.a_setY (v : Byte) : (s.setY v).a = s.a := rfl
@[simp] theorem State.x_setY (v : Byte) : (s.setY v).x = s.x := rfl
@[simp] theorem State.y_setY (v : Byte) : (s.setY v).y = v := rfl
@[simp] theorem State.sp_setY (v : Byte) : (s.setY v).sp = s.sp := rfl
@[simp] theorem State.p_setY (v : Byte) : (s.setY v).p = s.p := rfl
@[simp] theorem State.pc_setY (v : Byte) : (s.setY v).pc = s.pc := rfl
@[simp] theorem State.mem_setY (v : Byte) : (s.setY v).mem = s.mem := rfl
@[simp] theorem State.stackWrapped_setY (v : Byte) : (s.setY v).stackWrapped = s.stackWrapped := rfl
@[simp] theorem State.numLoaded_setY (v : Byte) : (s.setY v).numLoaded = s.numLoaded := rfl
@[simp] theorem State.numExecuted_setY (v : Byte) : (s.setY v).numExecuted = s.numExecuted := rfl
@[simp] theorem State.runState_setY (v : Byte) : (s.setY v).runState = s.runState := rfl
@[simp] theorem State.bpGuard_setY (v : Byte) : (s.setY v).bpGuard = s.bpGuard := rfl
@[simp] theorem State.lastOpcodeAddress_setY (v : Byte) : (s.setY v).lastOpcodeAddress = s.lastOpcodeAddress := rfl
@[simp] theorem State.breakpoints_setY (v : Byte) : (s.setY v).breakpoints = s.breakpoints := rfl
@[simp] theorem State.outcome_setY (v : Byte) : (s.setY v).outcome = s.outcome := rfl
@[simp] theorem State.freeCount_setY (v : Byte) : (s.setY v).freeCount = s.freeCount := rfl

/-! ### setSp -/

@[simp] theorem State.a_setSp (v : Byte) : (s.setSp v).a = s.a := rfl
@[simp] theorem State.x_setSp (v : Byte) : (s.setSp v).x = s.x := rfl
@[simp] theorem State.y_setSp (v : Byte) : (s.setSp v).y = s.y := rfl
@[simp] theorem State.sp_setSp (v : Byte) : (s.setSp v).sp = v := rfl
@[simp] theorem State.p_setSp (v : Byte) : (s.setSp v).p = s.p := rfl
@[simp] theorem State.pc_setSp (v : Byte) : (s.setSp v).pc = s.pc := rfl
@[simp] theorem State.mem_setSp (v : Byte) : (s.setSp v).mem = s.mem := rfl
@[simp] theorem State.stackWrapped_setSp (v : Byte) : (s.setSp v).stackWrapped = s.stackWrapped := rfl
@[simp] theorem State.numLoaded_setSp (v : Byte) : (s.setSp v).numLoaded = s.numLoaded := rfl
@[simp] theorem State.numExecuted_setSp (v : Byte) : (s.setSp v).numExecuted = s.numExecuted := rfl
@[simp] theorem State.runState_setSp (v : Byte) : (s.setSp v).runState = s.runState := rfl
@[simp] theorem State.bpGuard_setSp (v : Byte) : (s.setSp v).bpGuard = s.bpGuard := rfl
@[simp] theorem State.lastOpcodeAddress_setSp (v : Byte) : (s.setSp v).lastOpcodeAddress = s.lastOpcodeAddress := rfl
@[simp] theorem State.breakpoints_setSp (v : Byte) : (s.setSp v).breakpoints = s.breakpoints := rfl
@[simp] theorem State.outcome_setSp (v : Byte) : (s.setSp v).outcome = s.outcome := rfl
@[simp] theorem State.freeCount_setSp (v : Byte) : (s.setSp v).freeCount = s.freeCount := rfl

/-! ### setP -/

@[simp] theorem State.a_setP (v : Byte) : (s.setP v).a = s.a := rfl
@[simp] theorem State.x_setP (v : Byte) : (s.setP v).x = s.x := rfl
@[simp] theorem State.y_setP (v : Byte) : (s.setP v).y = s.y := rfl
@[simp] theorem State.sp_setP (v : Byte) : (s.setP v).sp = s.sp := rfl
@[simp] theorem State.p_setP (v : Byte) : (s.setP v).p = v := rfl
@[simp] theorem State.pc_setP (v : Byte) : (s.setP v).pc = s.pc := rfl
@[simp] theorem State.mem_setP (v : Byte) : (s.setP v).mem = s.mem := rfl
@[simp] theorem State.stackWrapped_setP (v : Byte) : (s.setP v).stackWrapped = s.stackWrapped := rfl
@[simp] theorem State.numLoaded_setP (v : Byte) : (s.setP v).numLoaded = s.numLoaded := rfl
@[simp] theorem State.numExecuted_setP (v : Byte) : (s.setP v).numExecuted = s.numExecuted := rfl
@[simp] theorem State.runState_setP (v : Byte) : (s.setP v).runState = s.runState := rfl
@[simp] theorem State.bpGuard_setP (v : Byte) : (s.setP v).bpGuard = s.bpGuard := rfl
@[simp] theorem State.lastOpcodeAddress_setP (v : Byte) : (s.setP v).lastOpcodeAddress = s.lastOpcodeAddress := rfl
@[simp] theorem State.breakpoints_setP (v : Byte) : (s.setP v).breakpoints = s.breakpoints := rfl
@[simp] theorem State.outcome_setP (v : Byte) : (s.setP v).outcome = s.outcome := rfl
@[simp] theorem State.freeCount_setP (v : Byte) : (s.setP v).freeCount = s.freeCount := rfl

/-! ### setPc -/

@[simp] theorem State.a_setPc (w : Word) : (s.setPc w).a = s.a := rfl
@[simp] theorem State.x_setPc (w : Word) : (s.setPc w).x = s.x := rfl
@[simp] theorem State.y_setPc (w : Word) : (s.setPc w).y = s.y := rfl
@[simp] theorem State.sp_setPc (w : Word) : (s.setPc w).sp = s.sp := rfl
@[simp] theorem State.p_setPc (w : Word) : (s.setPc w).p = s.p := rfl
@[simp] theorem State.pc_setPc (w : Word) : (s.setPc w).pc = w := rfl
@[simp] theorem State.mem_setPc (w : Word) : (s.setPc w).mem = s.mem := rfl
@[simp] theorem State.stackWrapped_setPc (w : Word) : (s.setPc w).stackWrapped = s.stackWrapped := rfl
@[simp] theorem State.numLoaded_setPc (w : Word) : (s.setPc w).numLoaded = s.numLoaded := rfl
@[simp] theorem State.numExecuted_setPc (w : Word) : (s.setPc w).numExecuted = s.numExecuted := rfl
@[simp] theorem State.runState_setPc (w : Word) : (s.setPc w).runState = s.runState := rfl
@[simp] theorem State.bpGuard_setPc (w : Word) : (s.setPc w).bpGuard = s.bpGuard := rfl
@[simp] theorem State.lastOpcodeAddress_setPc (w : Word) : (s.setPc w).lastOpcodeAddress = s.lastOpcodeAddress := rfl
@[simp] theorem State.breakpoints_setPc (w : Word) : (s.setPc w).breakpoints = s.breakpoints := rfl
@[simp] theorem State.outcome_setPc (w : Word) : (s.setPc w).outcome = s.outcome := rfl
@[simp] theorem State.freeCount_setPc (w : Word) : (s.setPc w).freeCount = s.freeCount := rfl

/-! ### setStackWrapped -/

@[simp] theorem State.a_setStackWrapped (w : Bool) : (s.setStackWrapped w).a = s.a := rfl
@[simp] theorem State.x_setStackWrapped (w : Bool) : (s.setStackWrapped w).x = s.x := rfl
@[simp] theorem State.y_setStackWrapped (w : Bool) : (s.setStackWrapped w).y = s.y := rfl
@[simp] theorem State.sp_setStackWrapped (w : Bool) : (s.setStackWrapped w).sp = s.sp := rfl
@[simp] theorem State.p_setStackWrapped (w : Bool) : (s.setStackWrapped w).p = s.p := rfl
@[simp] theorem State.pc_setStackWrapped (w : Bool) : (s.setStackWrapped w).pc = s.pc := rfl
@[simp] theorem State.mem_setStackWrapped (w : Bool) : (s.setStackWrapped w).mem = s.mem := rfl
@[simp] theorem State.stackWrapped_setStackWrapped (w : Bool) : (s.setStackWrapped w).stackWrapped = w := rfl
@[simp] theorem State.numLoaded_setStackWrapped (w : Bool) : (s.setStackWrapped w).numLoaded = s.numLoaded := rfl
@[simp] theorem State.numExecuted_setStackWrapped (w : Bool) : (s.setStackWrapped w).numExecuted = s.numExecuted := rfl
@[simp] theorem State.runState_setStackWrapped (w : Bool) : (s.setStackWrapped w).runState = s.runState := rfl
@[simp] theorem State.bpGuard_setStackWrapped (w : Bool) : (s.setStackWrapped w).bpGuard = s.bpGuard := rfl
@[simp] theorem State.lastOpcodeAddress_setStackWrapped (w : Bool) : (s.setStackWrapped w).lastOpcodeAddress = s.lastOpcodeAddress := rfl
@[simp] theorem State.breakpoints_setStackWrapped (w : Bool) : (s.setStackWrapped w).breakpoints = s.breakpoints := rfl
@[simp] theorem State.outcome_setStackWrapped (w : Bool) : (s.setStackWrapped w).outcome = s.outcome := rfl
@[simp] theorem State.freeCount_setStackWrapped (w : Bool) : (s.setStackWrapped w).freeCount = s.freeCount := rfl

/-! ### write -/

@[simp] theorem State.a_write (addr : Word) (v : Byte) : (s.write addr v).a = s.a := rfl
@[simp] theorem State.x_write (addr : Word) (v : Byte) : (s.write addr v).x = s.x := rfl
@[simp] theorem State.y_write (addr : Word) (v : Byte) : (s.write addr v).y = s.y := rfl
@[simp] theorem State.sp_write (addr : Word) (v : Byte) : (s.write addr v).sp = s.sp := rfl
@[simp] theorem State.p_write (addr : Word) (v : Byte) : (s.write addr v).p = s.p := rfl
@[simp] theorem State.pc_write (addr : Word) (v : Byte) : (s.write addr v).pc = s.pc := rfl
@[simp] theorem State.mem_write (addr : Word) (v : Byte) : (s.write addr v).mem = s.mem.write addr.toNat v := rfl
@[simp] theorem State.stackWrapped_write (addr : Word) (v : Byte) : (s.write addr v).stackWrapped = s.stackWrapped := rfl
@[simp] theorem State.numLoaded_write (addr : Word) (v : Byte) : (s.write addr v).numLoaded = s.numLoaded := rfl
@[simp] theorem State.numExecuted_write (addr : Word) (v : Byte) : (s.write addr v).numExecuted = s.numExecuted := rfl
@[simp] theorem State.runState_write (addr : Word) (v : Byte) : (s.write addr v).runState = s.runState := rfl
@[simp] theorem State.bpGuard_write (addr : Word) (v : Byte) : (s.write addr v).bpGuard = s.bpGuard := rfl
@[simp] theorem State.lastOpcodeAddress_write (addr : Word) (v : Byte) : (s.write addr v).lastOpcodeAddress = s.lastOpcodeAddress := rfl
@[simp] theorem State.breakpoints_write (addr : Word) (v : Byte) : (s.write addr v).breakpoints = s.breakpoints := rfl
@[simp] theorem State.outcome_write (addr : Word) (v : Byte) : (s.write addr v).outcome = s.outcome := rfl
@[simp] theorem State.freeCount_write (addr : Word) (v : Byte) : (s.write addr v).freeCount = s.freeCount := rfl

/-! ### setFlag -/

@[simp] theorem State.a_setFlag (f : Flag) (on : Bool) : (s.setFlag f on).a = s.a := rfl
@[simp] theorem State.x_setFlag (f : Flag) (on : Bool) : (s.setFlag f on).x = s.x := rfl
@[simp] theorem State.y_setFlag (f : Flag) (on : Bool) : (s.setFlag f on).y = s.y := rfl
@[simp] theorem State.sp_setFlag (f : Flag) (on : Bool) : (s.setFlag f on).sp = s.sp := rfl
@[simp] theorem State.p_setFlag (f : Flag) (on : Bool) : (s.setFlag f on).p = if on then s.p ||| f.mask else s.p &&& ~~~f.mask := rfl
@[simp] theorem State.pc_setFlag (f : Flag) (on : Bool) : (s.setFlag f on).pc = s.pc := rfl
@[simp] theorem State.mem_setFlag (f : Flag) (on : Bool) : (s.setFlag f on).mem = s.mem := rfl
@[simp] theorem State.stackWrapped_setFlag (f : Flag) (on : Bool) : (s.setFlag f on).stackWrapped = s.stackWrapped := rfl
@[simp] theorem State.numLoaded_setFlag (f : Flag) (on : Bool) : (s.setFlag f on).numLoaded = s.numLoaded := rfl
@[simp] theorem State.numExecuted_setFlag (f : Flag) (on : Bool) : (s.setFlag f on).numExecuted = s.numExecuted := rfl
@[simp] theorem State.runState_setFlag (f : Flag) (on : Bool) : (s.setFlag f on).runState = s.runState := rfl
@[simp] theorem State.bpGuard_setFlag (f : Flag) (on : Bool) : (s.setFlag f on).bpGuard = s.bpGuard := rfl
@[simp] theorem State.lastOpcodeAddress_setFlag (f : Flag) (on : Bool) : (s.setFlag f on).lastOpcodeAddress = s.lastOpcodeAddress := rfl
@[simp] theorem State.breakpoints_setFlag (f : Flag) (on : Bool) : (s.setFlag f on).breakpoints = s.breakpoints := rfl
@[simp] theorem State.outcome_setFlag (f : Flag) (on : Bool) : (s.setFlag f on).outcome = s.outcome := rfl
@[simp] theorem State.freeCount_setFlag (f : Flag) (on : Bool) : (s.setFlag f on).freeCount = s.freeCount := rfl

/-! ### setNZ -/

@[simp] theorem State.a_setNZ (v : Byte) : (s.setNZ v).a = s.a := rfl
@[simp] theorem State.x_setNZ (v : Byte) : (s.setNZ v).x = s.x := rfl
@[simp] theorem State.y_setNZ (v : Byte) : (s.setNZ v).y = s.y := rfl
@[simp] theorem State.sp_setNZ (v : Byte) : (s.setNZ v).sp = s.sp := rfl
@[simp] theorem State.pc_setNZ (v : Byte) : (s.setNZ v).pc = s.pc := rfl
@[simp] theorem State.mem_setNZ (v : Byte) : (s.setNZ v).mem = s.mem := rfl
@[simp] theorem State.stackWrapped_setNZ (v : Byte) : (s.setNZ v).stackWrapped = s.stackWrapped := rfl
@[simp] theorem State.numLoaded_setNZ (v : Byte) : (s.setNZ v).numLoaded = s.numLoaded := rfl
@[simp] theorem State.numExecuted_setNZ (v : Byte) : (s.setNZ v).numExecuted = s.numExecuted := rfl
@[simp] theorem State.runState_setNZ (v : Byte) : (s.setNZ v).runState = s.runState := rfl
@[simp] theorem State.bpGuard_setNZ (v : Byte) : (s.setNZ v).bpGuard = s.bpGuard := rfl
@[simp] theorem State.lastOpcodeAddress_setNZ (v : Byte) : (s.setNZ v).lastOpcodeAddress = s.lastOpcodeAddress := rfl
@[simp] theorem State.breakpoints_setNZ (v : Byte) : (s.setNZ v).breakpoints = s.breakpoints := rfl
@[simp] theorem State.outcome_setNZ (v : Byte) : (s.setNZ v).outcome = s.outcome := rfl
@[simp] theorem State.freeCount_setNZ (v : Byte) : (s.setNZ v).freeCount = s.freeCount := rfl

/-! ### past -/

@[simp] theorem State.a_past (m : Operand) : (s.past m).a = s.a := rfl
@[simp] theorem State.x_past (m : Operand) : (s.past m).x = s.x := rfl
@[simp] theorem State.y_past (m : Operand) : (s.past m).y = s.y := rfl
@[simp] theorem State.sp_past (m : Operand) : (s.past m).sp = s.sp := rfl
@[simp] theorem State.p_past (m : Operand) : (s.past m).p = s.p := rfl
@[simp] theorem State.pc_past (m : Operand) : (s.past m).pc = s.pc + BitVec.ofNat 16 (m.mode.length - 1) := rfl
@[simp] theorem State.mem_past (m : Operand) : (s.past m).mem = s.mem := rfl
@[simp] theorem State.stackWrapped_past (m : Operand) : (s.past m).stackWrapped = s.stackWrapped := rfl
@[simp] theorem State.numLoaded_past (m : Operand) : (s.past m).numLoaded = s.numLoaded := rfl
@[simp] theorem State.numExecuted_past (m : Operand) : (s.past m).numExecuted = s.numExecuted := rfl
@[simp] theorem State.runState_past (m : Operand) : (s.past m).runState = s.runState := rfl
@[simp] theorem State.bpGuard_past (m : Operand) : (s.past m).bpGuard = s.bpGuard := rfl
@[simp] theorem State.lastOpcodeAddress_past (m : Operand) : (s.past m).lastOpcodeAddress = s.lastOpcodeAddress := rfl
@[simp] theorem State.breakpoints_past (m : Operand) : (s.past m).breakpoints = s.breakpoints := rfl
@[simp] theorem State.outcome_past (m : Operand) : (s.past m).outcome = s.outcome := rfl
@[simp] theorem State.freeCount_past (m : Operand) : (s.past m).freeCount = s.freeCount := rfl

/-! ### Reads of memory and of flags through an update -/

@[simp] theorem State.read_setA (v : Byte) (a : Word) : (s.setA v).read a = s.read a := rfl
@[simp] theorem State.flag_setA (v : Byte) (g : Flag) : (s.setA v).flag g = s.flag g := rfl
@[simp] theorem State.read_setX (v : Byte) (a : Word) : (s.setX v).read a = s.read a := rfl
@[simp] theorem State.flag_setX (v : Byte) (g : Flag) : (s.setX v).flag g = s.flag g := rfl
@[simp] theorem State.read_setY (v : Byte) (a : Word) : (s.setY v).read a = s.read a := rfl
@[simp] theorem State.flag_setY (v : Byte) (g : Flag) : (s.setY v).flag g = s.flag g := rfl
@[simp] theorem State.read_setSp (v : Byte) (a : Word) : (s.setSp v).read a = s.read a := rfl
@[simp] theorem State.flag_setSp (v : Byte) (g : Flag) : (s.setSp v).flag g = s.flag g := rfl
@[simp] theorem State.read_setP (v : Byte) (a : Word) : (s.setP v).read a = s.read a := rfl
@[simp] theorem State.read_setPc (w : Word) (a : Word) : (s.setPc w).read a = s.read a := rfl
@[simp] theorem State.flag_setPc (w : Word) (g : Flag) : (s.setPc w).flag g = s.flag g := rfl
@[simp] theorem State.read_setStackWrapped (w : Bool) (a : Word) : (s.setStackWrapped w).read a = s.read a := rfl
@[simp] theorem State.flag_setStackWrapped (w : Bool) (g : Flag) : (s.setStackWrapped w).flag g = s.flag g := rfl
@[simp] theorem State.flag_write (addr : Word) (v : Byte) (g : Flag) : (s.write addr v).flag g = s.flag g := rfl
@[simp] theorem State.read_setFlag (f : Flag) (on : Bool) (a : Word) : (s.setFlag f on).read a = s.read a := rfl
@[simp] theorem State.read_setNZ (v : Byte) (a : Word) : (s.setNZ v).read a = s.read a := rfl
@[simp] theorem State.read_past (m : Operand) (a : Word) : (s.past m).read a = s.read a := rfl
@[simp] theorem State.flag_past (m : Operand) (g : Flag) : (s.past m).flag g = s.flag g := rfl

end Sys2Proof.Machine
end

