-- ==== Sys2Proof/Laws/Flags.lean ====
section
/-!
SUPPORT. The laws of the flags in P (10_state.md R31 to R33) and of the adder's result.
-/

namespace Sys2Proof.Machine

open Sys2Proof

theorem getLsbD_mask (f g : Flag) : f.mask.getLsbD g.bit = decide (g = f) := by
  cases f <;> cases g <;> decide

theorem Flag.bit_lt (f : Flag) : f.bit < 8 := by cases f <;> decide

/-- A flag's bit of P after a write of a flag (R32). -/
@[simp] theorem State.flag_setFlag (s : State) (f g : Flag) (on : Bool) :
    (s.setFlag f on).flag g = if g = f then on else s.flag g := by
  have h := getLsbD_mask f g
  cases on
  · rw [State.flag, State.p_setFlag, if_neg (by decide), BitVec.getLsbD_and, BitVec.getLsbD_not, h]
    by_cases hg : g = f <;> simp [hg, State.flag, Flag.bit_lt]
  · rw [State.flag, State.p_setFlag, if_pos rfl, BitVec.getLsbD_or, h]
    by_cases hg : g = f <;> simp [hg, State.flag]

/-- `setNZ(v)` (R33), read back. -/
@[simp] theorem State.flag_setNZ (s : State) (v : Byte) (g : Flag) :
    (s.setNZ v).flag g = if g = .z then v == 0x00 else if g = .n then v.msb else s.flag g := by
  simp [State.setNZ]

/-- States of one P agree on every flag, and conversely. -/
theorem p_eq_of_flags {s t : State} (h : ∀ f, t.flag f = s.flag f) : t.p = s.p := by
  apply BitVec.eq_of_getLsbD_eq
  intro i hi
  have := h .n; have := h .v; have := h .e; have := h .b
  have := h .d; have := h .i; have := h .z; have := h .c
  simp only [State.flag, Flag.bit] at *
  match i, hi with
  | 0, _ | 1, _ | 2, _ | 3, _ | 4, _ | 5, _ | 6, _ | 7, _ => assumption

theorem State.setFlag_eq (s : State) (f : Flag) (on : Bool) :
    s.setFlag f on = { s with p := (s.setFlag f on).p } := rfl

theorem State.setNZ_eq (s : State) (v : Byte) : s.setNZ v = { s with p := (s.setNZ v).p } := rfl

theorem compareFlags_eq (k : CmpCarryRule) (r v : Byte) (s : State) :
    compareFlags k r v s = { s with p := (compareFlags k r v s).p } := rfl

/-- What a comparison leaves in the flags (R126). -/
@[simp] theorem flag_compareFlags (k : CmpCarryRule) (r v : Byte) (s : State) (g : Flag) :
    (compareFlags k r v s).flag g =
      if g = .c then compareCarry k r v
      else if g = .z then r - v == 0x00 else if g = .n then (r - v).msb else s.flag g := by
  simp [compareFlags]

/-- What the adder's result changes: A and P. -/
theorem State.applyAlu_eq (s : State) (r : AluResult) :
    s.applyAlu r = { s with a := r.a, p := (s.applyAlu r).p } := rfl

/-- The adder's result in the flags. -/
@[simp] theorem State.flag_applyAlu (s : State) (r : AluResult) (g : Flag) :
    (s.applyAlu r).flag g =
      if g = .n then r.n else if g = .v then r.v else if g = .z then r.z else if g = .c then r.c else s.flag g := by
  simp [State.applyAlu]

/-- SBC changes A, P and the count of drawn bits. -/
theorem State.subtractValue_eq (s : State) (g : ChipGeneration) (w : CmosDecSbcCv) (v : Byte) :
    s.subtractValue g w v = { s with
      a := (s.subtractValue g w v).a
      p := (s.subtractValue g w v).p
      freeCount := if s.sbcDraws g w then s.freeCount + 2 else s.freeCount } := by
  unfold State.subtractValue
  cases s.sbcDraws g w <;> rfl

/-! ### What the comparison and the adder leave -/

@[simp] theorem a_compareFlags (k : CmpCarryRule) (r v : Byte) (s : State) : (compareFlags k r v s).a = s.a := rfl
@[simp] theorem x_compareFlags (k : CmpCarryRule) (r v : Byte) (s : State) : (compareFlags k r v s).x = s.x := rfl
@[simp] theorem y_compareFlags (k : CmpCarryRule) (r v : Byte) (s : State) : (compareFlags k r v s).y = s.y := rfl
@[simp] theorem sp_compareFlags (k : CmpCarryRule) (r v : Byte) (s : State) : (compareFlags k r v s).sp = s.sp := rfl
@[simp] theorem pc_compareFlags (k : CmpCarryRule) (r v : Byte) (s : State) : (compareFlags k r v s).pc = s.pc := rfl
@[simp] theorem mem_compareFlags (k : CmpCarryRule) (r v : Byte) (s : State) : (compareFlags k r v s).mem = s.mem := rfl
@[simp] theorem stackWrapped_compareFlags (k : CmpCarryRule) (r v : Byte) (s : State) : (compareFlags k r v s).stackWrapped = s.stackWrapped := rfl
@[simp] theorem numLoaded_compareFlags (k : CmpCarryRule) (r v : Byte) (s : State) : (compareFlags k r v s).numLoaded = s.numLoaded := rfl
@[simp] theorem numExecuted_compareFlags (k : CmpCarryRule) (r v : Byte) (s : State) : (compareFlags k r v s).numExecuted = s.numExecuted := rfl
@[simp] theorem runState_compareFlags (k : CmpCarryRule) (r v : Byte) (s : State) : (compareFlags k r v s).runState = s.runState := rfl
@[simp] theorem bpGuard_compareFlags (k : CmpCarryRule) (r v : Byte) (s : State) : (compareFlags k r v s).bpGuard = s.bpGuard := rfl
@[simp] theorem lastOpcodeAddress_compareFlags (k : CmpCarryRule) (r v : Byte) (s : State) : (compareFlags k r v s).lastOpcodeAddress = s.lastOpcodeAddress := rfl
@[simp] theorem breakpoints_compareFlags (k : CmpCarryRule) (r v : Byte) (s : State) : (compareFlags k r v s).breakpoints = s.breakpoints := rfl
@[simp] theorem outcome_compareFlags (k : CmpCarryRule) (r v : Byte) (s : State) : (compareFlags k r v s).outcome = s.outcome := rfl
@[simp] theorem freeCount_compareFlags (k : CmpCarryRule) (r v : Byte) (s : State) : (compareFlags k r v s).freeCount = s.freeCount := rfl
@[simp] theorem State.read_compareFlags (k : CmpCarryRule) (r v : Byte) (s : State) (a : Word) : (compareFlags k r v s).read a = s.read a := rfl
@[simp] theorem State.a_addValue (s : State) (g : ChipGeneration) (v : Byte) :
    (s.addValue g v).a = (adc g (s.flag .d) s.a v (s.flag .c)).a := rfl
@[simp] theorem State.x_addValue (s : State) (g : ChipGeneration) (v : Byte) : (s.addValue g v).x = s.x := rfl
@[simp] theorem State.y_addValue (s : State) (g : ChipGeneration) (v : Byte) : (s.addValue g v).y = s.y := rfl
@[simp] theorem State.sp_addValue (s : State) (g : ChipGeneration) (v : Byte) : (s.addValue g v).sp = s.sp := rfl
@[simp] theorem State.pc_addValue (s : State) (g : ChipGeneration) (v : Byte) : (s.addValue g v).pc = s.pc := rfl
@[simp] theorem State.mem_addValue (s : State) (g : ChipGeneration) (v : Byte) : (s.addValue g v).mem = s.mem := rfl
@[simp] theorem State.stackWrapped_addValue (s : State) (g : ChipGeneration) (v : Byte) : (s.addValue g v).stackWrapped = s.stackWrapped := rfl
@[simp] theorem State.numLoaded_addValue (s : State) (g : ChipGeneration) (v : Byte) : (s.addValue g v).numLoaded = s.numLoaded := rfl
@[simp] theorem State.numExecuted_addValue (s : State) (g : ChipGeneration) (v : Byte) : (s.addValue g v).numExecuted = s.numExecuted := rfl
@[simp] theorem State.runState_addValue (s : State) (g : ChipGeneration) (v : Byte) : (s.addValue g v).runState = s.runState := rfl
@[simp] theorem State.bpGuard_addValue (s : State) (g : ChipGeneration) (v : Byte) : (s.addValue g v).bpGuard = s.bpGuard := rfl
@[simp] theorem State.lastOpcodeAddress_addValue (s : State) (g : ChipGeneration) (v : Byte) : (s.addValue g v).lastOpcodeAddress = s.lastOpcodeAddress := rfl
@[simp] theorem State.breakpoints_addValue (s : State) (g : ChipGeneration) (v : Byte) : (s.addValue g v).breakpoints = s.breakpoints := rfl
@[simp] theorem State.outcome_addValue (s : State) (g : ChipGeneration) (v : Byte) : (s.addValue g v).outcome = s.outcome := rfl
@[simp] theorem State.freeCount_addValue (s : State) (g : ChipGeneration) (v : Byte) : (s.addValue g v).freeCount = s.freeCount := rfl
@[simp] theorem State.read_addValue (s : State) (g : ChipGeneration) (v : Byte) (a : Word) : (s.addValue g v).read a = s.read a := rfl
@[simp] theorem State.x_subtractValue (s : State) (g : ChipGeneration) (w : CmosDecSbcCv) (v : Byte) : (s.subtractValue g w v).x = s.x := by
  rw [State.subtractValue_eq]
@[simp] theorem State.y_subtractValue (s : State) (g : ChipGeneration) (w : CmosDecSbcCv) (v : Byte) : (s.subtractValue g w v).y = s.y := by
  rw [State.subtractValue_eq]
@[simp] theorem State.sp_subtractValue (s : State) (g : ChipGeneration) (w : CmosDecSbcCv) (v : Byte) : (s.subtractValue g w v).sp = s.sp := by
  rw [State.subtractValue_eq]
@[simp] theorem State.pc_subtractValue (s : State) (g : ChipGeneration) (w : CmosDecSbcCv) (v : Byte) : (s.subtractValue g w v).pc = s.pc := by
  rw [State.subtractValue_eq]
@[simp] theorem State.mem_subtractValue (s : State) (g : ChipGeneration) (w : CmosDecSbcCv) (v : Byte) : (s.subtractValue g w v).mem = s.mem := by
  rw [State.subtractValue_eq]
@[simp] theorem State.stackWrapped_subtractValue (s : State) (g : ChipGeneration) (w : CmosDecSbcCv) (v : Byte) : (s.subtractValue g w v).stackWrapped = s.stackWrapped := by
  rw [State.subtractValue_eq]
@[simp] theorem State.numLoaded_subtractValue (s : State) (g : ChipGeneration) (w : CmosDecSbcCv) (v : Byte) : (s.subtractValue g w v).numLoaded = s.numLoaded := by
  rw [State.subtractValue_eq]
@[simp] theorem State.numExecuted_subtractValue (s : State) (g : ChipGeneration) (w : CmosDecSbcCv) (v : Byte) : (s.subtractValue g w v).numExecuted = s.numExecuted := by
  rw [State.subtractValue_eq]
@[simp] theorem State.runState_subtractValue (s : State) (g : ChipGeneration) (w : CmosDecSbcCv) (v : Byte) : (s.subtractValue g w v).runState = s.runState := by
  rw [State.subtractValue_eq]
@[simp] theorem State.bpGuard_subtractValue (s : State) (g : ChipGeneration) (w : CmosDecSbcCv) (v : Byte) : (s.subtractValue g w v).bpGuard = s.bpGuard := by
  rw [State.subtractValue_eq]
@[simp] theorem State.lastOpcodeAddress_subtractValue (s : State) (g : ChipGeneration) (w : CmosDecSbcCv) (v : Byte) : (s.subtractValue g w v).lastOpcodeAddress = s.lastOpcodeAddress := by
  rw [State.subtractValue_eq]
@[simp] theorem State.breakpoints_subtractValue (s : State) (g : ChipGeneration) (w : CmosDecSbcCv) (v : Byte) : (s.subtractValue g w v).breakpoints = s.breakpoints := by
  rw [State.subtractValue_eq]
@[simp] theorem State.outcome_subtractValue (s : State) (g : ChipGeneration) (w : CmosDecSbcCv) (v : Byte) : (s.subtractValue g w v).outcome = s.outcome := by
  rw [State.subtractValue_eq]
@[simp] theorem State.freeCount_subtractValue (s : State) (g : ChipGeneration) (w : CmosDecSbcCv) (v : Byte) :
    (s.subtractValue g w v).freeCount = if s.sbcDraws g w then s.freeCount + 2 else s.freeCount := by
  rw [State.subtractValue_eq]
@[simp] theorem State.read_subtractValue (s : State) (g : ChipGeneration) (w : CmosDecSbcCv) (v : Byte) (a : Word) : (s.subtractValue g w v).read a = s.read a := by
  rw [State.subtractValue_eq, State.read, State.read]
/-- SBC leaves A and the flags of the adder's result (R145). -/
theorem State.subtractValue_alu (s : State) (g : ChipGeneration) (w : CmosDecSbcCv) (v : Byte) :
    (s.subtractValue g w v).a = (sbc g w (Config.freeBit s.freeCount) (Config.freeBit (s.freeCount + 1)) (s.flag .d) s.a v (s.flag .c)).a ∧
    (s.subtractValue g w v).p = (s.applyAlu (sbc g w (Config.freeBit s.freeCount) (Config.freeBit (s.freeCount + 1)) (s.flag .d) s.a v (s.flag .c))).p := by
  rw [State.subtractValue]
  cases s.sbcDraws g w <;> exact ⟨rfl, rfl⟩

end Sys2Proof.Machine
end

