-- ==== Sys2Proof/Laws/Memory.lean ====
section
/-!
SUPPORT. The laws of memory: a read after a write to the same address gives the byte, a write leaves every other address
alone, and every operation keeps the canonical form.
-/

namespace Sys2Proof.Machine

open Sys2Proof

/-! ## Reading after writing -/

theorem Memory.read_cons (cell : Host.Cell) (m : Memory) (a : Nat) :
    Memory.read (cell :: m) a = if cell.1 = a then cell.2 else Memory.read m a := rfl

theorem Memory.read_remove_same (m : Memory) (a : Nat) : (m.remove a).read a = 0x00 := by
  induction m with
  | nil => rfl
  | cons cell rest ih =>
    rw [Memory.remove, List.filter_cons]
    split
    next h => rw [Memory.read_cons, if_neg (by simpa using h)]; exact ih
    next => exact ih

theorem Memory.read_remove_other (m : Memory) {a b : Nat} (h : b ≠ a) : (m.remove a).read b = m.read b := by
  induction m with
  | nil => rfl
  | cons cell rest ih =>
    rw [Memory.remove, List.filter_cons, Memory.read_cons]
    split
    next => rw [Memory.read_cons]; simp only [← ih, Memory.remove]
    next hc =>
      have hc : cell.1 = a := by simpa using hc
      rw [if_neg (by omega)]; exact ih

theorem Memory.read_place_same (m : Memory) (a : Nat) (v : Byte) (h : ∀ cell ∈ m, cell.1 ≠ a) :
    (m.place a v).read a = v := by
  induction m with
  | nil => simp [Memory.place, Memory.read]
  | cons cell rest ih =>
    rw [Memory.place]
    split
    next => simp [Memory.read_cons]
    next =>
      rw [Memory.read_cons, if_neg (h cell (by simp))]
      exact ih fun c hc => h c (by simp [hc])

theorem Memory.read_place_other (m : Memory) {a b : Nat} (v : Byte) (h : b ≠ a) :
    (m.place a v).read b = m.read b := by
  induction m with
  | nil => simp [Memory.place, Memory.read, Ne.symm h]
  | cons cell rest ih =>
    rw [Memory.place]
    split
    next => rw [Memory.read_cons, if_neg (by simpa using Ne.symm h)]
    next => rw [Memory.read_cons, Memory.read_cons, ih]

theorem Memory.not_mem_remove (m : Memory) (a : Nat) : ∀ cell ∈ m.remove a, cell.1 ≠ a := by
  intro cell h
  simpa using (List.mem_filter.mp h).2

/-- A byte written reads back. -/
@[simp] theorem Memory.read_write_same (m : Memory) (a : Nat) (v : Byte) : (m.write a v).read a = v := by
  rw [Memory.write]
  split
  next h => rw [Memory.read_remove_same, h]
  next => exact Memory.read_place_same _ _ _ (Memory.not_mem_remove m a)

/-- A write leaves every other address alone. -/
theorem Memory.read_write_other (m : Memory) {a b : Nat} (v : Byte) (h : b ≠ a) :
    (m.write a v).read b = m.read b := by
  rw [Memory.write]
  split
  next => exact Memory.read_remove_other m h
  next => rw [Memory.read_place_other _ _ h, Memory.read_remove_other m h]

@[simp] theorem State.read_write_same (s : State) (a : Word) (v : Byte) : (s.write a v).read a = v :=
  Memory.read_write_same _ _ _

theorem State.read_write_other (s : State) {a b : Word} (v : Byte) (h : b ≠ a) :
    (s.write a v).read b = s.read b :=
  Memory.read_write_other _ _ fun h' => h (BitVec.eq_of_toNat_eq h')

theorem State.read_write (s : State) (a b : Word) (v : Byte) :
    (s.write a v).read b = if b = a then v else s.read b := by
  split
  next h => rw [h, State.read_write_same]
  next h => exact State.read_write_other s v h

/-! ## The canonical form -/

theorem Memory.wfFrom_cons (k : Nat) (cell : Host.Cell) (m : Memory) :
    Memory.wfFrom k (cell :: m) = true ↔
      k ≤ cell.1 ∧ cell.1 < 0x10000 ∧ cell.2 ≠ 0x00 ∧ Memory.wfFrom (cell.1 + 1) m = true := by
  simp [Memory.wfFrom, and_assoc]

theorem Memory.wfFrom_mono {k l : Nat} (h : l ≤ k) : ∀ {m : Memory}, m.wfFrom k = true → m.wfFrom l = true
  | [], _ => rfl
  | cell :: rest, hm => by
    rw [Memory.wfFrom_cons] at hm ⊢
    exact ⟨Nat.le_trans h hm.1, hm.2⟩

theorem Memory.wfFrom_remove (a : Nat) : ∀ {k : Nat} {m : Memory}, m.wfFrom k = true → (m.remove a).wfFrom k = true
  | _, [], _ => rfl
  | k, cell :: rest, hm => by
    rw [Memory.wfFrom_cons] at hm
    obtain ⟨hk, hb, hv, hr⟩ := hm
    have ih := Memory.wfFrom_remove a hr
    rw [Memory.remove, List.filter_cons]
    split
    next => exact (Memory.wfFrom_cons _ _ _).mpr ⟨hk, hb, hv, ih⟩
    next => exact Memory.wfFrom_mono (by omega) ih

theorem Memory.wfFrom_place {a : Nat} {v : Byte} (ha : a < 0x10000) (hv : v ≠ 0x00) :
    ∀ {k : Nat} {m : Memory}, k ≤ a → (∀ cell ∈ m, cell.1 ≠ a) → m.wfFrom k = true →
      (m.place a v).wfFrom k = true
  | k, [], hk, _, _ => (Memory.wfFrom_cons _ _ _).mpr ⟨hk, ha, hv, rfl⟩
  | k, cell :: rest, hk, hne, hm => by
    rw [Memory.wfFrom_cons] at hm
    obtain ⟨hkc, hb, hcv, hr⟩ := hm
    rw [Memory.place]
    split
    next hlt =>
      exact (Memory.wfFrom_cons _ _ _).mpr ⟨hk, ha, hv, (Memory.wfFrom_cons _ _ _).mpr ⟨hlt, hb, hcv, hr⟩⟩
    next hlt =>
      have hne' := hne cell (by simp)
      exact (Memory.wfFrom_cons _ _ _).mpr ⟨hkc, hb, hcv,
        Memory.wfFrom_place ha hv (by omega) (fun c hc => hne c (by simp [hc])) hr⟩

/-- A write keeps the canonical form. -/
theorem Memory.wf_write (m : Memory) (a : Nat) (v : Byte) (ha : a < 0x10000) (hm : m.wf = true) :
    (m.write a v).wf = true := by
  rw [Memory.write]
  split
  next => exact Memory.wfFrom_remove a hm
  next hv => exact Memory.wfFrom_place ha hv (Nat.zero_le _) (Memory.not_mem_remove m a) (Memory.wfFrom_remove a hm)

theorem State.wf_write (s : State) (a : Word) (v : Byte) (h : s.mem.wf = true) : (s.write a v).mem.wf = true :=
  Memory.wf_write _ _ _ a.isLt h

theorem Memory.wf_reset : State.reset.mem.wf = true := rfl

/-- In canonical form no listed cell lies below the least address. -/
theorem Memory.read_below {k a : Nat} (h : a < k) : ∀ {m : Memory}, m.wfFrom k = true → m.read a = 0x00
  | [], _ => rfl
  | cell :: rest, hm => by
    rw [Memory.wfFrom_cons] at hm
    rw [Memory.read_cons, if_neg (by omega)]
    exact Memory.read_below (by omega) hm.2.2.2

/-- Canonical memories that read the same at every address are the same list. -/
theorem Memory.ext_read : ∀ {k : Nat} {m n : Memory}, m.wfFrom k = true → n.wfFrom k = true →
    (∀ a, m.read a = n.read a) → m = n
  | _, [], [], _, _, _ => rfl
  | _, [], cell :: rest, _, hn, h => by
    rw [Memory.wfFrom_cons] at hn
    have := h cell.1
    rw [Memory.read_cons, if_pos rfl] at this
    exact absurd this.symm hn.2.2.1
  | _, cell :: rest, [], hm, _, h => by
    rw [Memory.wfFrom_cons] at hm
    have := h cell.1
    rw [Memory.read_cons, if_pos rfl] at this
    exact absurd this hm.2.2.1
  | k, c :: m, d :: n, hm, hn, h => by
    rw [Memory.wfFrom_cons] at hm hn
    have hc := h c.1
    have hd := h d.1
    rw [Memory.read_cons, if_pos rfl, Memory.read_cons] at hc
    rw [Memory.read_cons, Memory.read_cons, if_pos rfl] at hd
    have hcd : c.1 = d.1 := by
      by_contra hne
      rcases Nat.lt_or_gt_of_ne hne with hlt | hlt
      · rw [if_neg (by omega), Memory.read_below (by omega) hn.2.2.2] at hc
        exact hm.2.2.1 hc
      · rw [if_neg (by omega), Memory.read_below (by omega) hm.2.2.2] at hd
        exact hn.2.2.1 hd.symm
    have hcell : c = d := Prod.ext hcd (by rw [if_pos hcd.symm] at hc; exact hc)
    subst hcell
    congr 1
    refine Memory.ext_read hm.2.2.2 hn.2.2.2 fun a => ?_
    by_cases ha : a < c.1 + 1
    · rw [Memory.read_below ha hm.2.2.2, Memory.read_below ha hn.2.2.2]
    · have := h a
      rwa [Memory.read_cons, Memory.read_cons, if_neg (by omega), if_neg (by omega)] at this

end Sys2Proof.Machine
end

