-- ==== Sys2Proof/Laws/Operands.lean ====
section
/-!
SUPPORT. What the resolver yields (30_encoding.md R73 to R89) and what each shape of meaning can do (R96, R97), said once:
an equation for the form that runs, and an inversion for a meaning that answered a next state.
-/

namespace Sys2Proof.Machine

open Sys2Proof

/-! ## The resolver -/

@[simp] theorem resolve_after (m : Operand) (s : State) : (resolve m s).after = s.past m := rfl

theorem resolve_ea (m : Operand) (s : State) : (resolve m s).ea = effectiveAddress m (s.past m) := rfl

theorem resolve_value (m : Operand) (s : State) : (resolve m s).value = operandValue m (s.past m) := rfl

@[simp] theorem resolve_accumulator_ea (s : State) : (resolve .accumulator s).ea = none := rfl

/-- "Every mode that yields an address also yields v = MemRead(ea, 1)" (R73). -/
theorem value_of_ea {m : Operand} {s : State} {ea : Word} (h : (resolve m s).ea = some ea) :
    (resolve m s).value = some (s.read ea) := by
  rw [resolve_ea] at h
  rw [resolve_value]
  cases m <;> simp_all [operandValue, effectiveAddress]

@[simp] theorem past_implied (s : State) : s.past .implied = s := by
  simp [State.past, State.setPc, Operand.mode, Mode.length]

/-! ## The operand protocol -/

variable {r : Resolved} {t : State}

theorem withValue_some {v : Byte} {body : Byte → State → Host.Outcome State Fault Refusal}
    (h : r.value = some v) : withValue r body = body v r.after := by
  rw [withValue, h]

theorem withValue_none {body : Byte → State → Host.Outcome State Fault Refusal}
    (h : r.value = none) : withValue r body = incomplete r.after := by
  rw [withValue, h]

theorem withValue_next {body : Byte → State → Host.Outcome State Fault Refusal}
    (h : withValue r body = .next t) : ∃ v, r.value = some v ∧ body v r.after = .next t := by
  cases hv : r.value with
  | none => rw [withValue_none hv] at h; cases h
  | some v => exact ⟨v, rfl, (withValue_some hv).symm.trans h⟩

theorem withAddress_some {ea : Word} {body : Word → State → Host.Outcome State Fault Refusal}
    (h : r.ea = some ea) : withAddress r body = body ea r.after := by
  rw [withAddress, h]

theorem withAddress_none {body : Word → State → Host.Outcome State Fault Refusal}
    (h : r.ea = none) : withAddress r body = incomplete r.after := by
  rw [withAddress, h]

theorem withAddress_next {body : Word → State → Host.Outcome State Fault Refusal}
    (h : withAddress r body = .next t) : ∃ ea, r.ea = some ea ∧ body ea r.after = .next t := by
  cases hv : r.ea with
  | none => rw [withAddress_none hv] at h; cases h
  | some v => exact ⟨v, rfl, (withAddress_some hv).symm.trans h⟩

/-! ## The shapes of meanings -/

variable {m : Operand} {s : State}

theorem load_some {v : Byte} {setReg : State → Byte → State} (h : (resolve m s).value = some v) :
    load m s setReg = .next ((setReg (s.past m) v).setNZ v) := by
  rw [load, withValue_some h, resolve_after]

theorem store_some {ea : Word} {v : Byte} (h : (resolve m s).ea = some ea) :
    store m s v = .next ((s.past m).write ea v) := by
  rw [store, withAddress_some h, resolve_after]

theorem transfer_eq {v : Byte} {setReg : State → Byte → State} :
    transfer m s v setReg = .next ((setReg (s.past m) v).setNZ v) := rfl

theorem assignFlag_eq {f : Flag} {on : Bool} : assignFlag m s f on = .next ((s.past m).setFlag f on) := rfl

theorem branch_some {ea : Word} {taken : Bool} (h : (resolve m s).ea = some ea) :
    branch m s taken = .next (if taken then (s.past m).setPc ea else s.past m) := by
  rw [branch, withAddress_some h, resolve_after]

/-- A read-modify-write in Accumulator mode (R74). -/
theorem modify_accumulator {result : Byte → State → Byte} {flags : Byte → Byte → State → State} :
    modify .accumulator s result flags =
      .next (flags s.a (result s.a (s.past .accumulator)) ((s.past .accumulator).setA (result s.a (s.past .accumulator)))) :=
  rfl

/-- A read-modify-write in a mode with an address (R74, R97). -/
theorem modify_memory {result : Byte → State → Byte} {flags : Byte → Byte → State → State} {ea : Word}
    (h : (resolve m s).ea = some ea) :
    modify m s result flags =
      .next (flags (s.read ea) (result (s.read ea) (s.past m)) ((s.past m).write ea (result (s.read ea) (s.past m)))) := by
  rw [modify, withValue_some (value_of_ea h), h]
  cases m <;> first | rfl | cases h

/-- Everything a read-modify-write that answers a next state did. -/
theorem modify_next {result : Byte → State → Byte} {flags : Byte → Byte → State → State}
    (h : modify m s result flags = .next t) :
    (m = .accumulator ∧ t = flags s.a (result s.a (s.past m)) ((s.past m).setA (result s.a (s.past m)))) ∨
    ∃ ea, (resolve m s).ea = some ea ∧
      t = flags (s.read ea) (result (s.read ea) (s.past m)) ((s.past m).write ea (result (s.read ea) (s.past m))) := by
  by_cases hm : m = .accumulator
  · subst hm
    rw [modify_accumulator] at h
    exact .inl ⟨rfl, by cases h; rfl⟩
  · cases hea : (resolve m s).ea with
    | some ea =>
      rw [modify_memory hea] at h
      exact .inr ⟨ea, rfl, by cases h; rfl⟩
    | none =>
      obtain ⟨v, -, hb⟩ := withValue_next h
      simp only [hea] at hb
      cases m <;> first | exact absurd rfl hm | cases hb

end Sys2Proof.Machine
end

