-- ==== Sys2Proof/Laws/Stack.lean ====
section
/-!
SUPPORT. What a push and a pop can do (20_memory.md R64 to R67), said once; the trap's entry and return are built of them.
-/

namespace Sys2Proof.Machine

open Sys2Proof

/-- The stack address is in page one (R27). -/
theorem stackAddress_toNat (s : State) : s.stackAddress.toNat = 0x100 + s.sp.toNat := by
  have key : ∀ b : Byte, (0x0100#16 ||| zext16 b).toNat = 0x100 + b.toNat := by decide +kernel
  exact key s.sp

theorem stackAddress_inj {s t : State} : s.stackAddress = t.stackAddress ↔ s.sp = t.sp := by
  constructor
  · intro h
    have := congrArg BitVec.toNat h
    rw [stackAddress_toNat, stackAddress_toNat] at this
    exact BitVec.eq_of_toNat_eq (by omega)
  · intro h; simp [State.stackAddress, h]

/-- The state a push that does not fault leaves (R64). -/
def pushed (b : Byte) (s : State) : State :=
  { s with mem := s.mem.write s.stackAddress.toNat b, sp := s.sp - 1, stackWrapped := s.sp == 0x00 }

/-- The state a pop that does not fault leaves (R65). -/
def popped (s : State) : State := { s with sp := s.sp + 1, stackWrapped := false }

/-- The byte it yields. -/
def poppedByte (s : State) : Byte := s.read (s.setSp (s.sp + 1)).stackAddress

/-- A pop does not fault (R65). -/
def CanPop (s : State) : Prop := s.sp ≠ 0xFF ∨ s.stackWrapped = true

/-- Everything a push can do (R64). -/
theorem push_eq (b : Byte) (s : State) :
    push b s = if s.stackWrapped then .error (.stackOverflow s) else .ok (pushed b s) := by
  cases h : s.stackWrapped <;> simp [push, pushed, h, State.write, State.setSp, State.setStackWrapped]

theorem push_ok {b : Byte} {s : State} (h : s.stackWrapped = false) : push b s = .ok (pushed b s) := by
  rw [push_eq, h]; rfl

theorem push_error {b : Byte} {s : State} (h : s.stackWrapped = true) : push b s = .error (.stackOverflow s) := by
  rw [push_eq, h]; rfl

theorem push_eq_ok_iff {b : Byte} {s t : State} :
    push b s = .ok t ↔ s.stackWrapped = false ∧ t = pushed b s := by
  rw [push_eq]
  cases s.stackWrapped <;> simp [eq_comm]

/-- Everything a pop can do (R65). -/
theorem pop_ok {s : State} (h : CanPop s) : pop s = .ok (poppedByte s, popped s) := by
  rw [pop, if_neg (by rintro ⟨h1, h2⟩; rcases h with h | h <;> simp_all)]
  rfl

theorem pop_error {s : State} (h1 : s.sp = 0xFF) (h2 : s.stackWrapped = false) :
    pop s = .error (.stackUnderflow s) := by
  rw [pop, if_pos ⟨h1, h2⟩]

theorem not_canPop {s : State} : ¬ CanPop s ↔ s.sp = 0xFF ∧ s.stackWrapped = false := by
  rw [CanPop, not_or, not_not, Bool.not_eq_true]

theorem pop_eq_ok_iff {s : State} {r : Byte × State} :
    pop s = .ok r ↔ CanPop s ∧ r = (poppedByte s, popped s) := by
  by_cases h : CanPop s
  · rw [pop_ok h]
    simp [h, eq_comm]
  · obtain ⟨h1, h2⟩ := not_canPop.mp h
    rw [pop_error h1 h2]
    simp [h]

/-! ### What the two states hold -/

@[simp] theorem stackWrapped_pushed (b : Byte) (s : State) : (pushed b s).stackWrapped = (s.sp == 0x00) := rfl
@[simp] theorem sp_pushed (b : Byte) (s : State) : (pushed b s).sp = s.sp - 1 := rfl
@[simp] theorem a_pushed (b : Byte) (s : State) : (pushed b s).a = s.a := rfl
@[simp] theorem x_pushed (b : Byte) (s : State) : (pushed b s).x = s.x := rfl
@[simp] theorem y_pushed (b : Byte) (s : State) : (pushed b s).y = s.y := rfl
@[simp] theorem p_pushed (b : Byte) (s : State) : (pushed b s).p = s.p := rfl
@[simp] theorem pc_pushed (b : Byte) (s : State) : (pushed b s).pc = s.pc := rfl
@[simp] theorem numLoaded_pushed (b : Byte) (s : State) : (pushed b s).numLoaded = s.numLoaded := rfl
@[simp] theorem numExecuted_pushed (b : Byte) (s : State) : (pushed b s).numExecuted = s.numExecuted := rfl
@[simp] theorem runState_pushed (b : Byte) (s : State) : (pushed b s).runState = s.runState := rfl
@[simp] theorem bpGuard_pushed (b : Byte) (s : State) : (pushed b s).bpGuard = s.bpGuard := rfl
@[simp] theorem lastOpcodeAddress_pushed (b : Byte) (s : State) : (pushed b s).lastOpcodeAddress = s.lastOpcodeAddress := rfl
@[simp] theorem breakpoints_pushed (b : Byte) (s : State) : (pushed b s).breakpoints = s.breakpoints := rfl
@[simp] theorem outcome_pushed (b : Byte) (s : State) : (pushed b s).outcome = s.outcome := rfl
@[simp] theorem freeCount_pushed (b : Byte) (s : State) : (pushed b s).freeCount = s.freeCount := rfl
@[simp] theorem stackWrapped_popped (s : State) : (popped s).stackWrapped = false := rfl
@[simp] theorem sp_popped (s : State) : (popped s).sp = s.sp + 1 := rfl
@[simp] theorem mem_popped (s : State) : (popped s).mem = s.mem := rfl
@[simp] theorem a_popped (s : State) : (popped s).a = s.a := rfl
@[simp] theorem x_popped (s : State) : (popped s).x = s.x := rfl
@[simp] theorem y_popped (s : State) : (popped s).y = s.y := rfl
@[simp] theorem p_popped (s : State) : (popped s).p = s.p := rfl
@[simp] theorem pc_popped (s : State) : (popped s).pc = s.pc := rfl
@[simp] theorem numLoaded_popped (s : State) : (popped s).numLoaded = s.numLoaded := rfl
@[simp] theorem numExecuted_popped (s : State) : (popped s).numExecuted = s.numExecuted := rfl
@[simp] theorem runState_popped (s : State) : (popped s).runState = s.runState := rfl
@[simp] theorem bpGuard_popped (s : State) : (popped s).bpGuard = s.bpGuard := rfl
@[simp] theorem lastOpcodeAddress_popped (s : State) : (popped s).lastOpcodeAddress = s.lastOpcodeAddress := rfl
@[simp] theorem breakpoints_popped (s : State) : (popped s).breakpoints = s.breakpoints := rfl
@[simp] theorem outcome_popped (s : State) : (popped s).outcome = s.outcome := rfl
@[simp] theorem freeCount_popped (s : State) : (popped s).freeCount = s.freeCount := rfl
@[simp] theorem read_popped (s : State) (a : Word) : (popped s).read a = s.read a := rfl

/-- After a pop there is one more byte unless S has come to 0xFF. -/
theorem canPop_popped {s : State} : CanPop (popped s) ↔ s.sp ≠ 0xFE := by
  simp only [CanPop, sp_popped, stackWrapped_popped, Bool.false_eq_true, or_false, ne_eq, not_iff_not]
  constructor <;> intro h <;> bv_omega

theorem stackAddress_pushed (b : Byte) (s : State) :
    (pushed b s).stackAddress = (s.setSp (s.sp - 1)).stackAddress := rfl

/-- Memory after a push: the byte at the stack address, every other byte as before. -/
theorem read_pushed (b : Byte) (s : State) (a : Word) :
    (pushed b s).read a = if a = s.stackAddress then b else s.read a :=
  State.read_write s s.stackAddress a b

/-- Two pushes of an address (R66). -/
theorem pushAddress_eq_ok_iff {w : Word} {s t : State} :
    pushAddress w s = .ok t ↔
      s.stackWrapped = false ∧ s.sp ≠ 0x00 ∧ t = pushed (loByte w) (pushed (hiByte w) s) := by
  rw [pushAddress]
  cases h : s.stackWrapped
  · rw [push_ok h]
    simp [push_eq_ok_iff]
  · rw [push_error h]
    simp

/-- Two pops of an address (R67). -/
theorem popAddress_eq_ok_iff {s : State} {r : Word × State} :
    popAddress s = .ok r ↔
      CanPop s ∧ s.sp ≠ 0xFE ∧ r = (word (poppedByte s) (poppedByte (popped s)), popped (popped s)) := by
  rw [popAddress, ← canPop_popped]
  by_cases h : CanPop s
  · rw [pop_ok h]
    by_cases h' : CanPop (popped s)
    · simp only [pop_ok h', Except.ok.injEq, h, h', true_and]
      exact eq_comm
    · obtain ⟨h1, h2⟩ := not_canPop.mp h'
      simp [pop_error h1 h2, h, h']
  · obtain ⟨h1, h2⟩ := not_canPop.mp h
    simp [pop_error h1 h2, h]

/-- The bytes of a word put back together (R18). -/
@[simp] theorem word_loByte_hiByte (w : Word) : word (loByte w) (hiByte w) = w := by
  apply BitVec.eq_of_getLsbD_eq
  intro i hi
  by_cases h : i < 8
  · simp [word, loByte, hiByte, zext16, hi, h]
  · simp [word, loByte, hiByte, zext16, hi, h, show i - 8 < 8 by omega, show 8 + (i - 8) = i by omega]

@[simp] theorem loByte_word (lo hi : Byte) : loByte (word lo hi) = lo := by
  apply BitVec.eq_of_getLsbD_eq
  intro i h
  simp [word, loByte, zext16, h]

@[simp] theorem hiByte_word (lo hi : Byte) : hiByte (word lo hi) = hi := by
  apply BitVec.eq_of_getLsbD_eq
  intro i h
  simp [word, hiByte, zext16, h, show 8 + i < 16 by omega]

/-- A word as a number: the low byte at the lower weight. -/
theorem word_toNat (lo hi : Byte) : (word lo hi).toNat = lo.toNat + 0x100 * hi.toNat := by
  have hlo := lo.isLt
  have hhi := hi.isLt
  have h : (zext16 hi <<< 8).toNat = hi.toNat <<< 8 := by
    simp [zext16, BitVec.toNat_shiftLeft, Nat.shiftLeft_eq]
    omega
  rw [word, BitVec.toNat_or, h, Nat.or_comm, ← Nat.shiftLeft_add_eq_or_of_lt (by simp [zext16]; omega)]
  simp [zext16, Nat.shiftLeft_eq]
  omega

theorem word_eq_ofNat (lo hi : Byte) : word lo hi = BitVec.ofNat 16 (lo.toNat + 0x100 * hi.toNat) := by
  rw [← word_toNat, BitVec.ofNat_toNat, BitVec.setWidth_eq]

theorem loByte_eq_ofNat (w : Word) : loByte w = BitVec.ofNat 8 (w.toNat % 0x100) := by
  apply BitVec.eq_of_toNat_eq
  simp [loByte]

theorem hiByte_eq_ofNat (w : Word) : hiByte w = BitVec.ofNat 8 (w.toNat / 0x100) := by
  apply BitVec.eq_of_toNat_eq
  simp [hiByte, Nat.shiftRight_eq_div_pow]

end Sys2Proof.Machine
end

