-- ==== Sys2Proof/Laws/Exec.lean ====
section
/-!
SUPPORT. What each instruction can do, said once: `exec` answers a next state exactly when `Effect` holds of it. A claim
about every instruction takes cases on the instruction and this lemma, and unfolds no meaning.
-/

namespace Sys2Proof.Machine

open Sys2Proof

/-- The state a read-modify-write leaves, before its flags: A or one byte of memory (R74, R97). -/
def ModifyEffect (m : Operand) (s t : State) (result : Byte → State → Byte) (flags : Byte → Byte → State → State) :
    Prop :=
  (m = .accumulator ∧ t = flags s.a (result s.a (s.past m)) ((s.past m).setA (result s.a (s.past m)))) ∨
  ∃ ea, (resolve m s).ea = some ea ∧
    t = flags (s.read ea) (result (s.read ea) (s.past m)) ((s.past m).write ea (result (s.read ea) (s.past m)))

/-- A value is there, and the next state is that of the body. -/
def ValueEffect (m : Operand) (s t : State) (body : Byte → State → State) : Prop :=
  ∃ v, (resolve m s).value = some v ∧ t = body v (s.past m)

/-- An address is there, and the next state is that of the body. -/
def AddressEffect (r : Resolved) (t : State) (body : Word → State → State) : Prop :=
  ∃ ea, r.ea = some ea ∧ t = body ea r.after

/-- The state taking the trap leaves when its three pushes fit (R163, R187). -/
def trapped (returnAddress : Word) (s : State) : State :=
  let s := (s.setFlag .i true).setFlag .b true
  let s := pushed s.p (pushed (loByte returnAddress) (pushed (hiByte returnAddress) s))
  s.setPc s.breakVector

/-- The effect of each instruction when it answers a next state. -/
def Effect : Instr → State → State → Prop
  | .lda m, s, t => ValueEffect m s t fun v s => (s.setA v).setNZ v
  | .ldx m, s, t => ValueEffect m s t fun v s => (s.setX v).setNZ v
  | .ldy m, s, t => ValueEffect m s t fun v s => (s.setY v).setNZ v
  | .sta m, s, t => AddressEffect (resolve m s) t fun ea s => s.write ea s.a
  | .stx m, s, t => AddressEffect (resolve m s) t fun ea s => s.write ea s.x
  | .sty m, s, t => AddressEffect (resolve m s) t fun ea s => s.write ea s.y
  | .tax m, s, t => t = ((s.past m).setX s.a).setNZ s.a
  | .tay m, s, t => t = ((s.past m).setY s.a).setNZ s.a
  | .txa m, s, t => t = ((s.past m).setA s.x).setNZ s.x
  | .tya m, s, t => t = ((s.past m).setA s.y).setNZ s.y
  | .tsx m, s, t => t = ((s.past m).setX s.sp).setNZ s.sp
  | .txs m, s, t => t = ((s.past m).setSp s.x).setStackWrapped false
  | .pha m, s, t => s.stackWrapped = false ∧ t = pushed s.a (s.past m)
  | .php m, s, t => s.stackWrapped = false ∧ t = pushed s.p (s.past m)
  | .pla m, s, t => CanPop s ∧ t = ((popped (s.past m)).setA (poppedByte s)).setNZ (poppedByte s)
  | .plp m, s, t => CanPop s ∧ t = (((popped (s.past m)).setP (poppedByte s)).setFlag .e true).setFlag .b false
  | .and m, s, t => ValueEffect m s t fun v s => s.setResult (s.a &&& v)
  | .ora m, s, t => ValueEffect m s t fun v s => s.setResult (s.a ||| v)
  | .eor m, s, t => ValueEffect m s t fun v s => s.setResult (s.a ^^^ v)
  | .bit m, s, t =>
    ValueEffect m s t fun v s => ((s.setFlag .z (s.a &&& v == 0x00)).setFlag .n (v.getLsbD 7)).setFlag .v (v.getLsbD 6)
  | .cmp m, s, t => ValueEffect m.operand s t fun v s => compareFlags m.variant s.a v s
  | .cpx m, s, t => ValueEffect m.operand s t fun v s => compareFlags m.variant s.x v s
  | .cpy m, s, t => ValueEffect m.operand s t fun v s => compareFlags m.variant s.y v s
  | .inc m, s, t => ModifyEffect m s t (fun v _ => v + 1) (fun _ r s => s.setNZ r)
  | .dec m, s, t => ModifyEffect m s t (fun v _ => v - 1) (fun _ r s => s.setNZ r)
  | .inx m, s, t => t = ((s.past m).setX (s.x + 1)).setNZ (s.x + 1)
  | .iny m, s, t => t = ((s.past m).setY (s.y + 1)).setNZ (s.y + 1)
  | .dex m, s, t => t = ((s.past m).setX (s.x - 1)).setNZ (s.x - 1)
  | .dey m, s, t => t = ((s.past m).setY (s.y - 1)).setNZ (s.y - 1)
  | .asl m, s, t => ModifyEffect m s t (fun v _ => v <<< 1) (fun v r s => (s.setFlag .c (v.getLsbD 7)).setNZ r)
  | .lsr m, s, t =>
    ModifyEffect m s t (fun v _ => v >>> 1) (fun v r s =>
      ((s.setFlag .c (v.getLsbD 0)).setFlag .n false).setFlag .z (r == 0x00))
  | .rol m, s, t =>
    ModifyEffect m s t (fun v s => v <<< 1 ||| flagAt (s.flag .c) 0) (fun v r s => (s.setFlag .c (v.getLsbD 7)).setNZ r)
  | .ror m, s, t =>
    ModifyEffect m.operand s t (fun v s => v >>> 1 ||| flagAt (s.flag .c) 7) (fun v r s =>
      (if m.variant then s else s.setFlag .c (v.getLsbD 0)).setNZ r)
  | .adc m, s, t => ValueEffect m.operand s t fun v s => s.addValue m.variant v
  | .sbc m, s, t => ValueEffect m.operand s t fun v s => s.subtractValue m.variant.1 m.variant.2 v
  | .bcc m, s, t => AddressEffect (resolve m s) t fun ea s => if s.flag .c == false then s.setPc ea else s
  | .bcs m, s, t => AddressEffect (resolve m s) t fun ea s => if s.flag .c == true then s.setPc ea else s
  | .beq m, s, t => AddressEffect (resolve m s) t fun ea s => if s.flag .z == true then s.setPc ea else s
  | .bne m, s, t => AddressEffect (resolve m s) t fun ea s => if s.flag .z == false then s.setPc ea else s
  | .bmi m, s, t => AddressEffect (resolve m s) t fun ea s => if s.flag .n == true then s.setPc ea else s
  | .bpl m, s, t => AddressEffect (resolve m s) t fun ea s => if s.flag .n == false then s.setPc ea else s
  | .bvc m, s, t => AddressEffect (resolve m s) t fun ea s => if s.flag .v == false then s.setPc ea else s
  | .bvs m, s, t => AddressEffect (resolve m s) t fun ea s => if s.flag .v == true then s.setPc ea else s
  | .jmp m, s, t => AddressEffect (resolve m s) t fun ea s => s.setPc ea
  | .jsr m, s, t => s.stackWrapped = false ∧ s.sp ≠ 0x00 ∧
    AddressEffect (resolve m s) t fun ea s => (pushed (loByte s.pc) (pushed (hiByte s.pc) s)).setPc ea
  | .rts m, s, t => CanPop s ∧ s.sp ≠ 0xFE ∧
    t = (popped (popped (s.past m))).setPc (word (poppedByte s) (poppedByte (popped s)))
  | .brk m, s, t => s.stackWrapped = false ∧ s.sp ≠ 0x00 ∧ s.sp ≠ 0x01 ∧ t = trapped (s.lastOpcodeAddress + 2) (s.past m)
  | .rti m, s, t => CanPop s ∧ s.sp ≠ 0xFE ∧ s.sp ≠ 0xFD ∧
    t = ((((popped (popped (popped (s.past m)))).setP (poppedByte s)).setPc
      (word (poppedByte (popped s)) (poppedByte (popped (popped s))))).setFlag .i false)
  | .nop m, s, t => t = s.past m
  | .clc m, s, t => t = (s.past m).setFlag .c false
  | .sec m, s, t => t = (s.past m).setFlag .c true
  | .cld m, s, t => t = (s.past m).setFlag .d false
  | .sed m, s, t => t = (s.past m).setFlag .d true
  | .cli m, s, t => t = (s.past m).setFlag .i false
  | .sei m, s, t => t = (s.past m).setFlag .i true
  | .clv m, s, t => t = (s.past m).setFlag .v false

/-! ## The lemma -/

theorem next_inj {s t : State} : (Host.Outcome.next s : Host.Outcome State Fault Refusal) = .next t ↔ t = s :=
  ⟨fun h => by cases h; rfl, fun h => by rw [h]⟩

theorem withValue_next_iff {m : Operand} {s t : State} {body : Byte → State → State} :
    (withValue (resolve m s) fun v s => .next (body v s)) = .next t ↔ ValueEffect m s t body := by
  constructor
  · intro h
    obtain ⟨v, hv, hb⟩ := withValue_next h
    exact ⟨v, hv, next_inj.mp hb⟩
  · rintro ⟨v, hv, rfl⟩
    rw [withValue_some hv, resolve_after]

theorem withAddress_next_iff {r : Resolved} {t : State} {body : Word → State → State} :
    (withAddress r fun ea s => .next (body ea s)) = .next t ↔ AddressEffect r t body := by
  constructor
  · intro h
    obtain ⟨v, hv, hb⟩ := withAddress_next h
    exact ⟨v, hv, next_inj.mp hb⟩
  · rintro ⟨v, hv, rfl⟩
    rw [withAddress_some hv]

theorem modify_next_iff {m : Operand} {s t : State} {result : Byte → State → Byte}
    {flags : Byte → Byte → State → State} :
    modify m s result flags = .next t ↔ ModifyEffect m s t result flags := by
  constructor
  · exact modify_next
  · rintro (⟨rfl, rfl⟩ | ⟨ea, hea, rfl⟩)
    · rw [modify_accumulator]
    · rw [modify_memory hea]

theorem finish_next_iff {r : Except Fault State} {t : State} : finish r = .next t ↔ r = .ok t := by
  cases r <;> simp [finish]

theorem takeBreak_eq_ok_iff {w : Word} {s t : State} :
    takeBreak w s = .ok t ↔ s.stackWrapped = false ∧ s.sp ≠ 0x00 ∧ s.sp ≠ 0x01 ∧ t = trapped w s := by
  have h1 : s.sp - 1 = 0x00 ↔ s.sp = 0x01 := by constructor <;> intro h <;> bv_omega
  rw [takeBreak]
  cases hp : pushAddress w ((s.setFlag .i true).setFlag .b true) with
  | error f =>
    simp only [reduceCtorEq, false_iff]
    rintro ⟨hw, h0, -⟩
    cases (pushAddress_eq_ok_iff (s := (s.setFlag .i true).setFlag .b true).mpr ⟨hw, h0, rfl⟩).symm.trans hp
  | ok u =>
    obtain ⟨hw, h0, rfl⟩ := pushAddress_eq_ok_iff.mp hp
    simp only [State.stackWrapped_setFlag, State.sp_setFlag, ne_eq] at hw h0
    simp only [push_eq, stackWrapped_pushed, sp_pushed, State.sp_setFlag, beq_iff_eq, h1]
    by_cases h : s.sp = 0x01
    · simp [h]
    · simp only [h, if_false, Except.ok.injEq, hw, h0, true_and, not_false_eq_true, ne_eq]
      exact eq_comm

theorem returnFromBreak_eq_ok_iff {s t : State} :
    returnFromBreak s = .ok t ↔ CanPop s ∧ s.sp ≠ 0xFE ∧ s.sp ≠ 0xFD ∧
      t = ((((popped (popped (popped s))).setP (poppedByte s)).setPc
        (word (poppedByte (popped s)) (poppedByte (popped (popped s))))).setFlag .i false) := by
  have hfd : ((popped s).setP (poppedByte s)).sp ≠ 0xFE ↔ s.sp ≠ 0xFD := by
    rw [State.sp_setP, sp_popped, not_iff_not]
    constructor <;> intro h <;> bv_omega
  have hcp : CanPop ((popped s).setP (poppedByte s)) ↔ s.sp ≠ 0xFE := canPop_popped
  rw [returnFromBreak]
  by_cases hc : CanPop s
  · rw [pop_ok hc]
    cases hp : popAddress ((popped s).setP (poppedByte s)) with
    | error f =>
      simp only [hp, reduceCtorEq, false_iff]
      rintro ⟨-, hfe, hd, -⟩
      cases (popAddress_eq_ok_iff.mpr ⟨hcp.mpr hfe, hfd.mpr hd, rfl⟩).symm.trans hp
    | ok r =>
      obtain ⟨hc', hd, rfl⟩ := popAddress_eq_ok_iff.mp hp
      simp only [hp, Except.ok.injEq, hc, hcp.mp hc', hfd.mp hd, true_and, not_false_eq_true, ne_eq]
      exact eq_comm
  · obtain ⟨h1, h2⟩ := not_canPop.mp hc
    simp [pop_error h1 h2, hc]

/-- Everything an instruction that answers a next state did, and when it does. -/
theorem exec_next_iff {i : Instr} {s t : State} : exec i s = .next t ↔ Effect i s t := by
  cases i with
  | lda m | ldx m | ldy m => simp only [exec, execLda, execLdx, execLdy, load]; exact withValue_next_iff
  | and m | ora m | eor m | bit m => simp only [exec, execAnd, execOra, execEor, execBit]; exact withValue_next_iff
  | cmp m | cpx m | cpy m => simp only [exec, execCmp, execCpx, execCpy]; exact withValue_next_iff
  | adc m | sbc m => simp only [exec, execAdc, execSbc]; exact withValue_next_iff
  | sta m | stx m | sty m => simp only [exec, execSta, execStx, execSty, store]; exact withAddress_next_iff
  | bcc m | bcs m | beq m | bne m => simp only [exec, execBcc, execBcs, execBeq, execBne, branch]; exact withAddress_next_iff
  | bmi m | bpl m | bvc m | bvs m => simp only [exec, execBmi, execBpl, execBvc, execBvs, branch]; exact withAddress_next_iff
  | jmp m => simp only [exec, execJmp]; exact withAddress_next_iff
  | tax m | tay m | txa m | tya m | tsx m | txs m | inx m | iny m | dex m | dey m | nop m | clc m | sec m | cld m | sed m | cli m | sei m | clv m => exact next_inj
  | inc m | dec m => simp only [exec, execInc, execDec]; exact modify_next_iff
  | asl m | lsr m | rol m | ror m => simp only [exec, execAsl, execLsr, execRol, execRor]; exact modify_next_iff
  | pha m | php m => exact finish_next_iff.trans push_eq_ok_iff
  | pla m | plp m =>
    simp only [exec, execPla, execPlp, withNothing, resolve_after]
    by_cases hc : CanPop (s.past m)
    · rw [pop_ok hc]
      exact next_inj.trans ⟨fun h => ⟨hc, h⟩, And.right⟩
    · obtain ⟨h1, h2⟩ := not_canPop.mp hc
      rw [pop_error h1 h2]
      exact ⟨nofun, fun h => absurd h.1 hc⟩
  | rts m =>
    simp only [exec, execRts, withNothing, resolve_after]
    cases hp : popAddress (s.past m) with
    | error f =>
      refine ⟨nofun, fun ⟨hc, h, _⟩ => ?_⟩
      cases (popAddress_eq_ok_iff (s := s.past m).mpr ⟨hc, h, rfl⟩).symm.trans hp
    | ok r =>
      obtain ⟨hc, h, rfl⟩ := popAddress_eq_ok_iff.mp hp
      exact next_inj.trans ⟨fun e => ⟨hc, h, e⟩, fun e => e.2.2⟩
  | jsr m =>
    simp only [exec, execJsr]
    constructor
    · intro h
      obtain ⟨ea, hea, hb⟩ := withAddress_next h
      split at hb
      next => cases hb
      next u hu =>
        obtain ⟨hw, h0, rfl⟩ := pushAddress_eq_ok_iff.mp hu
        exact ⟨hw, h0, ea, hea, next_inj.mp hb⟩
    · rintro ⟨hw, h0, ea, hea, rfl⟩
      rw [withAddress_some hea, resolve_after, pushAddress_eq_ok_iff (s := s.past m).mpr ⟨hw, h0, rfl⟩]
  | brk m => exact finish_next_iff.trans takeBreak_eq_ok_iff
  | rti m => exact finish_next_iff.trans returnFromBreak_eq_ok_iff

end Sys2Proof.Machine
end

