-- ==== Sys2Proof/Laws/HostCalls.lean ====
section
/-!
SUPPORT. What the host's calls can do (60_exceptions.md R197), each said once.
-/

namespace Sys2Proof.Machine

open Sys2Proof

theorem inMemory_natCast {n : Nat} : inMemory n = decide (n < 0x10000) := by
  simp [inMemory]

theorem inMemory_eq_false {addr : Int} : inMemory addr = false ↔ addr < 0 ∨ 0x10000 ≤ addr := by
  simp only [inMemory, Bool.and_eq_false_iff, decide_eq_false_iff_not]
  omega

/-- A host write in range (R51). -/
theorem hostWrite_ok {s : State} {n : Nat} {v : Byte} (h : n < 0x10000) :
    hostWrite s n v = .ok { s with mem := s.mem.write n v } := by
  rw [hostWrite, if_pos (by simpa [inMemory_natCast] using h)]
  rfl

/-- A host access out of range (R51, R176). -/
theorem hostWrite_error {s : State} {addr : Int} {v : Byte} (h : addr < 0 ∨ 0x10000 ≤ addr) :
    hostWrite s addr v = .error (.memoryOutOfRange addr s) := by
  rw [hostWrite, if_neg (by simp [inMemory_eq_false.mpr h])]

/-- A host write that answers is in range and changes one byte. -/
theorem hostWrite_eq_ok {s t : State} {addr : Int} {v : Byte} (h : hostWrite s addr v = .ok t) :
    ∃ n : Nat, addr = n ∧ n < 0x10000 ∧ t = { s with mem := s.mem.write n v } := by
  by_cases ha : addr < 0 ∨ 0x10000 ≤ addr
  · rw [hostWrite_error ha] at h
    cases h
  · obtain ⟨n, rfl⟩ := Int.eq_ofNat_of_zero_le (show 0 ≤ addr by omega)
    have hn : n < 0x10000 := by omega
    rw [hostWrite_ok hn] at h
    exact ⟨n, rfl, hn, (Except.ok.inj h).symm⟩

/-- A host read in range (R50). -/
theorem hostRead_ok {s : State} {n : Nat} (h : n < 0x10000) : hostRead s n = .ok (s.mem.read n) := by
  rw [hostRead, if_pos (by simpa [inMemory_natCast] using h)]
  rfl

theorem hostRead_error {s : State} {addr : Int} (h : addr < 0 ∨ 0x10000 ≤ addr) :
    hostRead s addr = .error (.memoryOutOfRange addr s) := by
  rw [hostRead, if_neg (by simp [inMemory_eq_false.mpr h])]

/-- One byte of a program load (R69). -/
theorem loadProgram_cons {s : State} {offset : Nat} {b : Byte} {rest : List Byte} (h : offset < 0x10000) :
    loadProgram s offset (b :: rest) = loadProgram { s with mem := s.mem.write offset b } (offset + 1) rest := by
  simp only [loadProgram, hostWrite_ok h]

/-- A load from past the end of memory faults at its first byte (R69, R176). -/
theorem loadProgram_outside {s : State} {offset : Nat} {b : Byte} {rest : List Byte} (h : 0x10000 ≤ offset) :
    loadProgram s offset (b :: rest) = .error (.memoryOutOfRange offset s) := by
  simp only [loadProgram, hostWrite_error (.inr (Int.ofNat_le.mpr h))]

/-- The set of R46 gains the inserted address and keeps the others. -/
theorem mem_insertAddress {addr b : Word} {l : List Word} : b ∈ insertAddress addr l ↔ b = addr ∨ b ∈ l := by
  induction l with
  | nil => simp [insertAddress]
  | cons c rest ih =>
    rw [insertAddress]
    split
    · exact List.mem_cons
    · split
      next h => simp [h]
      next => rw [List.mem_cons, ih, List.mem_cons, or_left_comm]

/-- Reset leaves memory and the breakpoints (R208) and clears `stack_wrapped` (R204). -/
theorem hostReset_keeps (c : Config) (s : State) :
    (hostReset c s).mem = s.mem ∧ (hostReset c s).breakpoints = s.breakpoints ∧ (hostReset c s).stackWrapped = false := by
  cases h : c.housekeeping <;> simp [hostReset, State.doHousekeeping, h]

end Sys2Proof.Machine
end

