-- ==== Sys2Proof/Laws/Invariant.lean ====
section
/-!
SUPPORT. The shared operations keep the invariant of Safety.lean: it reads four fields, so an operation that leaves them
keeps it, and the three that do not (a write, a push, a pop) keep it by their own lemma.
-/

namespace Sys2Proof.Machine

open Sys2Proof

/-- The invariant, part by part. -/
theorem stateInv_iff {s : State} :
    StateInv s ↔ s.mem.wf = true ∧ risingWords s.breakpoints = true ∧ (s.stackWrapped = true → s.sp = 0xFF) := by
  rw [StateInv, State.inv, Bool.and_eq_true, Bool.and_eq_true, and_assoc]
  cases s.stackWrapped <;> simp

/-- The invariant reads memory, the breakpoints, `stack_wrapped` and S alone. -/
theorem stateInv_congr {s t : State} (hm : t.mem = s.mem) (hb : t.breakpoints = s.breakpoints)
    (hw : t.stackWrapped = s.stackWrapped) (hs : t.sp = s.sp) : StateInv t ↔ StateInv s := by
  rw [stateInv_iff, stateInv_iff, hm, hb, hw, hs]

variable {s : State}

theorem stateInv_past {m : Operand} : StateInv (s.past m) ↔ StateInv s := stateInv_congr rfl rfl rfl rfl
theorem stateInv_setA {v : Byte} : StateInv (s.setA v) ↔ StateInv s := stateInv_congr rfl rfl rfl rfl
theorem stateInv_setX {v : Byte} : StateInv (s.setX v) ↔ StateInv s := stateInv_congr rfl rfl rfl rfl
theorem stateInv_setY {v : Byte} : StateInv (s.setY v) ↔ StateInv s := stateInv_congr rfl rfl rfl rfl
theorem stateInv_setP {v : Byte} : StateInv (s.setP v) ↔ StateInv s := stateInv_congr rfl rfl rfl rfl
theorem stateInv_setPc {v : Word} : StateInv (s.setPc v) ↔ StateInv s := stateInv_congr rfl rfl rfl rfl
theorem stateInv_setFlag {f : Flag} {on : Bool} : StateInv (s.setFlag f on) ↔ StateInv s :=
  stateInv_congr rfl rfl rfl rfl
theorem stateInv_setNZ {v : Byte} : StateInv (s.setNZ v) ↔ StateInv s := stateInv_congr rfl rfl rfl rfl

/-- A write keeps memory canonical (R49). -/
theorem stateInv_write {a : Word} {v : Byte} (h : StateInv s) : StateInv (s.write a v) := by
  obtain ⟨hm, hb, hw⟩ := stateInv_iff.mp h
  exact stateInv_iff.mpr ⟨State.wf_write s a v hm, hb, hw⟩

/-- A push sets `stack_wrapped` only where S becomes 0xFF (R42, R64). -/
theorem stateInv_pushed {b : Byte} (h : StateInv s) : StateInv (pushed b s) := by
  obtain ⟨hm, hb, -⟩ := stateInv_iff.mp h
  refine stateInv_iff.mpr ⟨State.wf_write s s.stackAddress b hm, hb, fun hw => ?_⟩
  have : s.sp = 0x00 := by simpa using hw
  simp [this]

/-- A pop clears `stack_wrapped` (R65). -/
theorem stateInv_popped (h : StateInv s) : StateInv (popped s) := by
  obtain ⟨hm, hb, -⟩ := stateInv_iff.mp h
  exact stateInv_iff.mpr ⟨hm, hb, nofun⟩

end Sys2Proof.Machine
end

