-- ==== Sys2Proof/Laws/PerInstr.lean ====
section
/-!
SUPPORT. The statements made for each instruction: a well-formed one encodes to as many bytes as its mode has (R72).
-/

namespace Sys2Proof.Laws

open Sys2Proof

/-- A well-formed instruction is encoded, in as many bytes as R72 gives its mode. -/
def EncodedLength.Statement (i : Instr) : Prop := WellFormed i → (encode i).length = i.length

/-- The statement holds of a kind whose opcodes are those of its modes, in any operand form. -/
theorem encodedLength_of_kind (i : Instr) : EncodedLength.Statement i := by
  intro h
  have hop : (i.kind.opcode i.operand.mode).isSome = true := by
    rw [WellFormed, Instr.wf, Kind.modes_eq_opcodes] at h
    rw [Kind.opcode, List.lookup_isSome_iff]
    simp only [List.contains_iff_mem, List.mem_map] at h
    obtain ⟨p, hp, he⟩ := h
    exact ⟨p, hp, by simp [he]⟩
  obtain ⟨op, hop⟩ := Option.isSome_iff_exists.mp hop
  rw [encode, hop, Instr.length, ← Operand.length_bytes]
  rfl

theorem EncodedLength.lda (m : Operand) : EncodedLength.Statement (.lda m) := encodedLength_of_kind _
theorem EncodedLength.ldx (m : Operand) : EncodedLength.Statement (.ldx m) := encodedLength_of_kind _
theorem EncodedLength.ldy (m : Operand) : EncodedLength.Statement (.ldy m) := encodedLength_of_kind _
theorem EncodedLength.sta (m : Operand) : EncodedLength.Statement (.sta m) := encodedLength_of_kind _
theorem EncodedLength.stx (m : Operand) : EncodedLength.Statement (.stx m) := encodedLength_of_kind _
theorem EncodedLength.sty (m : Operand) : EncodedLength.Statement (.sty m) := encodedLength_of_kind _
theorem EncodedLength.tax (m : Operand) : EncodedLength.Statement (.tax m) := encodedLength_of_kind _
theorem EncodedLength.tay (m : Operand) : EncodedLength.Statement (.tay m) := encodedLength_of_kind _
theorem EncodedLength.txa (m : Operand) : EncodedLength.Statement (.txa m) := encodedLength_of_kind _
theorem EncodedLength.tya (m : Operand) : EncodedLength.Statement (.tya m) := encodedLength_of_kind _
theorem EncodedLength.tsx (m : Operand) : EncodedLength.Statement (.tsx m) := encodedLength_of_kind _
theorem EncodedLength.txs (m : Operand) : EncodedLength.Statement (.txs m) := encodedLength_of_kind _
theorem EncodedLength.pha (m : Operand) : EncodedLength.Statement (.pha m) := encodedLength_of_kind _
theorem EncodedLength.php (m : Operand) : EncodedLength.Statement (.php m) := encodedLength_of_kind _
theorem EncodedLength.pla (m : Operand) : EncodedLength.Statement (.pla m) := encodedLength_of_kind _
theorem EncodedLength.plp (m : Operand) : EncodedLength.Statement (.plp m) := encodedLength_of_kind _
theorem EncodedLength.and (m : Operand) : EncodedLength.Statement (.and m) := encodedLength_of_kind _
theorem EncodedLength.ora (m : Operand) : EncodedLength.Statement (.ora m) := encodedLength_of_kind _
theorem EncodedLength.eor (m : Operand) : EncodedLength.Statement (.eor m) := encodedLength_of_kind _
theorem EncodedLength.bit (m : Operand) : EncodedLength.Statement (.bit m) := encodedLength_of_kind _
theorem EncodedLength.cmp (m : Picked CmpCarryRule) : EncodedLength.Statement (.cmp m) := encodedLength_of_kind _
theorem EncodedLength.cpx (m : Picked CmpCarryRule) : EncodedLength.Statement (.cpx m) := encodedLength_of_kind _
theorem EncodedLength.cpy (m : Picked CmpCarryRule) : EncodedLength.Statement (.cpy m) := encodedLength_of_kind _
theorem EncodedLength.inc (m : Operand) : EncodedLength.Statement (.inc m) := encodedLength_of_kind _
theorem EncodedLength.dec (m : Operand) : EncodedLength.Statement (.dec m) := encodedLength_of_kind _
theorem EncodedLength.inx (m : Operand) : EncodedLength.Statement (.inx m) := encodedLength_of_kind _
theorem EncodedLength.iny (m : Operand) : EncodedLength.Statement (.iny m) := encodedLength_of_kind _
theorem EncodedLength.dex (m : Operand) : EncodedLength.Statement (.dex m) := encodedLength_of_kind _
theorem EncodedLength.dey (m : Operand) : EncodedLength.Statement (.dey m) := encodedLength_of_kind _
theorem EncodedLength.asl (m : Operand) : EncodedLength.Statement (.asl m) := encodedLength_of_kind _
theorem EncodedLength.lsr (m : Operand) : EncodedLength.Statement (.lsr m) := encodedLength_of_kind _
theorem EncodedLength.rol (m : Operand) : EncodedLength.Statement (.rol m) := encodedLength_of_kind _
theorem EncodedLength.ror (m : Picked Bool) : EncodedLength.Statement (.ror m) := encodedLength_of_kind _
theorem EncodedLength.adc (m : Picked ChipGeneration) : EncodedLength.Statement (.adc m) := encodedLength_of_kind _
theorem EncodedLength.sbc (m : Picked (ChipGeneration × CmosDecSbcCv)) : EncodedLength.Statement (.sbc m) :=
  encodedLength_of_kind _
theorem EncodedLength.bcc (m : Operand) : EncodedLength.Statement (.bcc m) := encodedLength_of_kind _
theorem EncodedLength.bcs (m : Operand) : EncodedLength.Statement (.bcs m) := encodedLength_of_kind _
theorem EncodedLength.beq (m : Operand) : EncodedLength.Statement (.beq m) := encodedLength_of_kind _
theorem EncodedLength.bne (m : Operand) : EncodedLength.Statement (.bne m) := encodedLength_of_kind _
theorem EncodedLength.bmi (m : Operand) : EncodedLength.Statement (.bmi m) := encodedLength_of_kind _
theorem EncodedLength.bpl (m : Operand) : EncodedLength.Statement (.bpl m) := encodedLength_of_kind _
theorem EncodedLength.bvc (m : Operand) : EncodedLength.Statement (.bvc m) := encodedLength_of_kind _
theorem EncodedLength.bvs (m : Operand) : EncodedLength.Statement (.bvs m) := encodedLength_of_kind _
theorem EncodedLength.jmp (m : Operand) : EncodedLength.Statement (.jmp m) := encodedLength_of_kind _
theorem EncodedLength.jsr (m : Operand) : EncodedLength.Statement (.jsr m) := encodedLength_of_kind _
theorem EncodedLength.rts (m : Operand) : EncodedLength.Statement (.rts m) := encodedLength_of_kind _
theorem EncodedLength.brk (m : Operand) : EncodedLength.Statement (.brk m) := encodedLength_of_kind _
theorem EncodedLength.rti (m : Operand) : EncodedLength.Statement (.rti m) := encodedLength_of_kind _
theorem EncodedLength.nop (m : Operand) : EncodedLength.Statement (.nop m) := encodedLength_of_kind _
theorem EncodedLength.clc (m : Operand) : EncodedLength.Statement (.clc m) := encodedLength_of_kind _
theorem EncodedLength.sec (m : Operand) : EncodedLength.Statement (.sec m) := encodedLength_of_kind _
theorem EncodedLength.cld (m : Operand) : EncodedLength.Statement (.cld m) := encodedLength_of_kind _
theorem EncodedLength.sed (m : Operand) : EncodedLength.Statement (.sed m) := encodedLength_of_kind _
theorem EncodedLength.cli (m : Operand) : EncodedLength.Statement (.cli m) := encodedLength_of_kind _
theorem EncodedLength.sei (m : Operand) : EncodedLength.Statement (.sei m) := encodedLength_of_kind _
theorem EncodedLength.clv (m : Operand) : EncodedLength.Statement (.clv m) := encodedLength_of_kind _

end Sys2Proof.Laws
end

