-- ==== Sys2Proof/Laws/Step.lean ====
section
/-!
SUPPORT. What a step can do (30_encoding.md R90 to R98), said once.
-/

namespace Sys2Proof.Machine

open Sys2Proof

theorem limitReached_eq_true {limit : Option Nat} {n : Nat} :
    limitReached limit n = true ↔ ∃ l, limit = some l ∧ l ≤ n := by
  cases limit <;> simp [limitReached]

theorem limitReached_eq_false {limit : Option Nat} {n : Nat} :
    limitReached limit n = false ↔ ∀ l, limit = some l → n < l := by
  cases limit <;> simp [limitReached]

/-- Nothing stops the step before its fetch exactly when neither check of R90 and R92 applies. -/
theorem fetches_iff {c : Config} {s : State} : Fetches c s ↔ s.atLoadLimit c = false ∧ s.atBreakpoint = false := by
  rw [Fetches, State.atLoadLimit, limitReached_eq_false, State.atBreakpoint]
  cases s.bpGuard <;> simp

theorem stepWith_atLoadLimit {c : Config} {table : OpcodeTable} {s : State} (h : s.atLoadLimit c = true) :
    stepWith c table s = .next (s.stopRun .stopped) := by
  rw [stepWith, if_pos h]

theorem stepWith_atBreakpoint {c : Config} {table : OpcodeTable} {s : State} (hl : s.atLoadLimit c = false)
    (hb : s.atBreakpoint = true) : stepWith c table s = .next s.stopAtBreakpoint := by
  rw [stepWith, if_neg (by simp [hl]), if_pos hb]

theorem stepWith_fetches {c : Config} {table : OpcodeTable} {s : State} (h : Fetches c s) :
    stepWith c table s =
      match decodeWith c table s.bytesAtPc with
      | .error _ => .fault (undocumentedFault s.fetchOpcode)
      | .ok (i, _) =>
        match exec i s.fetchOpcode with
        | .next t => .next (t.complete c)
        | .fault f => .fault f
        | .refused r => .refused r := by
  obtain ⟨hl, hb⟩ := fetches_iff.mp h
  have h1 : ¬ s.atLoadLimit c = true := by simp [hl]
  have h2 : ¬ s.atBreakpoint = true := by simp [hb]
  exact (if_neg h1).trans (if_neg h2)

/-- Everything a step that answers a next state did: it stopped at the load limit, it stopped at a breakpoint, or it
ran an instruction to completion. -/
theorem stepWith_next_cases {c : Config} {table : OpcodeTable} {s t : State} (h : stepWith c table s = .next t) :
    (s.atLoadLimit c = true ∧ t = s.stopRun .stopped) ∨
    (s.atLoadLimit c = false ∧ s.atBreakpoint = true ∧ t = s.stopAtBreakpoint) ∨
    (Fetches c s ∧ ∃ i rest u, decodeWith c table s.bytesAtPc = .ok (i, rest) ∧ exec i s.fetchOpcode = .next u ∧
      t = u.complete c) := by
  by_cases hf : Fetches c s
  · rw [stepWith_fetches hf] at h
    refine .inr (.inr ⟨hf, ?_⟩)
    split at h
    next => cases h
    next i rest hd =>
      split at h
      next u hu => exact ⟨i, rest, u, hd, hu, by cases h; rfl⟩
      next => cases h
      next => cases h
  · rw [fetches_iff] at hf
    cases hl : s.atLoadLimit c
    · have hb : s.atBreakpoint = true := by simpa [hl] using hf
      rw [stepWith_atBreakpoint hl hb] at h
      exact .inr (.inl ⟨rfl, hb, by cases h; rfl⟩)
    · rw [stepWith_atLoadLimit hl] at h
      exact .inl ⟨rfl, by cases h; rfl⟩

/-- Completion changes the executed count, `run_state` and the report, and nothing else (R98). -/
theorem complete_eq (c : Config) (t : State) :
    t.complete c = { t with
      numExecuted := t.numExecuted + 1, runState := (t.complete c).runState, outcome := (t.complete c).outcome } := by
  simp only [State.complete]
  split <;> rfl

/-- Under the default table an opcode byte's three bytes decode, or the byte has no entry (R94). -/
theorem decodeWith_bytesAtPc (c : Config) (table : OpcodeTable) (s : State) :
    (table (s.read s.pc) = none ∧ decodeWith c table s.bytesAtPc = .error (.undocumented (s.read s.pc))) ∨
    ∃ kind mode operand rest, table (s.read s.pc) = some (kind, mode) ∧ operand.mode = mode ∧
      decodeWith c table s.bytesAtPc = .ok (kind.instr c operand, rest) := by
  rw [State.bytesAtPc, decodeWith_cons]
  cases ht : table (s.read s.pc) with
  | none => exact .inl ⟨rfl, rfl⟩
  | some entry =>
    obtain ⟨kind, mode⟩ := entry
    obtain ⟨⟨operand, rest⟩, hd⟩ :=
      Option.isSome_iff_exists.mp (decodeOperand_isSome mode (s.read (s.pc + 1)) (s.read (s.pc + 2)) [])
    exact .inr ⟨kind, mode, operand, rest, rfl, mode_of_decodeOperand hd, by simp only [hd]⟩

end Sys2Proof.Machine
end

