-- ==== Sys2Proof/Tests/Slice0.lean ====
section
/-!
SUPPORT. Tests. A test of an instruction is one step on a small state; its expected values are a vector of
95_test_vectors.md (named in the comment) or read from the instruction's rule. Each `witness_<Name>` shows a state and
operands that meet every hypothesis of `Obligations.<Name>` together, at the edges of its clauses.
-/

namespace Sys2Proof.Tests

open Sys2Proof Sys2Proof.Machine

/-! ## Helpers -/

/-- From reset (95_test_vectors.md, Conventions), with code at an address and PC there. -/
def code (pc : Word) (bytes : List Byte) : State :=
  let s := State.reset.writeBytes pc bytes
  { s with pc := pc }

/-- Bytes placed in memory. -/
def put (cells : List (Word × Byte)) (s : State) : State := cells.foldl (fun s cell => s.write cell.1 cell.2) s

/-- The next state of one step under some parameters and the default table. -/
def nextUnder (c : Config) (s : State) : Option State :=
  match stepWith c defaultTable s with
  | .next t => some t
  | .fault _ => none
  | .refused _ => none

/-- The next state of one `step`. -/
def next (s : State) : Option State := nextUnder Config.conventional s

/-- The fault of one step. -/
def faultOf (s : State) : Option Fault :=
  match step s with
  | .next _ => none
  | .fault f => some f
  | .refused _ => none

/-- `exec` answers a next state. -/
def completes (i : Instr) (s : State) : Bool :=
  match exec i s with
  | .next _ => true
  | .fault _ => false
  | .refused _ => false

theorem exists_next {i : Instr} {s : State} (h : completes i s = true) : ∃ t, exec i s = .next t := by
  unfold completes at h
  split at h
  next t ht => exact ⟨t, ht⟩
  next => cases h
  next => cases h

theorem exists_step {c : Config} {s : State} (h : (nextUnder c s).isSome = true) :
    ∃ t, stepWith c defaultTable s = .next t := by
  unfold nextUnder at h
  split at h
  next t ht => exact ⟨t, ht⟩
  next => cases h
  next => cases h

/-- Every parameter away from its conventional value (log 2). -/
def other : Config where
  chipGeneration := .cmos
  jmpIndirectPageBug := true
  rorNoCarryBug := true
  housekeeping := true
  loadedLimit := some 8
  executedLimit := some 7
  cmpCarryRule := .bit7OfDifference
  cmosDecSbcCv := .draw

/-! ## WellFormed refuses what has no encoding (R72, R100; the mode is not in the kind's own table) -/

theorem test_wf_refuses_first_kinds :
    [Instr.lda .implied, Instr.ldx (.absoluteX 0x1234), Instr.ldy (.zeroPageY 0x10), Instr.sta (.immediate 0x10),
     Instr.stx (.zeroPageX 0x10), Instr.sty (.zeroPageY 0x10), Instr.tax .accumulator, Instr.tay (.immediate 0x00),
     Instr.txa (.zeroPage 0x00), Instr.tya .accumulator, Instr.tsx .accumulator, Instr.txs (.absolute 0x0000),
     Instr.pha .accumulator, Instr.php (.immediate 0x00), Instr.pla .accumulator, Instr.plp (.zeroPage 0x00),
     Instr.and .accumulator, Instr.ora .implied, Instr.eor (.zeroPageY 0x10), Instr.bit (.immediate 0x01), Instr.cmp
     ⟨.unsignedGe, .accumulator⟩, Instr.cpx ⟨.unsignedGe, .zeroPageX 0x01⟩, Instr.cpy ⟨.bit7OfDifference, .absoluteX
     0x0001⟩, Instr.inc .accumulator, Instr.dec .accumulator, Instr.inx .accumulator, Instr.iny (.zeroPage 0x00),
     Instr.dex .accumulator].all (fun i => !i.wf) = true := by decide

theorem test_wf_refuses_second_kinds :
    [Instr.dey (.relative 0x00), Instr.asl .implied, Instr.lsr (.absoluteY 0x0000), Instr.rol (.immediate 0x00),
     Instr.ror ⟨true, .indirectIndexed 0x00⟩, Instr.adc ⟨.nmos, .accumulator⟩, Instr.sbc ⟨(.cmos, .draw), .implied⟩,
     Instr.bcc .implied, Instr.bcs (.immediate 0x02), Instr.beq (.absolute 0x0002), Instr.bne (.zeroPage 0x02),
     Instr.bmi .accumulator, Instr.bpl (.immediate 0x00), Instr.bvc (.absolute 0x0000), Instr.bvs .implied, Instr.jmp
     (.indexedIndirect 0x00), Instr.jsr (.absoluteIndirect 0x0000), Instr.rts (.relative 0x00), Instr.brk (.immediate
     0x00), Instr.rti .accumulator, Instr.nop (.immediate 0x00), Instr.clc .accumulator, Instr.sec (.immediate 0x01),
     Instr.cld .accumulator, Instr.sed (.zeroPage 0x00), Instr.cli .accumulator, Instr.sei (.relative 0x00),
     Instr.clv (.absolute 0x0000)].all (fun i => !i.wf) = true := by decide

/-! ## Words written out bit by bit from the encodings of the rules -/

/-- R106: LDA #, A9. -/
theorem test_decode_data_movement : decode [0b10101001#8, 0b10000000#8] = .ok (.lda (.immediate 0x80), []) := by rfl
/-- R107: LDX zp,Y, B6. -/
theorem test_decode_data_movement_indexed : decode [0b10110110#8, 0b00010000#8] = .ok (.ldx (.zeroPageY 0x10), []) := by rfl
/-- R121: PLP, 28. -/
theorem test_decode_stack : decode [0b00101000#8] = .ok (.plp .implied, []) := by rfl
/-- R122: AND (zp),Y, 31. -/
theorem test_decode_logic : decode [0b00110001#8, 0b01000100#8] = .ok (.and (.indirectIndexed 0x44), []) := by rfl
/-- R129: CPY abs, CC, ADL first. -/
theorem test_decode_compare : decode [0b11001100#8, 0b00000000#8, 0b00000011#8] = .ok (.cpy ⟨.unsignedGe, .absolute 0x0300⟩, []) := by rfl
/-- R131: DEC abs,X, DE. -/
theorem test_decode_increment : decode [0b11011110#8, 0b00110100#8, 0b00010010#8] = .ok (.dec (.absoluteX 0x1234), []) := by rfl
/-- R138: LSR A, 4A. -/
theorem test_decode_shift : decode [0b01001010#8] = .ok (.lsr .accumulator, []) := by rfl
/-- R140: ROR abs,X, 7E. -/
theorem test_decode_rotate : decode [0b01111110#8, 0b00000000#8, 0b00000010#8] = .ok (.ror ⟨false, .absoluteX 0x0200⟩, []) := by rfl
/-- R141: ADC abs,Y, 79. -/
theorem test_decode_adc : decode [0b01111001#8, 0b11111111#8, 0b00000010#8] = .ok (.adc ⟨.nmos, .absoluteY 0x02FF⟩, []) := by rfl
/-- R145: SBC (zp,X), E1. -/
theorem test_decode_sbc : decode [0b11100001#8, 0b00100000#8] = .ok (.sbc ⟨(.nmos, .asNmos), .indexedIndirect 0x20⟩, []) := by rfl
/-- R155: BNE, D0. -/
theorem test_decode_branch : decode [0b11010000#8, 0b11111101#8] = .ok (.bne (.relative 0xFD), []) := by rfl
/-- R160: JMP ind, 6C. -/
theorem test_decode_jump : decode [0b01101100#8, 0b11111111#8, 0b00000010#8] = .ok (.jmp (.absoluteIndirect 0x02FF), []) := by rfl
/-- R161: JSR, 20. -/
theorem test_decode_call : decode [0b00100000#8, 0b00000101#8, 0b00000000#8] = .ok (.jsr (.absolute 0x0005), []) := by rfl
/-- R163: BRK, 00. -/
theorem test_decode_trap : decode [0b00000000#8] = .ok (.brk .implied, []) := by rfl
/-- R173: CLV, B8. -/
theorem test_decode_flag : decode [0b10111000#8] = .ok (.clv .implied, []) := by rfl

/-- R15, R89: the same bytes give the variants of the profile. -/
theorem test_decode_other_profile :
    decodeWith other defaultTable [0x6C, 0xFF, 0x02] = .ok (.jmp (.absoluteIndirectPageBug 0x02FF), []) ∧
      decodeWith other defaultTable [0x6A] = .ok (.ror ⟨true, .accumulator⟩, []) ∧
      decodeWith other defaultTable [0x69, 0x01] = .ok (.adc ⟨.cmos, .immediate 0x01⟩, []) ∧
      decodeWith other defaultTable [0xE9, 0x01] = .ok (.sbc ⟨(.cmos, .draw), .immediate 0x01⟩, []) ∧
      decodeWith other defaultTable [0xC9, 0x01] = .ok (.cmp ⟨.bit7OfDifference, .immediate 0x01⟩, []) :=
  ⟨rfl, rfl, rfl, rfl, rfl⟩

/-- R94, R101: an unassigned byte is refused by name; so is a string that ends in the operand. -/
theorem test_decode_refuses :
    decode [0b00000010#8] = .error (.undocumented 0x02) ∧ decode [0b10101101#8, 0x00] = .error (.truncated 0xAD) ∧
      decode [] = .error .noBytes := ⟨rfl, rfl, rfl⟩

/-- R100: the map has 151 entries, one for each (kind, mode) pair of the rules, and no opcode byte twice. -/
theorem test_opcode_map_has_151_entries :
    opcodeRows.length = 151 ∧ (opcodeRows.map (·.1)).Nodup ∧
      opcodeRows.all (fun row => row.2.1.modes.contains row.2.2) = true := by decide +kernel

/-- An opcode-table word is laid out low byte first, its missing operand bytes zero. -/
theorem test_decodeTableWord :
    decodeTableWord 8 0xEA = some (.nop .implied) ∧ decodeTableWord 8 0xAD = some (.lda (.absolute 0x0000)) ∧
      decodeTableWord 24 0x1234BD = some (.lda (.absoluteX 0x1234)) ∧ decodeTableWord 8 0xFF = none := by decide

/-- The word placed at PC is what the very next step runs. -/
theorem test_withFetchWord :
    ((next (State.reset.withFetchWord 24 0x1234BD)).map fun t => (t.a, t.p, t.pc)) = some (0x00, 0x32, 0x0003) := by
  decide

/-! ## Reset (R207, vectors Z1, Z2, Z4) -/

/-- `State.reset` is construction and one reset over zeroed memory. -/
theorem test_reset_is_construct_then_reset :
    hostReset Config.conventional (construct ⟨0x01, 0x02, 0x03, 0x04, 0x05, 0x0006, 0x0000⟩) = State.reset := by decide

theorem test_reset_vector :
    let t := hostReset Config.conventional { put [(0xFFFC, 0x00), (0xFFFD, 0x80)] State.reset with
      p := 0xFF, sp := 0x10, stackWrapped := true }
    (t.pc, t.p, t.sp, t.stackWrapped, t.numLoaded) = (0x8000, 0x30, 0xFF, false, 0) := by decide

theorem test_reset_housekeeping :
    let t := hostReset other State.reset
    (t.p, t.numLoaded, t.numExecuted) = (0x30, 2, 2) := by decide

/-! ## One step of each instruction -/

/-- Vector D2. -/
theorem test_lda_negative :
    ((next (code 0x0000 [0xA9, 0x80])).map fun t => (t.a, t.p, t.pc)) =
      some ((0x80 : Byte), (0xB0 : Byte), (0x0002 : Word)) := by decide

/-- Vector D7. -/
theorem test_lda_indirect_wraps :
    ((next { put [(0x00FF, 0xF8), (0x0000, 0xFF), (0x0008, 0x42)] (code 0x0400 [0xB1, 0xFF]) with y := 0x10 }).map fun t => (t.a, t.p, t.pc)) =
      some ((0x42 : Byte), (0x30 : Byte), (0x0402 : Word)) := by decide

/-- Vector D8. -/
theorem test_ldx_zeroPageY_wraps :
    ((next { put [(0x0001, 0x81)] (code 0x0400 [0xB6, 0xFF]) with y := 0x02 }).map fun t => (t.x, t.p, t.pc)) =
      some ((0x81 : Byte), (0xB0 : Byte), (0x0402 : Word)) := by decide

/-- Vector D9. -/
theorem test_ldy_absoluteX :
    ((next { put [(0x0305, 0x00)] (code 0x0400 [0xBC, 0x00, 0x03]) with x := 0x05 }).map fun t => (t.y, t.p, t.pc)) =
      some ((0x00 : Byte), (0x32 : Byte), (0x0403 : Word)) := by decide

/-- Vector D10. -/
theorem test_sta_absolute :
    ((next { code 0x0000 [0x8D, 0x00, 0x02] with a := 0x5A }).map fun t => (t.read 0x0200, t.p, t.pc)) =
      some ((0x5A : Byte), (0x30 : Byte), (0x0003 : Word)) := by decide

/-- R110 with R80: the address wraps in page zero. -/
theorem test_stx_zeroPageY :
    ((next { code 0x0400 [0x96, 0xFF] with x := 0x77, y := 0x02 }).map fun t => (t.read 0x0001, t.read 0x0101, t.p)) =
      some ((0x77 : Byte), (0x00 : Byte), (0x30 : Byte)) := by decide

/-- R111 with R79. -/
theorem test_sty_zeroPageX :
    ((next { code 0x0400 [0x94, 0x10] with x := 0x04, y := 0x55 }).map fun t => (t.read 0x0014, t.p, t.pc)) =
      some ((0x55 : Byte), (0x30 : Byte), (0x0402 : Word)) := by decide

/-- Vector D12. -/
theorem test_tax_zero :
    ((next { code 0x0000 [0xAA] with x := 0x07 }).map fun t => (t.x, t.p)) =
      some ((0x00 : Byte), (0x32 : Byte)) := by decide

/-- R113. -/
theorem test_tay :
    ((next { code 0x0000 [0xA8] with a := 0x81 }).map fun t => (t.y, t.p)) =
      some ((0x81 : Byte), (0xB0 : Byte)) := by decide

/-- R114. -/
theorem test_txa :
    ((next { code 0x0000 [0x8A] with x := 0x7F }).map fun t => (t.a, t.p)) =
      some ((0x7F : Byte), (0x30 : Byte)) := by decide

/-- R115. -/
theorem test_tya :
    ((next { code 0x0000 [0x98] with y := 0x80 }).map fun t => (t.a, t.p)) =
      some ((0x80 : Byte), (0xB0 : Byte)) := by decide

/-- Vector D13. -/
theorem test_tsx :
    ((next (code 0x0000 [0xBA])).map fun t => (t.x, t.p)) =
      some ((0xFF : Byte), (0xB0 : Byte)) := by decide

/-- Vector D14. -/
theorem test_txs_sets_no_flag :
    ((next (code 0x0000 [0x9A])).map fun t => (t.sp, t.p, t.stackWrapped)) =
      some ((0x00 : Byte), (0x30 : Byte), false) := by decide

/-- Vector K1. -/
theorem test_pha :
    ((next { code 0x0000 [0x48] with a := 0x77 }).map fun t => (t.read 0x01FF, t.sp, t.p)) =
      some ((0x77 : Byte), (0xFE : Byte), (0x30 : Byte)) := by decide

/-- Vector S4, step 3. -/
theorem test_pha_wraps_at_00 :
    ((next { code 0x0400 [0x48] with a := 0x77, sp := 0x00 }).map fun t => (t.read 0x0100, t.sp, t.stackWrapped)) =
      some ((0x77 : Byte), (0xFF : Byte), true) := by decide

/-- Vector K2. -/
theorem test_php_pushes_P_as_stored :
    ((next (code 0x0000 [0x08])).map fun t => (t.read 0x01FF, t.sp, t.p)) =
      some ((0x30 : Byte), (0xFE : Byte), (0x30 : Byte)) := by decide

/-- R120. -/
theorem test_pla :
    ((next { put [(0x01FF, 0x80)] (code 0x0000 [0x68]) with sp := 0xFE }).map fun t => (t.a, t.sp, t.p)) =
      some ((0x80 : Byte), (0xFF : Byte), (0xB0 : Byte)) := by decide

/-- Vector K4. -/
theorem test_plp_forces_E_and_B :
    ((next { put [(0x01FF, 0xFF)] (code 0x0000 [0x28]) with sp := 0xFE }).map fun t => (t.p, t.sp)) =
      some ((0xEF : Byte), (0xFF : Byte)) := by decide

/-- Vector K5. -/
theorem test_plp_zero :
    ((next { put [(0x01FF, 0x00)] (code 0x0000 [0x28]) with sp := 0xFE }).map fun t => t.p) =
      some (0x20 : Byte) := by decide

/-- Vector A1. -/
theorem test_and :
    ((next { code 0x0000 [0x29, 0x0F] with a := 0xF0 }).map fun t => (t.a, t.p)) =
      some ((0x00 : Byte), (0x32 : Byte)) := by decide

/-- Vector A2. -/
theorem test_ora :
    ((next { code 0x0000 [0x09, 0x80] with a := 0x01 }).map fun t => (t.a, t.p)) =
      some ((0x81 : Byte), (0xB0 : Byte)) := by decide

/-- Vector A3. -/
theorem test_eor :
    ((next { code 0x0000 [0x49, 0xFF] with a := 0xFF }).map fun t => (t.a, t.p)) =
      some ((0x00 : Byte), (0x32 : Byte)) := by decide

/-- Vector A4. -/
theorem test_bit_all_three_flags :
    ((next { put [(0x0010, 0xC0)] (code 0x0000 [0x24, 0x10]) with a := 0x01 }).map fun t => (t.a, t.p)) =
      some ((0x01 : Byte), (0xF2 : Byte)) := by decide

/-- Vector A5. -/
theorem test_bit_absolute :
    ((next { put [(0x0300, 0x40)] (code 0x0000 [0x2C, 0x00, 0x03]) with a := 0x40 }).map fun t => t.p) =
      some (0x70 : Byte) := by decide

/-- Vector A6. -/
theorem test_cmp_borrow :
    ((next { code 0x0000 [0xC9, 0x41] with a := 0x40 }).map fun t => (t.a, t.p)) =
      some ((0x40 : Byte), (0xB0 : Byte)) := by decide

/-- Vector A7. -/
theorem test_cpx_equal :
    ((next { code 0x0000 [0xE0, 0x05] with x := 0x05 }).map fun t => (t.x, t.p)) =
      some ((0x05 : Byte), (0x33 : Byte)) := by decide

/-- Vector A8, unsigned_ge. -/
theorem test_cpy_unsignedGe :
    ((next { code 0x0000 [0xC0, 0x00] with y := 0x80 }).map fun t => t.p) =
      some (0xB1 : Byte) := by decide

/-- Vector A8, bit7_of_difference. -/
theorem test_cpy_bit7 :
    ((nextUnder { Config.conventional with cmpCarryRule := .bit7OfDifference } { code 0x0000 [0xC0, 0x00] with y := 0x80 }).map fun t => t.p) =
      some (0xB0 : Byte) := by decide

/-- Vector A11. -/
theorem test_inc_wraps :
    ((next (put [(0x0010, 0xFF)] (code 0x0000 [0xE6, 0x10]))).map fun t => (t.read 0x0010, t.p)) =
      some ((0x00 : Byte), (0x32 : Byte)) := by decide

/-- Vector A12. -/
theorem test_dec_wraps :
    ((next (code 0x0000 [0xCE, 0x00, 0x02])).map fun t => (t.read 0x0200, t.p)) =
      some ((0xFF : Byte), (0xB0 : Byte)) := by decide

/-- Vector A13. -/
theorem test_inx_wraps :
    ((next { code 0x0000 [0xE8] with x := 0xFF }).map fun t => (t.x, t.p)) =
      some ((0x00 : Byte), (0x32 : Byte)) := by decide

/-- R133. -/
theorem test_iny :
    ((next { code 0x0000 [0xC8] with y := 0x7F }).map fun t => (t.y, t.p)) =
      some ((0x80 : Byte), (0xB0 : Byte)) := by decide

/-- R134. -/
theorem test_dex :
    ((next { code 0x0000 [0xCA] with x := 0x01 }).map fun t => (t.x, t.p)) =
      some ((0x00 : Byte), (0x32 : Byte)) := by decide

/-- Vector A14. -/
theorem test_dey_wraps :
    ((next (code 0x0000 [0x88])).map fun t => (t.y, t.p)) =
      some ((0xFF : Byte), (0xB0 : Byte)) := by decide

/-- Vector H1. -/
theorem test_asl_accumulator :
    ((next { code 0x0000 [0x0A] with a := 0x80 }).map fun t => (t.a, t.p)) =
      some ((0x00 : Byte), (0x33 : Byte)) := by decide

/-- Vector H2. -/
theorem test_asl_memory :
    ((next (put [(0x0010, 0x41)] (code 0x0000 [0x06, 0x10]))).map fun t => (t.a, t.read 0x0010, t.p)) =
      some ((0x00 : Byte), (0x82 : Byte), (0xB0 : Byte)) := by decide

/-- Vector H3. -/
theorem test_lsr :
    ((next { code 0x0000 [0x4A] with a := 0x01 }).map fun t => (t.a, t.p)) =
      some ((0x00 : Byte), (0x33 : Byte)) := by decide

/-- Vector H4. -/
theorem test_rol :
    ((next { code 0x0000 [0x2A] with a := 0x40, p := 0x31 }).map fun t => (t.a, t.p)) =
      some ((0x81 : Byte), (0xB0 : Byte)) := by decide

/-- Vector H5. -/
theorem test_ror_through_carry :
    ((next { code 0x0000 [0x6A] with p := 0x31 }).map fun t => (t.a, t.p)) =
      some ((0x80 : Byte), (0xB0 : Byte)) := by decide

/-- Vector H8. -/
theorem test_ror_bug_keeps_carry :
    ((nextUnder { Config.conventional with rorNoCarryBug := true } { put [(0x0010, 0x03)] (code 0x0000 [0x66, 0x10]) with p := 0x31 }).map fun t => (t.read 0x0010, t.p)) =
      some ((0x81 : Byte), (0xB1 : Byte)) := by decide

/-- Vector V3. -/
theorem test_adc_overflow :
    ((next { code 0x0000 [0x69, 0x01] with a := 0x7F }).map fun t => (t.a, t.p)) =
      some ((0x80 : Byte), (0xF0 : Byte)) := by decide

/-- Vector V7. -/
theorem test_adc_decimal_nmos :
    ((next { code 0x0000 [0x69, 0x99] with p := 0x39 }).map fun t => (t.a, t.p)) =
      some ((0x00 : Byte), (0xB9 : Byte)) := by decide

/-- Vector V11. -/
theorem test_sbc_borrow :
    ((next { code 0x0000 [0xE9, 0x02] with a := 0x01, p := 0x31 }).map fun t => (t.a, t.p)) =
      some ((0xFF : Byte), (0xB0 : Byte)) := by decide

/-- Vector V13. -/
theorem test_sbc_decimal :
    ((next { code 0x0000 [0xE9, 0x00] with p := 0x38 }).map fun t => (t.a, t.p)) =
      some ((0x99 : Byte), (0xB8 : Byte)) := by decide

/-- Vector B1. -/
theorem test_bcc_taken :
    ((next (code 0x0000 [0x90, 0x02])).map fun t => (t.pc, t.p)) =
      some ((0x0004 : Word), (0x30 : Byte)) := by decide

/-- Vector B2. -/
theorem test_bcs_not_taken :
    ((next (code 0x0000 [0xB0, 0x02])).map fun t => (t.pc, t.p)) =
      some ((0x0002 : Word), (0x30 : Byte)) := by decide

/-- Vector B3. -/
theorem test_beq_backwards :
    ((next { code 0x0010 [0xF0, 0xFC] with p := 0x32 }).map fun t => t.pc) =
      some (0x000E : Word) := by decide

/-- Vector B4. -/
theorem test_bne_itself :
    ((next (code 0x0010 [0xD0, 0xFE])).map fun t => t.pc) =
      some (0x0010 : Word) := by decide

/-- Vector B5. -/
theorem test_bmi_wraps_below_zero :
    ((next { code 0x0010 [0x30, 0x80] with p := 0xB0 }).map fun t => t.pc) =
      some (0xFF92 : Word) := by decide

/-- Vector B6. -/
theorem test_bpl_wraps_past_the_top :
    ((next (code 0xFFF0 [0x10, 0x7F])).map fun t => t.pc) =
      some (0x0071 : Word) := by decide

/-- Vector B7. -/
theorem test_bvc_taken :
    ((next (code 0x0000 [0x50, 0x05])).map fun t => t.pc) =
      some (0x0007 : Word) := by decide

/-- Vector B8. -/
theorem test_bvs_not_taken :
    ((next (code 0x0000 [0x70, 0x05])).map fun t => t.pc) =
      some (0x0002 : Word) := by decide

/-- Vector B10 without the bug. -/
theorem test_jmp_indirect :
    ((next (put [(0xFFFF, 0x78), (0x0000, 0x22), (0xFF00, 0x11)] (code 0x0400 [0x6C, 0xFF, 0xFF]))).map fun t => t.pc) =
      some (0x2278 : Word) := by decide

/-- Vector B10 with the bug. -/
theorem test_jmp_page_bug :
    ((nextUnder { Config.conventional with jmpIndirectPageBug := true } (put [(0xFFFF, 0x78), (0x0000, 0x22), (0xFF00, 0x11)] (code 0x0400 [0x6C, 0xFF, 0xFF]))).map fun t => t.pc) =
      some (0x1178 : Word) := by decide

/-- Vector B12. -/
theorem test_jsr :
    ((next (code 0x0000 [0x20, 0x05, 0x00])).map fun t => (t.read 0x01FF, t.read 0x01FE, t.sp, t.pc)) =
      some ((0x00 : Byte), (0x03 : Byte), (0xFD : Byte), (0x0005 : Word)) := by decide

/-- Vector B14. -/
theorem test_jsr_wraps :
    ((next (code 0xFFFD [0x20, 0x00, 0x10])).map fun t => (t.read 0x01FF, t.read 0x01FE, t.sp, t.pc)) =
      some ((0x00 : Byte), (0x00 : Byte), (0xFD : Byte), (0x1000 : Word)) := by decide

/-- Vector B15. -/
theorem test_rts :
    ((next { put [(0x01FE, 0x03)] (code 0x0000 [0x60]) with sp := 0xFD }).map fun t => (t.pc, t.sp)) =
      some ((0x0003 : Word), (0xFF : Byte)) := by decide

/-- Vector B17. -/
theorem test_brk :
    ((next (put [(0xFFFE, 0x10), (0xFFFF, 0x20)] (code 0x0000 [0x00]))).map fun t => (t.read 0x01FF, t.read 0x01FE, t.read 0x01FD, t.sp, t.p, t.pc)) =
      some ((0x00 : Byte), (0x02 : Byte), (0x34 : Byte), (0xFC : Byte), (0x34 : Byte), (0x2010 : Word)) := by decide

/-- Vector B18. -/
theorem test_rti :
    ((next { put [(0x01FD, 0x34), (0x01FE, 0x02)] (code 0x2010 [0x40]) with sp := 0xFC }).map fun t => (t.p, t.pc, t.sp)) =
      some ((0x30 : Byte), (0x0002 : Word), (0xFF : Byte)) := by decide

/-- Vector B19. -/
theorem test_rti_verbatim :
    ((next { put [(0x01FD, 0xC7), (0x01FE, 0x00), (0x01FF, 0x30)] (code 0x2010 [0x40]) with sp := 0xFC }).map fun t => (t.p, t.pc)) =
      some ((0xC3 : Byte), (0x3000 : Word)) := by decide

/-- Vector B20. -/
theorem test_nop :
    ((next (code 0x0000 [0xEA])).map fun t => (t.pc, t.numLoaded, t.numExecuted)) =
      some ((0x0001 : Word), 1, 1) := by decide

/-- Vector F1. -/
theorem test_clc :
    ((next { code 0x0000 [0x18] with p := 0x31 }).map fun t => (t.p, t.pc, t.a)) =
      some ((0x30 : Byte), (0x0001 : Word), (0x00 : Byte)) := by decide

/-- Vector F2. -/
theorem test_sec :
    ((next { code 0x0000 [0x38] with p := 0x30 }).map fun t => (t.p, t.pc, t.a)) =
      some ((0x31 : Byte), (0x0001 : Word), (0x00 : Byte)) := by decide

/-- Vector F3. -/
theorem test_cld :
    ((next { code 0x0000 [0xD8] with p := 0x38 }).map fun t => (t.p, t.pc, t.a)) =
      some ((0x30 : Byte), (0x0001 : Word), (0x00 : Byte)) := by decide

/-- Vector F4. -/
theorem test_sed :
    ((next { code 0x0000 [0xF8] with p := 0x30 }).map fun t => (t.p, t.pc, t.a)) =
      some ((0x38 : Byte), (0x0001 : Word), (0x00 : Byte)) := by decide

/-- Vector F5. -/
theorem test_cli :
    ((next { code 0x0000 [0x58] with p := 0x34 }).map fun t => (t.p, t.pc, t.a)) =
      some ((0x30 : Byte), (0x0001 : Word), (0x00 : Byte)) := by decide

/-- Vector F6. -/
theorem test_sei :
    ((next { code 0x0000 [0x78] with p := 0x30 }).map fun t => (t.p, t.pc, t.a)) =
      some ((0x34 : Byte), (0x0001 : Word), (0x00 : Byte)) := by decide

/-- Vector F7. -/
theorem test_clv :
    ((next { code 0x0000 [0xB8] with p := 0x70 }).map fun t => (t.p, t.pc, t.a)) =
      some ((0x30 : Byte), (0x0001 : Word), (0x00 : Byte)) := by decide

/-! ## The adder, apart from the step: rows of the source's own table (R150) -/

/-- Vectors V4 to V9. -/
theorem test_adc_vectors :
    adc .nmos false 0x80 0x80 false = { a := 0x00, c := true, z := true, v := true, n := false } ∧
    adc .cmos false 0xFF 0x7F true = { a := 0x7F, c := true, z := false, v := false, n := false } ∧
    adc .nmos true 0x00 0x79 true = { a := 0x80, c := false, z := false, v := true, n := true } ∧
    adc .cmos true 0x00 0x99 true = { a := 0x00, c := true, z := true, v := true, n := false } ∧
    adc .cmos true 0x50 0x50 false = { a := 0x00, c := true, z := true, v := true, n := false } := by decide

/-- Vectors V12, V14, V15 (as_nmos), X19, X22. -/
theorem test_sbc_vectors :
    sbc .nmos .asNmos false false false 0x80 0x7F false =
      { a := 0x00, c := true, z := true, v := true, n := false } ∧
    sbc .nmos .asNmos false false true 0x02 0x01 true =
      { a := 0x01, c := true, z := false, v := false, n := false } ∧
    sbc .cmos .asNmos false false true 0x00 0x00 true =
      { a := 0x00, c := true, z := true, v := false, n := false } ∧
    sbc .nmos .asNmos false false true 0x32 0x02 false =
      { a := 0x29, c := true, z := false, v := false, n := false } ∧
    sbc .nmos .asNmos false false true 0x21 0x34 true =
      { a := 0x87, c := false, z := false, v := false, n := true } := by decide

/-! ## The step cycle (section 2.8 of the vectors) -/

/-- Vector S1: the fault names the byte and its address, and leaves PC past it, loaded and not executed. -/
theorem test_undocumented :
    faultOf (code 0x0000 [0x02]) =
      some (.undocumented 0x02 0x0000 { code 0x0000 [0x02] with pc := 0x0001, numLoaded := 1 }) := by decide

/-- Vector K3. -/
theorem test_pla_underflow :
    faultOf (code 0x0000 [0x68]) =
      some (.stackUnderflow { code 0x0000 [0x68] with pc := 0x0001, numLoaded := 1 }) := by decide

/-- Vector S4, step 4. -/
theorem test_pha_overflow :
    faultOf { code 0x0004 [0x48] with stackWrapped := true } =
      some (.stackOverflow
        { code 0x0004 [0x48] with pc := 0x0005, stackWrapped := true, numLoaded := 1, lastOpcodeAddress := 0x0004 }) := by
  decide

/-- Vector S2: the breakpoint signals once, then the instruction runs. -/
theorem test_breakpoint :
    ((next (setBreakpoint (code 0x0000 [0xEA]) 0x0000)).map fun t => (t.outcome, t.pc, t.numLoaded, t.bpGuard)) =
        some (.breakpoint 0x0000, 0x0000, 0, true) ∧
      (((next (setBreakpoint (code 0x0000 [0xEA]) 0x0000)).bind next).map fun t =>
        (t.outcome, t.pc, t.numLoaded, t.bpGuard)) = some (.next, 0x0001, 1, false) := by decide

/-- Vector S3, step 2: the executed limit stops the run after the instruction. -/
theorem test_executed_limit :
    ((nextUnder { Config.conventional with executedLimit := some 2 }
        { code 0x0001 [0xEA] with numExecuted := 1, runState := .running }).map
      fun t => (t.outcome, t.pc, t.numExecuted, t.runState)) =
      some (.stateChanged .stopped, 0x0002, 2, .stopped) := by decide

/-- Scenario SC1, step 4: the load limit stops the step before its fetch. -/
theorem test_load_limit :
    ((nextUnder { Config.conventional with loadedLimit := some 3 }
        { code 0x0003 [0xEA] with numLoaded := 3, runState := .running }).map
      fun t => (t.outcome, t.pc, t.numLoaded, t.runState)) =
      some (.stateChanged .stopped, 0x0003, 3, .stopped) := by decide

/-- R69, R176: a load past the top faults at address 65536; a host access below zero does too. -/
theorem test_host_bounds :
    hostRead State.reset (-1) = .error (.memoryOutOfRange (-1) State.reset) ∧
      loadProgram State.reset 0xFFFF [0x12, 0x34] =
        .error (.memoryOutOfRange 0x10000 { State.reset with mem := [(0xFFFF, 0x12)] }) := ⟨rfl, rfl⟩

/-- R46: the set is kept by rising address, none twice. -/
theorem test_breakpoint_set :
    (setBreakpoint (setBreakpoint (setBreakpoint State.reset 0x0200) 0x0100) 0x0200).breakpoints = [0x0100, 0x0200] ∧
      (clearBreakpoint (setBreakpoint State.reset 0x0200) 0x0200).breakpoints = [] := by decide

/-- R44, R185: setting `run_state` signals only a change. -/
theorem test_set_run_state :
    (setRunState State.reset .running).1 = some (.stateChanged .running) ∧
      (setRunState State.reset .stopped).1 = none := by decide

/-- R49: storing 0x00 unlists the cell, so that equal memories are equal data. -/
theorem test_memory_canonical :
    ((put [(0x0200, 0x01), (0x0100, 0x02), (0x0200, 0x00)] State.reset).mem) = [(0x0100, 0x02)] := by decide

/-! ## Witnesses -/

/-- A state in the middle of a run: every register and flag its own value, the stack in use, a decimal accumulator. -/
def sample : State :=
  { put [(0x0010, 0x34), (0x0011, 0x12), (0x1234, 0x99), (0x0200, 0x45)] State.reset with
    a := 0x45, x := 0x01, y := 0x02, sp := 0xF0, p := 0x75, pc := 0x0400, lastOpcodeAddress := 0x03FF
    numLoaded := 7, numExecuted := 6 }

theorem witness_DecodeOfEncode :
    (WellFormed (.lda (.absoluteX 0xFFFF)) ∧ (Instr.lda (.absoluteX 0xFFFF)).builtUnder other) ∧
      (WellFormed (.sbc ⟨(.nmos, .asNmos), .zeroPage 0x00⟩) ∧
        (Instr.sbc ⟨(.nmos, .asNmos), .zeroPage 0x00⟩).builtUnder Config.conventional) ∧
      (WellFormed (.jmp (.absoluteIndirectPageBug 0xFFFF)) ∧
        (Instr.jmp (.absoluteIndirectPageBug 0xFFFF)).builtUnder other) := ⟨⟨rfl, trivial⟩, ⟨rfl, rfl⟩, ⟨rfl, rfl⟩⟩

theorem witness_EncodeOfDecode :
    decodeWith Config.conventional defaultTable [0x6C, 0xFF, 0x02, 0xEA] =
        .ok (.jmp (.absoluteIndirect 0x02FF), [0xEA]) ∧
      decodeWith other defaultTable [0x6C, 0xFF, 0x02, 0xEA] = .ok (.jmp (.absoluteIndirectPageBug 0x02FF), [0xEA]) := ⟨rfl, rfl⟩

/-- A full stack with a breakpoint elsewhere, about to run a NOP. -/
def full : State := { code 0x0400 [0xEA] with stackWrapped := true, breakpoints := [0x0000, 0xFFFF] }

theorem witness_EveryStepKeepsInvariant :
    StateInv full ∧ ∃ t, stepWith other defaultTable full = .next t := ⟨by decide, exists_step (by decide)⟩

theorem witness_HostCallsKeepInvariant :
    StateInv full ∧ (∃ t, hostWrite full 0xFFFF 0x01 = .ok t) ∧ ∃ t, loadProgram full 0xFFFE [0x01, 0x00] = .ok t := ⟨by decide, ⟨_, rfl⟩, ⟨_, rfl⟩⟩

/-- The edges of the range: -1, 65536, a load that ends at the top, an empty one, one byte too many, none fitting, and an
offset past the end. -/
theorem witness_ProgramLoadIsBoundsChecked :
    (((-1 : Int) < 0 ∨ 0x10000 ≤ (-1 : Int)) ∧ ((0x10000 : Int) < 0 ∨ 0x10000 ≤ (0x10000 : Int))) ∧
      (0xFFFE + [0x12#8, 0x34#8].length ≤ 0x10000 ∧ 0x10000 + ([] : List Byte).length ≤ 0x10000) ∧
      (0xFFFF ≤ 0x10000 ∧ 0x10000 < 0xFFFF + [0x12#8, 0x34#8].length) ∧
      (0x10000 ≤ 0x10000 ∧ 0x10000 < 0x10000 + [0x12#8].length) ∧ 0x10000 < 0x10001 := by decide

/-- A step of `sample` over the given bytes. -/
def at0400 (bytes : List Byte) : State := sample.writeBytes 0x0400 bytes

/-- `sample` after an opcode fetch. -/
def fetched (s : State) : State :=
  { s with lastOpcodeAddress := s.pc, bpGuard := false, numLoaded := s.numLoaded + 1, pc := s.pc + 1 }

/-- No executed limit. -/
theorem witness_StepRunsDecodedInstruction_next :
    let s := at0400 [0xE6, 0x10]
    Fetches Config.conventional s ∧
      decodeWith Config.conventional defaultTable [s.read s.pc, s.read (s.pc + 1), s.read (s.pc + 2)] =
        .ok (.inc (.zeroPage 0x10), [0x00]) ∧
      ∃ t, exec (.inc (.zeroPage 0x10)) (fetched s) = .next t := ⟨fetches_iff.mpr (by decide), rfl, exists_next (by decide)⟩

/-- The executed limit just reached, and one short of it; the load limit one short. -/
theorem witness_StepRunsDecodedInstruction_limit :
    let s := at0400 [0xEA]
    Fetches other s ∧
      decodeWith other defaultTable [s.read s.pc, s.read (s.pc + 1), s.read (s.pc + 2)] =
        .ok (.nop .implied, [0x00, 0x00]) ∧
      (∃ t, exec (.nop .implied) (fetched s) = .next t ∧ other.executedLimit = some 7 ∧ 7 ≤ t.numExecuted + 1) ∧
      ∃ t, exec (.nop .implied) (fetched { s with numExecuted := 5 }) = .next t ∧ other.executedLimit = some 7 ∧
        t.numExecuted + 1 < 7 := ⟨fetches_iff.mpr (by decide), rfl, ⟨_, rfl, by decide⟩, ⟨_, rfl, by decide⟩⟩

theorem witness_StepRunsDecodedInstruction_fault :
    let s := { at0400 [0x68] with sp := 0xFF }
    Fetches other s ∧
      decodeWith other defaultTable [s.read s.pc, s.read (s.pc + 1), s.read (s.pc + 2)] =
        .ok (.pla .implied, [0x00, 0x00]) ∧
      ∃ f, exec (.pla .implied) (fetched s) = .fault f := ⟨fetches_iff.mpr (by decide), rfl, _, rfl⟩

theorem witness_LoadLimitStopsTheStep :
    other.loadedLimit = some 8 ∧ 8 ≤ { sample with numLoaded := 8 }.numLoaded := ⟨rfl, Nat.le_refl 8⟩

theorem witness_BreakpointSignalsThenRuns :
    let s := setBreakpoint (at0400 [0xEA]) 0x0400
    let r := { s with bpGuard := true }
    (∀ l, other.loadedLimit = some l → s.numLoaded < l) ∧ (s.pc ∈ s.breakpoints ∧ s.bpGuard = false) ∧
      (r.pc ∈ r.breakpoints → r.bpGuard = true) ∧
      decodeWith other defaultTable r.bytesAtPc = .ok (.nop .implied, [0x00, 0x00]) ∧
      (∃ t, exec (.nop .implied) (fetched r) = .next t) ∧
      (∃ f, exec (.rts .implied) (fetched { r with sp := 0xFF }) = .fault f) ∧
      defaultTable ((at0400 [0x02]).read 0x0400) = none := by
  refine ⟨fun l h => ?_, by decide, fun _ => rfl, rfl, exists_next (by decide), ⟨_, rfl⟩, by decide⟩
  cases h
  decide

theorem witness_UndocumentedOpcodeFaults :
    let s := at0400 [0xFF]
    Fetches other s ∧ defaultTable (s.read s.pc) = none := ⟨fetches_iff.mpr (by decide), by decide⟩

theorem witness_StepCountsAndKeepsHostState :
    (∃ t, stepWith other defaultTable (at0400 [0xEA]) = .next t) ∧
      ∃ t, stepWith other defaultTable (setBreakpoint (at0400 [0xEA]) 0x0400) = .next t := ⟨exists_step (by decide), exists_step (by decide)⟩

theorem witness_OnlyThreeFaultsCanArise :
    (∃ f, stepWith other defaultTable (at0400 [0x02]) = .fault f) ∧
      (∃ f, stepWith other defaultTable { at0400 [0x48] with stackWrapped := true } = .fault f) ∧
      ∃ f, stepWith other defaultTable { at0400 [0x68] with sp := 0xFF } = .fault f := ⟨⟨_, rfl⟩, ⟨_, rfl⟩, ⟨_, rfl⟩⟩

theorem witness_ResolveFetchesAndAdvances :
    (∃ ea, (resolve (.indirectIndexed 0x10) sample).ea = some ea) ∧ (resolve (.immediate 0x10) sample).ea = none := ⟨⟨_, rfl⟩, rfl⟩

theorem witness_MissingOperandIsIncomplete :
    operandsSuffice (.lda .implied) sample = false ∧ operandsSuffice (.sta (.immediate 0x10)) sample = false ∧
      operandsSuffice (.inc .implied) sample = false ∧ operandsSuffice (.jmp .accumulator) sample = false ∧
      WellFormed (.ror ⟨false, .accumulator⟩) := by decide

theorem witness_LoadsWriteTheirRegister :
    (resolve (.immediate 0x00) sample).value = some 0x00 ∧ (resolve (.indirectIndexed 0x10) sample).value = some 0x00 ∧
      (resolve (.indexedIndirect 0x0F) sample).value = some 0x99 := by decide

theorem witness_LogicWritesAccumulator :
    (resolve (.immediate 0x00) sample).value = some 0x00 ∧ (resolve (.indirectIndexed 0x10) sample).value = some 0x00 ∧
      (resolve (.indexedIndirect 0x0F) sample).value = some 0x99 := by decide

theorem witness_BitTestsTheOperand :
    (resolve (.immediate 0x00) sample).value = some 0x00 ∧ (resolve (.indirectIndexed 0x10) sample).value = some 0x00 ∧
      (resolve (.indexedIndirect 0x0F) sample).value = some 0x99 := by decide

/-- Equal bytes and a borrow, under each rule. -/
theorem witness_ComparesSetNZC :
    (resolve (.immediate 0x45) sample).value = some 0x45 ∧
      (resolve (.indexedIndirect 0x0F) sample).value = some 0x99 ∧
      CmpCarryRule.unsignedGe = .unsignedGe ∧ CmpCarryRule.bit7OfDifference = .bit7OfDifference := by decide

theorem witness_StoresWriteTheirAddress :
    (resolve (.absoluteX 0xFFFF) sample).ea = some 0x0000 ∧ (resolve (.indexedIndirect 0x0F) sample).ea = some 0x1234 := by decide

theorem witness_PushesStoreOneByte :
    sample.stackWrapped = false ∧ { sample with sp := 0x00 }.stackWrapped = false := ⟨rfl, rfl⟩

/-- Two bytes below the top, and the full stack. -/
theorem witness_PullsLoadOneByte :
    ({ sample with sp := 0xFE }.sp ≠ 0xFF ∨ { sample with sp := 0xFE }.stackWrapped = true) ∧
      ({ sample with sp := 0xFF, stackWrapped := true }.sp ≠ 0xFF ∨
        { sample with sp := 0xFF, stackWrapped := true }.stackWrapped = true) := by decide

theorem witness_AddressesAreTwoBytes :
    (∃ t, push (BitVec.ofNat 8 ((0x1234#16).toNat / 0x100)) sample = .ok t) ∧
      (∃ f, push (BitVec.ofNat 8 ((0x1234#16).toNat / 0x100)) { sample with stackWrapped := true } = .error f) ∧
      (∃ t u lo hi, pop sample = .ok (lo, t) ∧ pop t = .ok (hi, u)) ∧
      (∃ f, pop { sample with sp := 0xFF } = .error f) ∧
      ∃ t lo f, pop { sample with sp := 0xFE } = .ok (lo, t) ∧ pop t = .error f := ⟨⟨_, rfl⟩, ⟨_, rfl⟩, ⟨_, _, _, _, rfl, rfl⟩, ⟨_, rfl⟩, ⟨_, _, _, rfl, rfl⟩⟩

/-- The push that wraps. -/
theorem witness_PushThenPopReturns :
    (∃ t, push 0x55 { sample with sp := 0x00 } = .ok t) ∧ ∃ t, pushAddress 0x1234 { sample with sp := 0x01 } = .ok t := ⟨⟨_, rfl⟩, ⟨_, rfl⟩⟩

theorem witness_StackHolds256Bytes :
    State.reset.sp = 0xFF ∧ State.reset.stackWrapped = false ∧ (List.replicate 256 (0x5A : Byte)).length = 256 := ⟨rfl, rfl, List.length_replicate⟩

theorem witness_OverflowKeepsPartialEffects :
    { sample with stackWrapped := true }.stackWrapped = true ∧ (resolve (.absolute 0x0005) sample).ea = some 0x0005 ∧
      ({ sample with sp := 0x00 }.stackWrapped = false ∧ { sample with sp := 0x00 }.sp = 0x00) ∧
      ({ sample with sp := 0x01 }.stackWrapped = false ∧ { sample with sp := 0x01 }.sp = 0x01) := by decide

theorem witness_UnderflowKeepsPartialEffects :
    (State.reset.sp = 0xFF ∧ State.reset.stackWrapped = false) ∧ { sample with sp := 0xFE }.sp = 0xFE ∧
      { sample with sp := 0xFD }.sp = 0xFD := by decide

theorem witness_IncAndDecWriteBack :
    Modifiable .accumulator sample 0x45 ∧ Modifiable (.absoluteX 0x01FF) sample 0x45 := ⟨⟨rfl, .inl rfl⟩, ⟨by decide, .inr (by decide)⟩⟩

theorem witness_ShiftsWriteBack :
    Modifiable .accumulator sample 0x45 ∧ Modifiable (.absoluteX 0x01FF) sample 0x45 := ⟨⟨rfl, .inl rfl⟩, ⟨by decide, .inr (by decide)⟩⟩

theorem witness_RotatesWriteBack :
    Modifiable .accumulator sample 0x45 ∧ Modifiable (.absoluteX 0x01FF) sample 0x45 := ⟨⟨rfl, .inl rfl⟩, ⟨by decide, .inr (by decide)⟩⟩

theorem witness_BinaryAdcAdds :
    (resolve (.immediate 0xFF) sample).value = some 0xFF ∧ sample.flag .d = false := by decide

theorem witness_BinarySbcSubtracts :
    (resolve (.immediate 0xFF) sample).value = some 0xFF ∧ sample.flag .d = false := by decide

/-- `sample` in decimal mode. -/
def decimal : State := sample.setFlag .d true

theorem witness_DecimalAdcAddsDigits :
    (resolve (.immediate 0x99) decimal).value = some 0x99 ∧ decimal.flag .d = true ∧ isBcd decimal.a = true ∧
      isBcd 0x99 = true := by decide

theorem witness_DecimalAdcOnAllBytes :
    (resolve (.immediate 0xFF) decimal).value = some 0xFF ∧ decimal.flag .d = true := by decide

theorem witness_DecimalSbcSubtractsDigits :
    (resolve (.immediate 0x99) decimal).value = some 0x99 ∧ decimal.flag .d = true ∧
      isBcd decimal.a = true ∧ isBcd 0x99 = true ∧
      (ChipGeneration.cmos = .cmos → CmosDecSbcCv.asNmos = .asNmos) ∧
      (ChipGeneration.nmos = .cmos → CmosDecSbcCv.draw = .asNmos) := by decide

theorem witness_DecimalSbcOnAllBytes :
    (resolve (.immediate 0xFF) decimal).value = some 0xFF ∧ decimal.flag .d = true ∧
      ¬ (ChipGeneration.nmos = .cmos ∧ CmosDecSbcCv.draw = .draw) ∧
      (ChipGeneration.cmos = .cmos ∧ CmosDecSbcCv.draw = .draw) := by decide

theorem witness_GenerationMattersInDecimalOnly :
    (sample.flag .d = false ∨ (Kind.adc ≠ .adc ∧ Kind.adc ≠ .sbc)) ∧
      (decimal.flag .d = false ∨ (Kind.lda ≠ .adc ∧ Kind.lda ≠ .sbc)) := by decide

/-- Also at S = 0x01, where the second push wraps. -/
theorem witness_JsrPushesReturnAddress :
    (resolve (.absolute 0x0005) sample).ea = some 0x0005 ∧ sample.stackWrapped = false ∧ sample.sp ≠ 0x00 ∧
      { sample with sp := 0x01 }.sp ≠ 0x00 := by decide

/-- The last address, and the full stack. -/
theorem witness_RtsPopsPc :
    ({ sample with sp := 0xFD }.sp ≠ 0xFE ∧ ({ sample with sp := 0xFD }.sp ≠ 0xFF ∨ sample.stackWrapped = true)) ∧
      (full.sp ≠ 0xFE ∧ (full.sp ≠ 0xFF ∨ full.stackWrapped = true)) := by decide

theorem witness_BrkTakesTheTrap :
    { sample with sp := 0x02 }.stackWrapped = false ∧ { sample with sp := 0x02 }.sp ≠ 0x00 ∧
      { sample with sp := 0x02 }.sp ≠ 0x01 := by decide

theorem witness_RtiReturnsFromTheTrap :
    ({ sample with sp := 0xFC }.sp ≠ 0xFD ∧ { sample with sp := 0xFC }.sp ≠ 0xFE ∧ { sample with sp := 0xFC }.sp ≠ 0xFF) ∧
      (full.sp ≠ 0xFD ∧ full.sp ≠ 0xFE ∧ (full.sp ≠ 0xFF ∨ full.stackWrapped = true)) := by decide

theorem witness_ReturnsUndoCallAndTrap :
    (∃ t, exec (.jsr (.absolute 0x0005)) { sample with sp := 0x01 } = .next t) ∧
      ∃ t, exec (.brk .implied) { sample with sp := 0x02 } = .next t := ⟨exists_next (by decide), exists_next (by decide)⟩

theorem witness_FlagWritersAreListed :
    (∃ t, exec (.nop .implied) sample = .next t) ∧ (Instr.nop .implied).kind = .nop ∧
      (∃ t, exec (.bit (.zeroPage 0x10)) sample = .next t) ∧ ∃ t, exec (.ror ⟨true, .accumulator⟩) sample = .next t := ⟨exists_next (by decide), rfl, exists_next (by decide), exists_next (by decide)⟩

theorem witness_RegisterWritersAreListed :
    WellFormed (.asl (.zeroPage 0x10)) ∧ (Instr.asl (.zeroPage 0x10)).operand ≠ .accumulator ∧
      ∃ t, exec (.asl (.zeroPage 0x10)) sample = .next t := ⟨by decide, by decide, exists_next (by decide)⟩

/-- A reader, a store, and the pushes that wrap. -/
theorem witness_MemoryWritersAreListed :
    (∃ t, exec (.adc ⟨.cmos, .zeroPage 0x10⟩) sample = .next t) ∧
      (∃ t, exec (.sta (.zeroPage 0x10)) sample = .next t ∧ (resolve (.zeroPage 0x10) sample).ea ≠ some 0x0011) ∧
      (∃ t, exec (.pha .implied) { sample with sp := 0x00 } = .next t) ∧
      (∃ t, exec (.jsr (.absolute 0x0005)) { sample with sp := 0x01 } = .next t) ∧
      ∃ t, exec (.brk .implied) { sample with sp := 0x02 } = .next t := 
  ⟨exists_next (by decide), ⟨_, rfl, by decide⟩, exists_next (by decide), exists_next (by decide),
    exists_next (by decide)⟩

theorem witness_InstructionsKeepBookkeeping :
    ∃ t, exec (.rti .implied) sample = .next t := exists_next (by decide)

theorem witness_OnlyStackInstructionsCanFault :
    WellFormed (.jmp (.absoluteIndirect 0xFFFF)) ∧
      (Instr.jmp (.absoluteIndirect 0xFFFF)).kind ∉ [Kind.pha, .php, .jsr, .brk, .pla, .plp, .rts, .rti] := by decide

theorem witness_ReportsDoNotSteerTheStep :
    ∃ t, stepWith other defaultTable (at0400 [0x69, 0x01]) = .next t := exists_step (by decide)

/-- A request that changes nothing, and one that does. -/
theorem witness_HostSetsRunStateAndBreakpoints :
    sample.runState = .stopped ∧ sample.runState ≠ .running := by decide

end Sys2Proof.Tests
end

section
/-!
PROOFS. The scope (00_scope.md): CHIP_GENERATION picks between variants of ADC and SBC, and these differ in decimal mode
alone.
-/

namespace Sys2Proof.Machine

open Sys2Proof

/-- Two bodies that agree on the resolved value answer the same; where there is no value neither runs (R96). -/
theorem withValue_congr {r : Resolved} {f g : Byte → State → Host.Outcome State Fault Refusal}
    (h : ∀ v, f v r.after = g v r.after) : withValue r f = withValue r g := by
  cases hv : r.value with
  | none => rw [withValue_none hv, withValue_none hv]
  | some v => rw [withValue_some hv, withValue_some hv, h v]

/-- With D clear ADC is the binary one, under either generation (R141). -/
theorem State.addValue_binary {s : State} (hd : s.flag .d = false) (g : ChipGeneration) (v : Byte) :
    s.addValue g v = s.applyAlu (adcBinary s.a v (s.flag .c)) := by
  simp [State.addValue, adc, hd]

/-- With D clear SBC is the binary one, under either generation, and draws nothing (R145). -/
theorem State.subtractValue_binary {s : State} (hd : s.flag .d = false) (g : ChipGeneration) (w : CmosDecSbcCv)
    (v : Byte) : s.subtractValue g w v = s.applyAlu (sbcBinary s.a v (s.flag .c)) := by
  simp [State.subtractValue, State.sbcDraws, sbc, hd]

/-- The operand leaves D alone, so the variants of ADC meet in binary mode. -/
theorem exec_adc_generation_of_binary {s : State} (hd : s.flag .d = false) (g g' : ChipGeneration) (m : Operand) :
    exec (.adc ⟨g, m⟩) s = exec (.adc ⟨g', m⟩) s := by
  have hpast : (s.past m).flag .d = false := by rw [State.flag_past, hd]
  simp only [exec, execAdc]
  refine withValue_congr fun v => ?_
  rw [resolve_after, State.addValue_binary hpast, State.addValue_binary hpast]

/-- The operand leaves D alone, so the variants of SBC meet in binary mode. -/
theorem exec_sbc_generation_of_binary {s : State} (hd : s.flag .d = false) (g g' : ChipGeneration) (w : CmosDecSbcCv)
    (m : Operand) : exec (.sbc ⟨(g, w), m⟩) s = exec (.sbc ⟨(g', w), m⟩) s := by
  have hpast : (s.past m).flag .d = false := by rw [State.flag_past, hd]
  simp only [exec, execSbc]
  refine withValue_congr fun v => ?_
  rw [resolve_after, State.subtractValue_binary hpast, State.subtractValue_binary hpast]

/-- No kind but ADC and SBC has a variant that CHIP_GENERATION picks (R5, R15). -/
theorem instr_generation {k : Kind} (hadc : k ≠ .adc) (hsbc : k ≠ .sbc) (c : Config) (g : ChipGeneration)
    (m : Operand) : k.instr { c with chipGeneration := g } m = k.instr c m := by
  cases k
  case adc => exact absurd rfl hadc
  case sbc => exact absurd rfl hsbc
  all_goals rfl

/-- Settles O44: the instructions built differ for ADC and SBC alone, and with D clear these two run their binary
variant whatever the generation. -/
theorem generationMattersInDecimalOnly : Obligations.GenerationMattersInDecimalOnly := by
  intro c g k m s h
  by_cases hadc : k = .adc
  · subst hadc
    have hd : s.flag .d = false := h.resolve_right fun hk => hk.1 rfl
    exact exec_adc_generation_of_binary hd g c.chipGeneration m
  by_cases hsbc : k = .sbc
  · subst hsbc
    have hd : s.flag .d = false := h.resolve_right fun hk => hk.2 rfl
    exact exec_sbc_generation_of_binary hd g c.chipGeneration c.cmosDecSbcCv m
  · rw [instr_generation hadc hsbc]

end Sys2Proof.Machine
end

section
/-!
PROOFS. The flags as bits of P (10_state.md R31 to R33): a flag is a binary digit of P's value, and what a write of one
flag and of N and Z leaves.
-/

namespace Sys2Proof.Machine

open Sys2Proof

/-- A flag is the binary digit of P at its position (R31, R32). -/
theorem State.flag_eq_decide (s : State) (f : Flag) : s.flag f = decide (s.p.toNat / 2 ^ f.bit % 2 = 1) := by
  rw [State.flag, ← BitVec.testBit_toNat, Nat.testBit_eq_decide_div_mod_eq]

/-- The same digit as a number, 0 or 1. -/
theorem State.toNat_flag (s : State) (f : Flag) : (s.flag f).toNat = s.p.toNat / 2 ^ f.bit % 2 := by
  rw [State.flag, ← BitVec.testBit_toNat, Nat.toNat_testBit]

/-- P is the sum of the weights of the flags that are set (R32). -/
theorem p_toNat_eq_sum_flags (s : State) :
    s.p.toNat = 128 * (s.flag .n).toNat + 64 * (s.flag .v).toNat + 32 * (s.flag .e).toNat +
      16 * (s.flag .b).toNat + 8 * (s.flag .d).toNat + 4 * (s.flag .i).toNat + 2 * (s.flag .z).toNat +
      (s.flag .c).toNat := by
  have step (k : ℕ) : s.p.toNat / 2 ^ k = 2 * (s.p.toNat / 2 ^ (k + 1)) + s.p.toNat / 2 ^ k % 2 := by
    rw [pow_succ, ← Nat.div_div_eq_div_mul, Nat.div_add_mod]
  have hwhole : s.p.toNat / 2 ^ 0 = s.p.toNat := by rw [pow_zero, Nat.div_one]
  have htop : s.p.toNat / 2 ^ 8 = 0 := Nat.div_eq_of_lt s.p.isLt
  simp only [State.toNat_flag, Flag.bit]
  linarith [hwhole, htop, step 0, step 1, step 2, step 3, step 4, step 5, step 6, step 7]

/-- What keeps the flags outside a list keeps them when it goes on to write one of the list. -/
theorem FlagsKept.setFlag {l : List Flag} {s t : State} (h : FlagsKept l s t) (f : Flag) (on : Bool)
    (hf : l.contains f = true := by rfl) : FlagsKept l s (t.setFlag f on) := by
  intro g hg
  have hgf : g ≠ f := fun e => hg (e ▸ List.contains_iff_mem.mp hf)
  rw [State.flag_setFlag, if_neg hgf, h g hg]

theorem FlagsKept.setNZ {l : List Flag} {s t : State} (h : FlagsKept l s t) (v : Byte)
    (hn : l.contains .n = true := by rfl) (hz : l.contains .z = true := by rfl) : FlagsKept l s (t.setNZ v) :=
  (h.setFlag .n v.msb hn).setFlag .z (v == 0x00) hz

theorem flagsKept_refl (l : List Flag) (s : State) : FlagsKept l s s := fun _ _ => rfl

theorem nzFrom_setNZ (s : State) (v : Byte) : NZFrom v (s.setNZ v) := by
  constructor
  · rw [State.flag_setNZ, if_neg (by decide), if_pos rfl, BitVec.msb_eq_getLsbD_last]
  · rw [State.flag_setNZ, if_pos rfl, Bool.beq_eq_decide_eq]

/-- Settles O53: each flag is the digit of P at its position, so P is the sum of their weights; a write of a flag, and
`setNZ`, change P alone, and of P the named flags. -/
theorem flagsAreTheBitsOfP : Obligations.FlagsAreTheBitsOfP := by
  refine ⟨p_toNat_eq_sum_flags, fun s f on => ⟨?_, ?_, s.setFlag_eq f on⟩,
    fun s v f => (s.setP v).flag_eq_decide f, fun s v => ⟨nzFrom_setNZ s v, ?_, s.setNZ_eq v⟩⟩
  · rw [State.flag_setFlag, if_pos rfl]
  · exact (flagsKept_refl [f] s).setFlag f on (by simp)
  · exact (flagsKept_refl _ s).setNZ v

end Sys2Proof.Machine
end

section
/-!
PROOFS. Who writes which flag (10_state.md R34 to R41): the flags each instruction writes, and the frame of all others.
-/

namespace Sys2Proof.Machine

open Sys2Proof

/-- The flags the rule of each kind writes (R106 to R173). -/
def flagsWritten : Kind → List Flag
  | .lda | .ldx | .ldy | .tax | .tay | .txa | .tya | .tsx | .pla | .and | .ora | .eor | .inc | .dec | .inx | .iny
  | .dex | .dey => [.n, .z]
  | .asl | .lsr | .rol | .ror | .cmp | .cpx | .cpy => [.n, .z, .c]
  | .bit => [.n, .v, .z]
  | .adc | .sbc => [.n, .v, .z, .c]
  | .plp | .rti => [.n, .v, .e, .b, .d, .i, .z, .c]
  | .brk => [.i, .b]
  | .clc | .sec => [.c]
  | .cld | .sed => [.d]
  | .cli | .sei => [.i]
  | .clv => [.v]
  | .sta | .stx | .sty | .txs | .pha | .php | .bcc | .bcs | .beq | .bne | .bmi | .bpl | .bvc | .bvs | .jmp | .jsr
  | .rts | .nop => []

/-- A branch, taken or not, writes PC at most (R151). -/
theorem setPc_of_branch {m : Operand} {s t : State} {taken : State → Bool}
    (h : AddressEffect (resolve m s) t fun ea u => if taken u = true then u.setPc ea else u) :
    ∃ w, t = (s.past m).setPc w := by
  obtain ⟨ea, -, rfl⟩ := h
  dsimp only [resolve_after]
  split
  · exact ⟨ea, rfl⟩
  · exact ⟨(s.past m).pc, rfl⟩

theorem flagsKept_applyAlu (s : State) (r : AluResult) : FlagsKept [.n, .v, .z, .c] s (s.applyAlu r) :=
  have hA : FlagsKept [.n, .v, .z, .c] s (s.setA r.a) := flagsKept_refl _ s
  (((hA.setFlag .c r.c).setFlag .z r.z).setFlag .v r.v).setFlag .n r.n

/-- SBC's draw leaves the adder's flags as they are (R145, R148). -/
theorem flagsKept_subtractValue (s : State) (g : ChipGeneration) (w : CmosDecSbcCv) (v : Byte) :
    FlagsKept [.n, .v, .z, .c] s (s.subtractValue g w v) := by
  intro f hf
  rw [State.flag, (s.subtractValue_alu g w v).2]
  exact flagsKept_applyAlu s _ f hf

theorem flagsKept_compareFlags (k : CmpCarryRule) (r v : Byte) (s : State) :
    FlagsKept [.n, .z, .c] s (compareFlags k r v s) :=
  ((flagsKept_refl _ s).setNZ _).setFlag .c _

/-- The pushes and the load of PC leave the flags as the trap's start set them (R163, R187). -/
theorem flagsKept_trapped (w : Word) (s : State) : FlagsKept [.i, .b] s (trapped w s) :=
  ((flagsKept_refl _ s).setFlag .i true).setFlag .b true

/-- A read-modify-write's result is no flag: its flags are those of its last step (R97). -/
theorem ModifyEffect.flagsKept {m : Operand} {s t : State} {result : Byte → State → Byte}
    {flags : Byte → Byte → State → State} {l : List Flag} (h : ModifyEffect m s t result flags)
    (hl : ∀ v r u, FlagsKept l u (flags v r u)) : FlagsKept l s t := by
  obtain ⟨-, rfl⟩ | ⟨ea, -, rfl⟩ := h
  · exact hl _ _ ((s.past m).setA _)
  · exact hl _ _ ((s.past m).write ea _)

/-- An instruction that completes changes no flag but those its kind writes. -/
theorem exec_flagsKept {i : Instr} {s t : State} (h : exec i s = .next t) : FlagsKept (flagsWritten i.kind) s t := by
  rw [exec_next_iff] at h
  have hs : ∀ l, FlagsKept l s (s.past i.operand) := fun _ _ _ => rfl
  cases i with
  | lda m | ldx m | ldy m | and m | ora m | eor m =>
    obtain ⟨v, -, rfl⟩ := h
    exact (hs _).setNZ _
  | tax m | tay m | txa m | tya m | tsx m | inx m | iny m | dex m | dey m =>
    subst h
    exact (hs _).setNZ _
  | pla m =>
    obtain ⟨-, rfl⟩ := h
    exact (hs _).setNZ _
  | inc m | dec m =>
    rw [Effect] at h
    exact h.flagsKept fun _ r u => (flagsKept_refl _ u).setNZ r
  | asl m | rol m =>
    rw [Effect] at h
    exact h.flagsKept fun _ r u => ((flagsKept_refl _ u).setFlag .c _).setNZ r
  | lsr m =>
    rw [Effect] at h
    exact h.flagsKept fun _ _ u => (((flagsKept_refl _ u).setFlag .c _).setFlag .n _).setFlag .z _
  | ror m =>
    rw [Effect] at h
    refine h.flagsKept fun _ r u => FlagsKept.setNZ ?_ r
    split
    · exact flagsKept_refl _ u
    · exact (flagsKept_refl _ u).setFlag .c _
  | bit m =>
    obtain ⟨v, -, rfl⟩ := h
    exact (((hs _).setFlag .z _).setFlag .n _).setFlag .v _
  | cmp m | cpx m | cpy m =>
    obtain ⟨v, -, rfl⟩ := h
    exact flagsKept_compareFlags _ _ _ _
  | adc m =>
    obtain ⟨v, -, rfl⟩ := h
    exact flagsKept_applyAlu _ _
  | sbc m =>
    obtain ⟨v, -, rfl⟩ := h
    exact flagsKept_subtractValue _ _ _ _
  | plp m | rti m =>
    have hall : ∀ f, f ∈ flagsWritten .plp := fun f => by cases f <;> decide
    exact fun f hf => absurd (hall f) hf
  | brk m =>
    obtain ⟨-, -, -, rfl⟩ := h
    exact flagsKept_trapped _ _
  | clc m | sec m | cld m | sed m | cli m | sei m | clv m =>
    subst h
    exact (hs _).setFlag _ _
  | sta m | stx m | sty m | jmp m =>
    obtain ⟨ea, -, rfl⟩ := h
    exact hs _
  | bcc m | bcs m | beq m | bne m | bmi m | bpl m | bvc m | bvs m =>
    rw [Effect] at h
    obtain ⟨w, rfl⟩ := setPc_of_branch h
    exact hs _
  | pha m | php m =>
    obtain ⟨-, rfl⟩ := h
    exact hs _
  | jsr m =>
    obtain ⟨-, -, ea, -, rfl⟩ := h
    exact hs _
  | rts m =>
    obtain ⟨-, -, rfl⟩ := h
    exact hs _
  | txs m | nop m =>
    subst h
    exact hs _

/-- A flag is kept outside any list that holds all of its writers. -/
theorem exec_flag_kept {i : Instr} {s t : State} (h : exec i s = .next t) {f : Flag} {l : List Kind}
    (hl : ∀ k, f ∈ flagsWritten k → k ∈ l) (hk : i.kind ∉ l) : t.flag f = s.flag f :=
  exec_flagsKept h f fun hf => hk (hl _ hf)

theorem eq_clv_of_kind {i : Instr} (h : i.kind = .clv) : ∃ m, i = .clv m := by
  cases i with
  | clv m => exact ⟨m, rfl⟩
  | _ => cases h

/-- CLV leaves V clear (R173). -/
theorem flag_v_of_exec_clv {m : Operand} {s t : State} (h : exec (.clv m) s = .next t) : t.flag .v = false := by
  obtain rfl : t = (s.past m).setFlag .v false := exec_next_iff.mp h
  rw [State.flag_setFlag, if_pos rfl]

/-- Outside the writers that can set V, it is kept, or CLV clears it (R35). -/
theorem flag_v_of_exec {i : Instr} {s t : State} (h : exec i s = .next t)
    (hk : i.kind ∉ [Kind.plp, .rti, .adc, .sbc, .bit]) (hv : t.flag .v = true) : s.flag .v = true := by
  by_cases hclv : i.kind = .clv
  · obtain ⟨m, rfl⟩ := eq_clv_of_kind hclv
    rw [flag_v_of_exec_clv h] at hv
    cases hv
  · have hwriters : ∀ k, .v ∈ flagsWritten k → k ∈ [Kind.clv, .plp, .rti, .adc, .sbc, .bit] := by
      intro k; cases k <;> decide
    rw [← exec_flag_kept h hwriters (List.not_mem_cons_of_ne_of_not_mem hclv hk), hv]

/-- Settles O54: each flag is kept outside the list of its writers; V becomes 1 in no writer but those listed, since CLV
clears it. -/
theorem flagWritersAreListed : Obligations.FlagWritersAreListed := by
  intro i s t h
  refine ⟨exec_flag_kept h ?_, exec_flag_kept h ?_, exec_flag_kept h ?_, exec_flag_kept h ?_, exec_flag_kept h ?_,
    flag_v_of_exec h, exec_flag_kept h ?_, fun hk => ⟨exec_flag_kept h ?_ hk, exec_flag_kept h ?_ hk⟩⟩
  all_goals intro k; cases k <;> decide

end Sys2Proof.Machine
end

section
/-!
PROOFS. Who writes which register (10_state.md R25 to R29, 46_control_flow.md R166): the registers each instruction
writes, and the frame of all others.
-/

namespace Sys2Proof.Machine

open Sys2Proof

/-- The registers of R25 to R29. `s` stands for S with `stack_wrapped` (R42), which the same operations write. -/
inductive Register where
  | a | x | y | s | pc

/-- The registers the rule of each kind writes in an operand form (R106 to R173); PC where it is not left past the
operand. A read-modify-write kind writes A in Accumulator mode alone (R74). -/
def registersWritten (m : Operand) : Kind → List Register
  | .lda | .txa | .tya | .and | .ora | .eor | .adc | .sbc => [.a]
  | .ldx | .tax | .tsx | .inx | .dex => [.x]
  | .ldy | .tay | .iny | .dey => [.y]
  | .txs | .pha | .php | .plp => [.s]
  | .pla => [.a, .s]
  | .bcc | .bcs | .beq | .bne | .bmi | .bpl | .bvc | .bvs | .jmp => [.pc]
  | .jsr | .rts | .brk | .rti => [.s, .pc]
  | .asl | .lsr | .rol | .ror | .inc | .dec => if m = .accumulator then [.a] else []
  | .sta | .stx | .sty | .bit | .cmp | .cpx | .cpy | .nop | .clc | .sec | .cld | .sed | .cli | .sei | .clv => []

/-- Every register but the named ones is as before. -/
def RegistersKept (but : List Register) (s t : State) : Prop :=
  (.a ∉ but → t.a = s.a) ∧ (.x ∉ but → t.x = s.x) ∧ (.y ∉ but → t.y = s.y) ∧
  (.s ∉ but → t.sp = s.sp ∧ t.stackWrapped = s.stackWrapped) ∧ (.pc ∉ but → t.pc = s.pc)

section

variable {l : List Register} {s t : State}

theorem registersKept_refl (l : List Register) (s : State) : RegistersKept l s s :=
  ⟨fun _ => rfl, fun _ => rfl, fun _ => rfl, fun _ => ⟨rfl, rfl⟩, fun _ => rfl⟩

theorem RegistersKept.setA (h : RegistersKept l s t) (v : Byte) (hl : .a ∈ l) : RegistersKept l s (t.setA v) := by
  obtain ⟨-, hx, hy, hs, hpc⟩ := h
  exact ⟨absurd hl, hx, hy, hs, hpc⟩

theorem RegistersKept.setX (h : RegistersKept l s t) (v : Byte) (hl : .x ∈ l) : RegistersKept l s (t.setX v) := by
  obtain ⟨ha, -, hy, hs, hpc⟩ := h
  exact ⟨ha, absurd hl, hy, hs, hpc⟩

theorem RegistersKept.setY (h : RegistersKept l s t) (v : Byte) (hl : .y ∈ l) : RegistersKept l s (t.setY v) := by
  obtain ⟨ha, hx, -, hs, hpc⟩ := h
  exact ⟨ha, hx, absurd hl, hs, hpc⟩

/-- What TXS, a push and a pop do: S and `stack_wrapped` move, and memory with a push. -/
theorem RegistersKept.moveStack (h : RegistersKept l s t) (sp : Byte) (w : Bool) (mem : Memory) (hl : .s ∈ l) :
    RegistersKept l s { t with sp := sp, stackWrapped := w, mem := mem } := by
  obtain ⟨ha, hx, hy, -, hpc⟩ := h
  exact ⟨ha, hx, hy, absurd hl, hpc⟩

theorem RegistersKept.pushed (h : RegistersKept l s t) (b : Byte) (hl : .s ∈ l) : RegistersKept l s (pushed b t) :=
  h.moveStack _ _ _ hl

theorem RegistersKept.popped (h : RegistersKept l s t) (hl : .s ∈ l) : RegistersKept l s (popped t) :=
  h.moveStack _ _ t.mem hl

theorem RegistersKept.setPc (h : RegistersKept l s t) (w : Word) (hl : .pc ∈ l) : RegistersKept l s (t.setPc w) := by
  obtain ⟨ha, hx, hy, hs, -⟩ := h
  exact ⟨ha, hx, hy, hs, absurd hl⟩

theorem RegistersKept.subtractValue (h : RegistersKept l s t) (g : ChipGeneration) (w : CmosDecSbcCv) (v : Byte)
    (hl : .a ∈ l) : RegistersKept l s (t.subtractValue g w v) := by
  rw [State.subtractValue_eq]
  exact h.setA _ hl

/-- The trap pushes three bytes and loads PC (R187). -/
theorem registersKept_trapped (w : Word) (s : State) : RegistersKept [.s, .pc] s (trapped w s) :=
  have hflags : RegistersKept [.s, .pc] s ((s.setFlag .i true).setFlag .b true) := registersKept_refl _ s
  (((hflags.pushed _ (.head _)).pushed _ (.head _)).pushed _ (.head _)).setPc _ (.tail _ (.head _))

/-- A read-modify-write whose flags change P alone writes A in Accumulator mode and no register in another (R74). -/
theorem ModifyEffect.registersKept {m : Operand} {result : Byte → State → Byte}
    {flags : Byte → Byte → State → State}
    (h : ModifyEffect m s t result flags) (hflags : ∀ v r u, flags v r u = { u with p := (flags v r u).p }) :
    RegistersKept (if m = .accumulator then [.a] else []) (s.past m) t := by
  obtain ⟨rfl, rfl⟩ | ⟨ea, -, rfl⟩ := h
  · rw [hflags]
    exact (registersKept_refl _ _).setA _ (.head _)
  · rw [hflags]
    exact registersKept_refl _ _

end

/-- An instruction that completes leaves PC past its operand and changes no register, but for those its kind writes. -/
theorem exec_registersKept {i : Instr} {s t : State} (h : exec i s = .next t) :
    RegistersKept (registersWritten i.operand i.kind) (s.past i.operand) t := by
  rw [exec_next_iff] at h
  have hs := fun l => registersKept_refl l (s.past i.operand)
  cases i with
  | lda m | and m | ora m | eor m | adc m =>
    obtain ⟨v, -, rfl⟩ := h
    exact (hs _).setA _ (.head _)
  | sbc m =>
    obtain ⟨v, -, rfl⟩ := h
    exact (hs _).subtractValue _ _ _ (.head _)
  | ldx m =>
    obtain ⟨v, -, rfl⟩ := h
    exact (hs _).setX _ (.head _)
  | ldy m =>
    obtain ⟨v, -, rfl⟩ := h
    exact (hs _).setY _ (.head _)
  | bit m | cmp m | cpx m | cpy m =>
    obtain ⟨v, -, rfl⟩ := h
    exact hs _
  | txa m | tya m =>
    subst h
    exact (hs _).setA _ (.head _)
  | tax m | tsx m | inx m | dex m =>
    subst h
    exact (hs _).setX _ (.head _)
  | tay m | iny m | dey m =>
    subst h
    exact (hs _).setY _ (.head _)
  | txs m =>
    subst h
    exact (hs _).moveStack _ _ s.mem (.head _)
  | nop m | clc m | sec m | cld m | sed m | cli m | sei m | clv m =>
    subst h
    exact hs _
  | inc m | dec m | asl m | lsr m | rol m =>
    rw [Effect] at h
    exact h.registersKept fun _ _ _ => rfl
  | ror m =>
    rw [Effect] at h
    refine h.registersKept fun _ _ _ => ?_
    split <;> rfl
  | sta m | stx m | sty m =>
    obtain ⟨ea, -, rfl⟩ := h
    exact hs _
  | jmp m =>
    obtain ⟨ea, -, rfl⟩ := h
    exact (hs _).setPc _ (.head _)
  | bcc m | bcs m | beq m | bne m | bmi m | bpl m | bvc m | bvs m =>
    rw [Effect] at h
    obtain ⟨w, rfl⟩ := setPc_of_branch h
    exact (hs _).setPc w (.head _)
  | pha m | php m =>
    obtain ⟨-, rfl⟩ := h
    exact (hs _).pushed _ (.head _)
  | plp m =>
    obtain ⟨-, rfl⟩ := h
    exact (hs _).popped (.head _)
  | pla m =>
    obtain ⟨-, rfl⟩ := h
    exact ((hs _).popped (.tail _ (.head _))).setA _ (.head _)
  | jsr m =>
    obtain ⟨-, -, ea, -, rfl⟩ := h
    exact (((hs _).pushed _ (.head _)).pushed _ (.head _)).setPc _ (.tail _ (.head _))
  | rts m =>
    obtain ⟨-, -, rfl⟩ := h
    exact (((hs _).popped (.head _)).popped (.head _)).setPc _ (.tail _ (.head _))
  | brk m =>
    obtain ⟨-, -, -, rfl⟩ := h
    exact registersKept_trapped _ _
  | rti m =>
    obtain ⟨-, -, -, rfl⟩ := h
    have hpops : RegistersKept [.s, .pc] (s.past m) (popped (popped (popped (s.past m)))) :=
      (((hs _).popped (.head _)).popped (.head _)).popped (.head _)
    exact RegistersKept.setPc (t := (popped (popped (popped (s.past m)))).setP _) hpops _ (.tail _ (.head _))

/-- Settles O55: each register is kept outside the list of its writers, also of instructions that no row of the table
names. -/
theorem registerWritersAreListed : Obligations.RegisterWritersAreListed := by
  intro i s t _ h
  obtain ⟨ha, hx, hy, hs, hpc⟩ := exec_registersKept h
  refine ⟨fun hk hm => ha (mt ?_ hk), fun hk => hx (mt ?_ hk), fun hk => hy (mt ?_ hk), fun hk => hs (mt ?_ hk),
    fun hk => hpc (mt ?_ hk)⟩
  · generalize i.kind = k
    cases k <;> simp [registersWritten, hm]
  all_goals
    generalize i.kind = k
    cases k <;> simp [registersWritten]

end Sys2Proof.Machine
end

section
/-!
PROOFS. What belongs to the step and the host (10_state.md R43 to R46, 60_exceptions.md R192): no instruction touches
it.
-/

namespace Sys2Proof.Machine

open Sys2Proof

/-- The counters, `run_state`, the guard, `last_opcode_address`, the breakpoints and the report are as before. -/
def BookkeepingKept (s t : State) : Prop :=
  t.numLoaded = s.numLoaded ∧ t.numExecuted = s.numExecuted ∧ t.runState = s.runState ∧ t.bpGuard = s.bpGuard ∧
  t.lastOpcodeAddress = s.lastOpcodeAddress ∧ t.breakpoints = s.breakpoints ∧ t.outcome = s.outcome

/-- A read-modify-write whose flags change P alone writes A or memory besides (R74). -/
theorem ModifyEffect.bookkeepingKept {m : Operand} {s t : State} {result : Byte → State → Byte}
    {flags : Byte → Byte → State → State} (h : ModifyEffect m s t result flags)
    (hflags : ∀ v r u, flags v r u = { u with p := (flags v r u).p }) : BookkeepingKept s t := by
  obtain ⟨-, rfl⟩ | ⟨ea, -, rfl⟩ := h
  · rw [hflags]
    simp [BookkeepingKept]
  · rw [hflags]
    simp [BookkeepingKept]

/-- Settles O57: whatever its shape, an instruction writes registers, P, memory and the count of drawn bits alone. -/
theorem instructionsKeepBookkeeping : Obligations.InstructionsKeepBookkeeping := by
  intro i s t h
  change BookkeepingKept s t
  rw [exec_next_iff] at h
  cases i with
  | lda m | ldx m | ldy m | and m | ora m | eor m | bit m | cmp m | cpx m | cpy m | adc m | sbc m =>
    obtain ⟨v, -, rfl⟩ := h
    simp [BookkeepingKept, State.setResult]
  | sta m | stx m | sty m | jmp m =>
    obtain ⟨ea, -, rfl⟩ := h
    simp [BookkeepingKept]
  | bcc m | bcs m | beq m | bne m | bmi m | bpl m | bvc m | bvs m =>
    rw [Effect] at h
    obtain ⟨w, rfl⟩ := setPc_of_branch h
    simp [BookkeepingKept]
  | inc m | dec m | asl m | lsr m | rol m =>
    rw [Effect] at h
    exact h.bookkeepingKept fun _ _ _ => rfl
  | ror m =>
    rw [Effect] at h
    refine h.bookkeepingKept fun _ _ _ => ?_
    split <;> rfl
  | tax m | tay m | txa m | tya m | tsx m | txs m | inx m | iny m | dex m | dey m | nop m | clc m | sec m | cld m
  | sed m | cli m | sei m | clv m =>
    subst h
    simp [BookkeepingKept]
  | pha m | php m | pla m | plp m =>
    obtain ⟨-, rfl⟩ := h
    simp [BookkeepingKept]
  | jsr m =>
    obtain ⟨-, -, ea, -, rfl⟩ := h
    simp [BookkeepingKept]
  | rts m =>
    obtain ⟨-, -, rfl⟩ := h
    simp [BookkeepingKept]
  | brk m | rti m =>
    obtain ⟨-, -, -, rfl⟩ := h
    simp [BookkeepingKept, trapped]

end Sys2Proof.Machine
end

section
/-!
PROOFS. `run_state` and the report steer no step (10_state.md R44, 60_exceptions.md R174, R196): every effect commutes
with writing the two.
-/

namespace Sys2Proof.Machine

open Sys2Proof

/-- The state with another `run_state` and another report. -/
def State.withReport (s : State) (r : RunState) (o : StepOutcome) : State := { s with runState := r, outcome := o }

section

variable {m : Operand} {s t : State} {r : RunState} {o : StepOutcome}

theorem ea_withReport : (resolve m (s.withReport r o)).ea = (resolve m s).ea := by
  cases m <;> rfl

theorem value_withReport : (resolve m (s.withReport r o)).value = (resolve m s).value := by
  cases m <;> rfl

theorem ValueEffect.withReport {body : Byte → State → State} (h : ValueEffect m s t body)
    (hbody : ∀ v u, body v (u.withReport r o) = (body v u).withReport r o) :
    ValueEffect m (s.withReport r o) (t.withReport r o) body := by
  obtain ⟨v, hv, rfl⟩ := h
  exact ⟨v, value_withReport.trans hv, (hbody v (s.past m)).symm⟩

theorem AddressEffect.withReport {body : Word → State → State} (h : AddressEffect (resolve m s) t body)
    (hbody : ∀ ea u, body ea (u.withReport r o) = (body ea u).withReport r o) :
    AddressEffect (resolve m (s.withReport r o)) (t.withReport r o) body := by
  obtain ⟨ea, hea, rfl⟩ := h
  exact ⟨ea, ea_withReport.trans hea, (hbody ea (s.past m)).symm⟩

/-- A branch whose condition does not read the report. -/
theorem AddressEffect.branch_withReport {taken : State → Bool}
    (h : AddressEffect (resolve m s) t fun ea u => if taken u = true then u.setPc ea else u)
    (htaken : ∀ u, taken (u.withReport r o) = taken u) :
    AddressEffect (resolve m (s.withReport r o)) (t.withReport r o)
      fun ea u => if taken u = true then u.setPc ea else u := by
  refine h.withReport fun ea u => ?_
  rw [htaken]
  cases taken u <;> rfl

theorem ModifyEffect.withReport {result : Byte → State → Byte} {flags : Byte → Byte → State → State}
    (h : ModifyEffect m s t result flags) (hresult : ∀ v u, result v (u.withReport r o) = result v u)
    (hflags : ∀ v b u, flags v b (u.withReport r o) = (flags v b u).withReport r o) :
    ModifyEffect m (s.withReport r o) (t.withReport r o) result flags := by
  have hpast : (s.withReport r o).past m = (s.past m).withReport r o := rfl
  obtain ⟨rfl, rfl⟩ | ⟨ea, hea, rfl⟩ := h
  · refine .inl ⟨rfl, ?_⟩
    rw [hpast, hresult]
    exact (hflags _ _ ((s.past .accumulator).setA _)).symm
  · refine .inr ⟨ea, ea_withReport.trans hea, ?_⟩
    rw [hpast, hresult]
    exact (hflags _ _ ((s.past m).write ea _)).symm

theorem subtractValue_withReport (s : State) (g : ChipGeneration) (w : CmosDecSbcCv) (v : Byte) :
    (s.withReport r o).subtractValue g w v = (s.subtractValue g w v).withReport r o := by
  have hdraws : (s.withReport r o).sbcDraws g w = s.sbcDraws g w := rfl
  rw [State.subtractValue, State.subtractValue, hdraws]
  cases s.sbcDraws g w <;> rfl

/-- What an instruction does, it does from the state with another report. -/
theorem effect_withReport {i : Instr} (h : Effect i s t) (r : RunState) (o : StepOutcome) :
    Effect i (s.withReport r o) (t.withReport r o) := by
  cases i with
  | lda m | ldx m | ldy m | and m | ora m | eor m | bit m | cmp m | cpx m | cpy m | adc m =>
    rw [Effect] at h ⊢
    exact h.withReport fun _ _ => rfl
  | sbc m =>
    rw [Effect] at h ⊢
    exact h.withReport fun v u => subtractValue_withReport u _ _ v
  | sta m | stx m | sty m | jmp m =>
    rw [Effect] at h ⊢
    exact h.withReport fun _ _ => rfl
  | bcc m | bcs m | beq m | bne m | bmi m | bpl m | bvc m | bvs m =>
    rw [Effect] at h ⊢
    exact h.branch_withReport fun _ => rfl
  | inc m | dec m | asl m | lsr m | rol m =>
    rw [Effect] at h ⊢
    exact h.withReport (fun _ _ => rfl) fun _ _ _ => rfl
  | ror m =>
    rw [Effect] at h ⊢
    refine h.withReport (fun _ _ => rfl) fun _ _ _ => ?_
    split <;> rfl
  | tax m | tay m | txa m | tya m | tsx m | txs m | inx m | iny m | dex m | dey m | nop m | clc m | sec m | cld m
  | sed m | cli m | sei m | clv m =>
    subst h
    exact rfl
  | pha m | php m | pla m | plp m =>
    obtain ⟨hstack, rfl⟩ := h
    exact ⟨hstack, rfl⟩
  | jsr m =>
    rw [Effect] at h ⊢
    obtain ⟨hw, h0, h⟩ := h
    exact ⟨hw, h0, h.withReport fun _ _ => rfl⟩
  | rts m =>
    obtain ⟨hpop, hfe, rfl⟩ := h
    exact ⟨hpop, hfe, rfl⟩
  | brk m | rti m =>
    obtain ⟨hstack, h0, h1, rfl⟩ := h
    exact ⟨hstack, h0, h1, rfl⟩

/-- A step that fetches an instruction which completes answers the completion (R96, R98). -/
theorem stepWith_of_exec {c : Config} {table : OpcodeTable} {i : Instr} {rest : List Byte} {u : State}
    (hf : Fetches c s) (hd : decodeWith c table s.bytesAtPc = .ok (i, rest)) (hx : exec i s.fetchOpcode = .next u) :
    stepWith c table s = .next (u.complete c) := by
  rw [stepWith_fetches hf, hd]
  simp only [hx]

/-- Completion reads `run_state` only to write the two fields (R98). -/
theorem complete_withReport (c : Config) (u : State) :
    ((u.withReport r o).complete c).withReport (u.complete c).runState (u.complete c).outcome = u.complete c := by
  rw [complete_eq c (u.withReport r o), complete_eq c u]
  rfl

end

/-- Settles O59: no check before the fetch, no decode and no instruction reads the two fields, so the step ends the same
way but for them. -/
theorem reportsDoNotSteerTheStep : Obligations.ReportsDoNotSteerTheStep := by
  intro c table s t r o h
  obtain ⟨hl, rfl⟩ | ⟨hl, hb, rfl⟩ | ⟨hf, i, rest, u, hd, hx, rfl⟩ := stepWith_next_cases h
  · exact ⟨_, stepWith_atLoadLimit (s := s.withReport r o) hl, rfl⟩
  · exact ⟨_, stepWith_atBreakpoint (s := s.withReport r o) hl hb, rfl⟩
  · have hx' := exec_next_iff.mpr (effect_withReport (exec_next_iff.mp hx) r o)
    exact ⟨_, stepWith_of_exec (s := s.withReport r o) hf hd hx', complete_withReport c u⟩

end Sys2Proof.Machine
end

section
/-!
PROOFS. The invariant (20_memory.md R49, 10_state.md R42, R46): reset establishes it, and every instruction that
completes, and so every step, keeps it.
-/

namespace Sys2Proof.Machine

open Sys2Proof

/-- Settles O5: at reset memory and the breakpoint set are empty and `stack_wrapped` is clear. -/
theorem invariantAtReset : Obligations.InvariantAtReset :=
  stateInv_iff.mpr ⟨Memory.wf_reset, rfl, nofun⟩

section

variable {s t : State}

/-- With `stack_wrapped` clear S is free (R42). -/
theorem stateInv_setSp_unwrapped {v : Byte} (h : StateInv s) : StateInv ((s.setSp v).setStackWrapped false) := by
  obtain ⟨hmem, hbps, -⟩ := stateInv_iff.mp h
  exact stateInv_iff.mpr ⟨hmem, hbps, nofun⟩

/-- SBC's result and its draw are no part of the invariant (R145, R148). -/
theorem stateInv_subtractValue {g : ChipGeneration} {w : CmosDecSbcCv} {v : Byte} :
    StateInv (s.subtractValue g w v) ↔ StateInv s :=
  stateInv_congr (State.mem_subtractValue ..) (State.breakpoints_subtractValue ..)
    (State.stackWrapped_subtractValue ..) (State.sp_subtractValue ..)

/-- The trap pushes three bytes (R163, R187). -/
theorem stateInv_trapped {w : Word} (h : StateInv s) : StateInv (trapped w s) := by
  have hflags : StateInv ((s.setFlag .i true).setFlag .b true) := stateInv_setFlag.mpr (stateInv_setFlag.mpr h)
  exact stateInv_setPc.mpr (stateInv_pushed (stateInv_pushed (stateInv_pushed hflags)))

/-- A read-modify-write whose flags change P alone writes A or one byte of memory besides (R74, R97). -/
theorem ModifyEffect.stateInv {m : Operand} {result : Byte → State → Byte}
    {flags : Byte → Byte → State → State} (h : ModifyEffect m s t result flags)
    (hflags : ∀ v r u, flags v r u = { u with p := (flags v r u).p }) (hs : StateInv (s.past m)) : StateInv t := by
  obtain ⟨-, rfl⟩ | ⟨ea, -, rfl⟩ := h
  · rw [hflags]
    exact stateInv_setP.mpr (stateInv_setA.mpr hs)
  · rw [hflags]
    exact stateInv_setP.mpr (stateInv_write hs)

/-- An instruction that completes keeps the invariant: only writes, pushes, pops and TXS touch what it reads. -/
theorem exec_stateInv {i : Instr} (h : exec i s = .next t) (hs : StateInv s) : StateInv t := by
  rw [exec_next_iff] at h
  have hpast : StateInv (s.past i.operand) := stateInv_past.mpr hs
  cases i with
  | lda m | ldx m | ldy m | and m | ora m | eor m | bit m | cmp m | cpx m | cpy m | adc m =>
    obtain ⟨v, -, rfl⟩ := h
    exact (stateInv_congr rfl rfl rfl rfl).mpr hpast
  | sbc m =>
    obtain ⟨v, -, rfl⟩ := h
    exact stateInv_subtractValue.mpr hpast
  | tax m | tay m | txa m | tya m | tsx m | inx m | iny m | dex m | dey m | nop m | clc m | sec m | cld m | sed m
  | cli m | sei m | clv m =>
    subst h
    exact (stateInv_congr rfl rfl rfl rfl).mpr hpast
  | sta m | stx m | sty m =>
    obtain ⟨ea, -, rfl⟩ := h
    exact stateInv_write hpast
  | inc m | dec m | asl m | lsr m | rol m =>
    rw [Effect] at h
    exact h.stateInv (fun _ _ _ => rfl) hpast
  | ror m =>
    rw [Effect] at h
    refine h.stateInv (fun _ _ _ => ?_) hpast
    split <;> rfl
  | jmp m =>
    obtain ⟨ea, -, rfl⟩ := h
    exact stateInv_setPc.mpr hpast
  | bcc m | bcs m | beq m | bne m | bmi m | bpl m | bvc m | bvs m =>
    rw [Effect] at h
    obtain ⟨w, rfl⟩ := setPc_of_branch h
    exact stateInv_setPc.mpr hpast
  | txs m =>
    subst h
    exact stateInv_setSp_unwrapped hpast
  | pha m | php m =>
    obtain ⟨-, rfl⟩ := h
    exact stateInv_pushed hpast
  | pla m =>
    obtain ⟨-, rfl⟩ := h
    exact stateInv_setNZ.mpr (stateInv_setA.mpr (stateInv_popped hpast))
  | plp m =>
    obtain ⟨-, rfl⟩ := h
    exact stateInv_setFlag.mpr (stateInv_setFlag.mpr (stateInv_setP.mpr (stateInv_popped hpast)))
  | jsr m =>
    obtain ⟨-, -, ea, -, rfl⟩ := h
    exact stateInv_setPc.mpr (stateInv_pushed (stateInv_pushed hpast))
  | rts m =>
    obtain ⟨-, -, rfl⟩ := h
    exact stateInv_setPc.mpr (stateInv_popped (stateInv_popped hpast))
  | brk m =>
    obtain ⟨-, -, -, rfl⟩ := h
    exact stateInv_trapped hpast
  | rti m =>
    obtain ⟨-, -, -, rfl⟩ := h
    exact stateInv_setFlag.mpr
      (stateInv_setPc.mpr (stateInv_setP.mpr (stateInv_popped (stateInv_popped (stateInv_popped hpast)))))

/-- The fetch moves PC and counts (R93). -/
theorem stateInv_fetchOpcode : StateInv s.fetchOpcode ↔ StateInv s := stateInv_congr rfl rfl rfl rfl

/-- Completion counts and reports (R98). -/
theorem stateInv_complete {c : Config} : StateInv (t.complete c) ↔ StateInv t := by
  rw [complete_eq]
  exact stateInv_congr rfl rfl rfl rfl

end

/-- Settles O6: a step that stops before its fetch leaves what the invariant reads, and one that runs an instruction
keeps it through fetch, instruction and completion. -/
theorem everyStepKeepsInvariant : Obligations.EveryStepKeepsInvariant := by
  intro c table s t hs h
  obtain ⟨-, rfl⟩ | ⟨-, -, rfl⟩ | ⟨-, i, rest, u, -, hexec, rfl⟩ := stepWith_next_cases h
  · exact (stateInv_congr rfl rfl rfl rfl).mpr hs
  · exact (stateInv_congr rfl rfl rfl rfl).mpr hs
  · exact stateInv_complete.mpr (exec_stateInv hexec (stateInv_fetchOpcode.mpr hs))

end Sys2Proof.Machine
end

section
/-!
PROOFS. The host's memory access and program load (20_memory.md R50, R51, R69): bounds-checked, byte for byte, without
wrapping.
-/

namespace Sys2Proof.Machine

open Sys2Proof

/-- A load that fits stores its bytes in order from the offset and changes nothing else (R69). -/
theorem loadProgram_fits (s : State) (offset : Nat) (bytes : List Byte) (h : offset + bytes.length ≤ 0x10000) :
    ∃ t, loadProgram s offset bytes = .ok t ∧ t = { s with mem := t.mem } ∧
      (∀ k (hk : k < bytes.length), t.mem.read (offset + k) = bytes[k]) ∧
      ∀ a : Nat, (a < offset ∨ offset + bytes.length ≤ a) → t.mem.read a = s.mem.read a := by
  induction bytes generalizing s offset with
  | nil => exact ⟨s, rfl, rfl, nofun, fun _ _ => rfl⟩
  | cons b rest ih =>
    rw [List.length_cons] at h
    obtain ⟨t, hload, hframe, hbytes, hkept⟩ := ih { s with mem := s.mem.write offset b } (offset + 1) (by omega)
    refine ⟨t, (loadProgram_cons (by omega)).trans hload, hframe, fun k hk => ?_, fun a ha => ?_⟩
    · cases k with
      | zero => exact (hkept offset (by omega)).trans (Memory.read_write_same s.mem offset b)
      | succ k =>
        rw [show offset + (k + 1) = offset + 1 + k by omega]
        exact hbytes k (Nat.lt_of_succ_lt_succ hk)
    · rw [List.length_cons] at ha
      exact (hkept a (by omega)).trans (Memory.read_write_other s.mem b (by omega))

/-- A load that starts in memory, or at its end, and does not fit faults at address 65536 in the state that the bytes
that fit leave (R69, R176). -/
theorem loadProgram_overruns (s : State) (offset : Nat) (bytes : List Byte) (h : offset ≤ 0x10000)
    (hlen : 0x10000 < offset + bytes.length) :
    ∃ t, loadProgram s offset (bytes.take (0x10000 - offset)) = .ok t ∧
      loadProgram s offset bytes = .error (.memoryOutOfRange 0x10000 t) := by
  induction bytes generalizing s offset with
  | nil => simp only [List.length_nil] at hlen; omega
  | cons b rest ih =>
    rw [List.length_cons] at hlen
    rcases Nat.lt_or_eq_of_le h with hlt | rfl
    · rw [show 0x10000 - offset = 0x10000 - (offset + 1) + 1 by omega, List.take_succ_cons, loadProgram_cons hlt,
        loadProgram_cons hlt]
      exact ih _ (offset + 1) hlt (by omega)
    · exact ⟨s, rfl, loadProgram_outside (Nat.le_refl _)⟩

/-- Settles O8: each access by its law in and out of range, the loads by induction on their bytes. -/
theorem programLoadIsBoundsChecked : Obligations.ProgramLoadIsBoundsChecked := by
  refine ⟨fun s addr => hostRead_ok addr.isLt, fun s addr v => ?_,
    fun s addr v h => ⟨hostRead_error h, hostWrite_error h⟩, loadProgram_fits, loadProgram_overruns,
    fun s offset h => ⟨rfl, fun b rest => loadProgram_outside (Nat.le_of_lt h)⟩⟩
  exact ⟨s.write addr v, hostWrite_ok addr.isLt, rfl, State.read_write_same s addr v,
    fun a ha => State.read_write_other s v (List.ne_of_not_mem_cons ha)⟩

end Sys2Proof.Machine
end

section
/-!
PROOFS. The laws of the stack (20_memory.md R64 to R68): an address is two bytes, and a pop takes back what a push left.
-/

namespace Sys2Proof.Machine

open Sys2Proof

section

variable {s t : State} {w : Word} {f : Fault}

/-- The second push of an address runs in the state the first left (R66). -/
theorem pushAddress_of_ok (h : push (hiByte w) s = .ok t) : pushAddress w s = push (loByte w) t := by
  rw [pushAddress, h]

theorem pushAddress_of_error (h : push (hiByte w) s = .error f) : pushAddress w s = .error f := by
  rw [pushAddress, h]

/-- The second pop of an address runs in the state the first left (R67). -/
theorem popAddress_of_ok {u : State} {lo hi : Byte} (h : pop s = .ok (lo, t)) (h' : pop t = .ok (hi, u)) :
    popAddress s = .ok (word lo hi, u) := by
  simp only [popAddress, h, h']

theorem popAddress_of_error (h : pop s = .error f) : popAddress s = .error f := by
  rw [popAddress, h]

theorem popAddress_of_second_error {lo : Byte} (h : pop s = .ok (lo, t)) (h' : pop t = .error f) :
    popAddress s = .error f := by
  simp only [popAddress, h, h']

end

/-- Settles O26: the two bytes of a word are its quotient and remainder by 0x100. -/
theorem addressesAreTwoBytes : Obligations.AddressesAreTwoBytes := by
  refine ⟨fun w s t h => ?_, fun w s f h => ?_, fun s t u lo hi h h' => ?_, fun s f h => popAddress_of_error h,
    fun s t lo f h h' => popAddress_of_second_error h h'⟩
  · rw [← hiByte_eq_ofNat] at h
    rw [← loByte_eq_ofNat, pushAddress_of_ok h]
  · rw [← hiByte_eq_ofNat] at h
    exact pushAddress_of_error h
  · rw [← word_eq_ofNat, popAddress_of_ok h h']

section

variable {s : State}

/-- There is a byte after a push: S is not 0xFF, or it wrapped there. -/
theorem canPop_pushed (b : Byte) (s : State) : CanPop (pushed b s) := by
  by_cases h : s.sp = 0x00
  · exact .inr (by simp [h])
  · refine .inl fun hff => h ?_
    rw [sp_pushed] at hff
    bv_omega

/-- A pop takes back the byte of a push that did not fault while it stands in memory, whatever was written elsewhere
since, and leaves S and `stack_wrapped` as they were (R68). -/
theorem pop_pushed {b : Byte} {mem : Memory} (hwrap : s.stackWrapped = false)
    (hbyte : mem.read s.stackAddress.toNat = b) :
    pop { pushed b s with mem := mem } = .ok (b, { s with mem := mem }) := by
  have hsp : s.sp - 1 + 1 = s.sp := BitVec.sub_add_cancel s.sp 1
  have hpop : poppedByte { pushed b s with mem := mem } = b := by
    rw [poppedByte, State.read, stackAddress_inj.mpr (show _ = s.sp from hsp)]
    exact hbyte
  have hcan : CanPop { pushed b s with mem := mem } := canPop_pushed b s
  rw [pop_ok hcan, hpop, popped, sp_pushed, hsp, ← hwrap]
  rfl

/-- The byte of a push stands in memory after it. -/
theorem mem_pushed_read_same (b : Byte) (s : State) : (pushed b s).mem.read s.stackAddress.toNat = b :=
  State.read_write_same s s.stackAddress b

/-- The next push writes another byte. -/
theorem mem_pushed_pushed_read (lo hi : Byte) (s : State) :
    (pushed lo (pushed hi s)).mem.read s.stackAddress.toNat = hi := by
  have hne : s.stackAddress ≠ (pushed hi s).stackAddress := fun h => by
    have hsp := stackAddress_inj.mp h
    rw [sp_pushed] at hsp
    bv_omega
  exact (State.read_write_other (pushed hi s) lo hne).trans (mem_pushed_read_same hi s)

end

/-- Settles O27: the pops meet the bytes in the reverse order of the pushes, each still in memory. -/
theorem pushThenPopReturns : Obligations.PushThenPopReturns := by
  refine ⟨fun b s t h => ?_, fun w s t h => ?_⟩
  · obtain ⟨hwrap, rfl⟩ := push_eq_ok_iff.mp h
    exact pop_pushed hwrap (mem_pushed_read_same b s)
  · obtain ⟨hwrap, h0, rfl⟩ := pushAddress_eq_ok_iff.mp h
    have hlo := pop_pushed (s := pushed (hiByte w) s) (by simpa using h0) (mem_pushed_read_same (loByte w) _)
    have hhi := pop_pushed hwrap (mem_pushed_pushed_read (loByte w) (hiByte w) s)
    exact (popAddress_of_ok hlo hhi).trans (by rw [word_loByte_hiByte])

end Sys2Proof.Machine
end

section
/-!
PROOFS. The stack holds 256 bytes (20_memory.md R64, R68): a run of pushes, counted by the bytes still free.
-/

namespace Sys2Proof.Machine

open Sys2Proof

/-- How many pushes fit: those from S down to the start of page one, none once S has wrapped (R64; D4, log 9). -/
def freeBytes (s : State) : Nat := if s.stackWrapped then 0 else s.sp.toNat + 1

section

variable {s : State}

theorem freeBytes_of_unwrapped (h : s.stackWrapped = false) : freeBytes s = s.sp.toNat + 1 := by
  simp [freeBytes, h]

theorem freeBytes_eq_zero_iff : freeBytes s = 0 ↔ s.stackWrapped = true := by
  cases h : s.stackWrapped <;> simp [freeBytes, h]

/-- The next byte goes to the highest free address (R27). -/
theorem stackAddress_toNat_of_unwrapped (h : s.stackWrapped = false) : s.stackAddress.toNat = 0xFF + freeBytes s := by
  rw [stackAddress_toNat, freeBytes_of_unwrapped h]
  omega

/-- A push uses up one free byte, also the one that wraps S (R64). -/
theorem freeBytes_pushed (b : Byte) (h : s.stackWrapped = false) : freeBytes (pushed b s) + 1 = freeBytes s := by
  rw [freeBytes_of_unwrapped h]
  by_cases h0 : s.sp = 0x00
  · simp [freeBytes, h0]
  · rw [freeBytes_of_unwrapped (by simpa using h0), sp_pushed]
    bv_omega

end

/-- What pushing a string of bytes does: S counts down, byte k stands k below the first stack address, and everything
else is as before. -/
structure PushedAll (bytes : List Byte) (s t : State) : Prop where
  frame : t = { s with mem := t.mem, sp := s.sp - BitVec.ofNat 8 bytes.length, stackWrapped := t.stackWrapped }
  free : freeBytes t + bytes.length = freeBytes s
  written : ∀ k (h : k < bytes.length), t.mem.read (0xFF + freeBytes s - k) = bytes[k]
  kept : ∀ a, (a + bytes.length ≤ 0xFF + freeBytes s ∨ 0xFF + freeBytes s < a) → t.mem.read a = s.mem.read a

theorem pushedAll_nil (s : State) : PushedAll [] s s :=
  ⟨by simp, rfl, nofun, fun _ _ => rfl⟩

/-- One push, then the rest. -/
theorem PushedAll.cons {b : Byte} {rest : List Byte} {s t : State} (hwrap : s.stackWrapped = false)
    (h : PushedAll rest (pushed b s) t) : PushedAll (b :: rest) s t := by
  obtain ⟨hframe, hfree, hwritten, hkept⟩ := h
  have hone := freeBytes_pushed b hwrap
  have haddr := stackAddress_toNat_of_unwrapped hwrap
  refine ⟨hframe.trans ?_, by rw [List.length_cons]; omega, fun k hk => ?_, fun a ha => ?_⟩
  · have hsp : s.sp - 1 - BitVec.ofNat 8 rest.length = s.sp - BitVec.ofNat 8 (b :: rest).length := by
      rw [List.length_cons]
      bv_omega
    rw [← hsp]
    rfl
  · cases k with
    | zero =>
      rw [hkept _ (by omega), Nat.sub_zero, ← haddr]
      exact State.read_write_same s s.stackAddress b
    | succ k =>
      rw [show 0xFF + freeBytes s - (k + 1) = 0xFF + freeBytes (pushed b s) - k by omega]
      exact hwritten k (Nat.lt_of_succ_lt_succ hk)
  · rw [List.length_cons] at ha
    rw [hkept a (by omega)]
    exact Memory.read_write_other s.mem b (by omega)

/-- As many pushes as there are free bytes do not fault. -/
theorem pushAll_of_length_le {bytes : List Byte} {s : State} (h : bytes.length ≤ freeBytes s) :
    ∃ t, pushAll bytes s = .ok t ∧ PushedAll bytes s t := by
  induction bytes generalizing s with
  | nil => exact ⟨s, rfl, pushedAll_nil s⟩
  | cons b rest ih =>
    rw [List.length_cons] at h
    have hwrap : s.stackWrapped = false := by
      rw [← Bool.not_eq_true, ← freeBytes_eq_zero_iff]
      omega
    have hone := freeBytes_pushed b hwrap
    obtain ⟨t, hpush, hall⟩ := ih (s := pushed b s) (by omega)
    exact ⟨t, by simp only [pushAll, push_ok hwrap, hpush], hall.cons hwrap⟩

/-- Settles O28: an empty stack has 256 free bytes, so 256 pushes fit, bring S around to 0xFF and leave none. -/
theorem stackHolds256Bytes : Obligations.StackHolds256Bytes := by
  intro s bytes hsp hwrap hlen
  have hfree : freeBytes s = 256 := by
    rw [freeBytes_of_unwrapped hwrap, hsp]
    rfl
  obtain ⟨t, hpush, hframe, hleft, hwritten, hkept⟩ := pushAll_of_length_le (bytes := bytes) (s := s) (by omega)
  rw [hfree] at hleft hwritten hkept
  have hfull : t.stackWrapped = true := freeBytes_eq_zero_iff.mp (by omega)
  have hround : s.sp - BitVec.ofNat 8 bytes.length = s.sp := by
    rw [hlen]
    exact BitVec.sub_zero s.sp
  rw [hround, hfull] at hframe
  exact ⟨pop_error hsp hwrap, t, hpush, hframe, hwritten, fun a ha => hkept a.toNat (by omega),
    fun b => push_error hfull⟩

end Sys2Proof.Machine
end

section
/-!
PROOFS. The stack faults of the instructions (20_memory.md R64, R65, 60_exceptions.md R180, R183): where the pushing
instructions overflow and the pulling ones underflow, and what the pushes and pops before the fault leave.
-/

namespace Sys2Proof.Machine

open Sys2Proof

/-! ## Overflow -/

section

variable {m : Operand} {s : State} {w : Word} {f : Fault}

/-- The high byte fits and the low one does not: the first push wraps S (R64, R66). -/
theorem pushAddress_error_second (hwrap : s.stackWrapped = false) (h0 : s.sp = 0x00) :
    pushAddress w s = .error (.stackOverflow (pushed (hiByte w) s)) := by
  rw [pushAddress_of_ok (push_ok hwrap), push_error (by simp [h0])]

/-- JSR needs its address before it pushes, and a fault of a push is its own (R161). -/
theorem exec_jsr_of_error {ea : Word} (hea : (resolve m s).ea = some ea)
    (h : pushAddress (s.past m).pc (s.past m) = .error f) : exec (.jsr m) s = .fault f := by
  simp only [exec, execJsr]
  rw [withAddress_some hea, resolve_after, h]

/-- The state in which BRK's pushes start: past the operand, I and B set (R163, R187). -/
def brkEntry (m : Operand) (s : State) : State := (s.past m).setP (s.p ||| 0x14#8)

theorem setFlag_i_b_past (m : Operand) (s : State) : ((s.past m).setFlag .i true).setFlag .b true = brkEntry m s := by
  have hmask : Flag.i.mask ||| Flag.b.mask = 0x14#8 := by decide
  rw [brkEntry, ← hmask, ← BitVec.or_assoc]
  rfl

/-- A fault of the pushes of the return address is BRK's fault. -/
theorem exec_brk_of_error (h : pushAddress (s.lastOpcodeAddress + 2) (brkEntry m s) = .error f) :
    exec (.brk m) s = .fault f := by
  have htrap : takeBreak (s.lastOpcodeAddress + 2) (s.past m) = .error f := by
    rw [takeBreak, setFlag_i_b_past, h]
  exact congrArg finish htrap

/-- A fault of the push of P is BRK's fault. -/
theorem exec_brk_of_third_error {t : State} (h : pushAddress (s.lastOpcodeAddress + 2) (brkEntry m s) = .ok t)
    (h' : push t.p t = .error f) : exec (.brk m) s = .fault f := by
  have htrap : takeBreak (s.lastOpcodeAddress + 2) (s.past m) = .error f := by
    simp only [takeBreak, setFlag_i_b_past, h, h']
  exact congrArg finish htrap

/-- With `stack_wrapped` set every push faults at once, and nothing is pushed. -/
theorem overflow_of_wrapped (m : Operand) (h : s.stackWrapped = true) :
    exec (.pha m) s = .fault (.stackOverflow (s.past m)) ∧
    exec (.php m) s = .fault (.stackOverflow (s.past m)) ∧
    exec (.brk m) s = .fault (.stackOverflow (brkEntry m s)) ∧
    ∀ ea, (resolve m s).ea = some ea → exec (.jsr m) s = .fault (.stackOverflow (s.past m)) :=
  ⟨congrArg finish (push_error (s := s.past m) h), congrArg finish (push_error (s := s.past m) h),
    exec_brk_of_error (pushAddress_of_error (push_error (s := brkEntry m s) h)),
    fun _ hea => exec_jsr_of_error hea (pushAddress_of_error (push_error (s := s.past m) h))⟩

/-- What one push at S = 0x00 leaves: the byte at 0x0100, S at 0xFF, `stack_wrapped` set. -/
theorem pushed_at_0x00 (b : Byte) (h0 : s.sp = 0x00) :
    pushed b s = { s with mem := (pushed b s).mem, sp := 0xFF, stackWrapped := true } ∧
      (pushed b s).read 0x0100 = b ∧ MemoryKept [0x0100] s (pushed b s) := by
  have haddr : s.stackAddress = 0x0100 := by rw [State.stackAddress, h0]; rfl
  refine ⟨by simp [pushed, h0], by rw [read_pushed, if_pos haddr.symm], fun a ha => ?_⟩
  rw [read_pushed, haddr, if_neg (List.ne_of_not_mem_cons ha)]

/-- What two pushes at S = 0x01 leave: the bytes at 0x0101 and 0x0100, S at 0xFF, `stack_wrapped` set. -/
theorem pushed_pushed_at_0x01 (hi lo : Byte) (h1 : s.sp = 0x01) :
    pushed lo (pushed hi s) = { s with mem := (pushed lo (pushed hi s)).mem, sp := 0xFF, stackWrapped := true } ∧
      (pushed lo (pushed hi s)).read 0x0101 = hi ∧ (pushed lo (pushed hi s)).read 0x0100 = lo ∧
      MemoryKept [0x0101, 0x0100] s (pushed lo (pushed hi s)) := by
  have haddr : s.stackAddress = 0x0101 := by rw [State.stackAddress, h1]; rfl
  obtain ⟨hframe, hlo, hkept⟩ := pushed_at_0x00 (s := pushed hi s) lo (by simp [h1])
  refine ⟨hframe.trans rfl, ?_, hlo, fun a ha => ?_⟩
  · rw [hkept _ (by decide), read_pushed, if_pos haddr.symm]
  · obtain ⟨hne1, hne0⟩ := not_or.mp (mt List.mem_cons.mpr ha)
    rw [hkept a hne0, read_pushed, haddr, if_neg hne1]

end

/-- Settles O29: the push that finds `stack_wrapped` set faults in the state the pushes before it left. -/
theorem overflowKeepsPartialEffects : Obligations.OverflowKeepsPartialEffects := by
  intro m s
  refine ⟨overflow_of_wrapped m, fun hwrap h0 => ⟨fun ea hea => ?_, ?_⟩, fun hwrap h1 => ?_⟩
  · exact ⟨_, exec_jsr_of_error hea (pushAddress_error_second (s := s.past m) hwrap h0),
      pushed_at_0x00 (s := s.past m) _ h0⟩
  · exact ⟨_, exec_brk_of_error (pushAddress_error_second (s := brkEntry m s) hwrap h0),
      pushed_at_0x00 (s := brkEntry m s) _ h0⟩
  · have hne : s.sp ≠ 0x00 := by rw [h1]; decide
    have haddress := pushAddress_eq_ok_iff (w := s.lastOpcodeAddress + 2) (s := brkEntry m s).mpr ⟨hwrap, hne, rfl⟩
    obtain ⟨hframe, hbytes⟩ := pushed_pushed_at_0x01 (s := brkEntry m s) (hiByte (s.lastOpcodeAddress + 2))
      (loByte (s.lastOpcodeAddress + 2)) h1
    have hfull := push_error (b := s.p ||| 0x14#8) (congrArg State.stackWrapped hframe)
    exact ⟨_, exec_brk_of_third_error haddress hfull, hframe, hbytes⟩

/-! ## Underflow -/

section

variable {m : Operand} {s : State} {f : Fault}

/-- A pop at S = 0xFE takes the byte at 0x01FF and leaves the stack empty. -/
theorem pop_at_0xFE (h : s.sp = 0xFE) :
    pop s = .ok (s.read 0x01FF, { s with sp := 0xFF, stackWrapped := false }) := by
  rw [pop_ok (.inl (by rw [h]; decide)), poppedByte, popped, State.stackAddress, State.sp_setSp, h]
  rfl

/-- A pop at S = 0xFD takes the byte at 0x01FE and leaves one byte on the stack. -/
theorem pop_at_0xFD (h : s.sp = 0xFD) :
    pop s = .ok (s.read 0x01FE, { s with sp := 0xFE, stackWrapped := false }) := by
  rw [pop_ok (.inl (by rw [h]; decide)), poppedByte, popped, State.stackAddress, State.sp_setSp, h]
  rfl

/-- With one byte on the stack the second pop of an address underflows (R65, R67). -/
theorem popAddress_at_0xFE (h : s.sp = 0xFE) :
    popAddress s = .error (.stackUnderflow { s with sp := 0xFF, stackWrapped := false }) :=
  popAddress_of_second_error (pop_at_0xFE h) (pop_error rfl rfl)

theorem popAddress_empty (hsp : s.sp = 0xFF) (hwrap : s.stackWrapped = false) :
    popAddress s = .error (.stackUnderflow s) :=
  popAddress_of_error (pop_error hsp hwrap)

/-- A fault of the pops is RTS's fault (R162). -/
theorem exec_rts_of_error (h : popAddress (s.past m) = .error f) : exec (.rts m) s = .fault f := by
  simp only [exec, execRts, withNothing, resolve_after, h]

/-- A fault of the pop of P is RTI's fault (R188). -/
theorem exec_rti_of_error (h : pop (s.past m) = .error f) : exec (.rti m) s = .fault f := by
  have hreturn : returnFromBreak (s.past m) = .error f := by rw [returnFromBreak, h]
  exact congrArg finish hreturn

/-- A fault of the pops of PC is RTI's fault, with P loaded (R188). -/
theorem exec_rti_of_address_error {b : Byte} {t : State} (h : pop (s.past m) = .ok (b, t))
    (h' : popAddress (t.setP b) = .error f) : exec (.rti m) s = .fault f := by
  have hreturn : returnFromBreak (s.past m) = .error f := by simp only [returnFromBreak, h, h']
  exact congrArg finish hreturn

/-- From an empty stack every pop faults at once, and nothing is pulled. -/
theorem underflow_of_empty (m : Operand) (hsp : s.sp = 0xFF) (hwrap : s.stackWrapped = false) :
    exec (.pla m) s = .fault (.stackUnderflow (s.past m)) ∧
    exec (.plp m) s = .fault (.stackUnderflow (s.past m)) ∧
    exec (.rts m) s = .fault (.stackUnderflow (s.past m)) ∧
    exec (.rti m) s = .fault (.stackUnderflow (s.past m)) := by
  have hpop : pop (s.past m) = .error (.stackUnderflow (s.past m)) := pop_error hsp hwrap
  refine ⟨?_, ?_, exec_rts_of_error (popAddress_of_error hpop), exec_rti_of_error hpop⟩
  · simp only [exec, execPla, withNothing, resolve_after, hpop]
  · simp only [exec, execPlp, withNothing, resolve_after, hpop]

end

/-- Settles O30: the pop that finds S = 0xFF and `stack_wrapped` clear faults in the state the pops before it left. -/
theorem underflowKeepsPartialEffects : Obligations.UnderflowKeepsPartialEffects := by
  intro m s top
  refine ⟨underflow_of_empty m, fun hfe => ⟨?_, ?_⟩, fun hfd => ?_⟩
  · exact exec_rts_of_error (popAddress_at_0xFE (s := s.past m) hfe)
  · exact exec_rti_of_address_error (pop_at_0xFE (s := s.past m) hfe) (popAddress_empty rfl rfl)
  · exact exec_rti_of_address_error (pop_at_0xFD (s := s.past m) hfd) (popAddress_at_0xFE rfl)

end Sys2Proof.Machine
end

section
/-!
PROOFS. The round trip of the encoding (30_encoding.md R70 to R72, R89, R100, R101). It has three layers: the opcode map
and the tables of the rules are one relation between kinds, modes and bytes; an operand form and its bytes give each
other; and the parameters restore the variant that the bytes do not hold.
-/

namespace Sys2Proof

/-! ## The opcode byte -/

/-- Every entry of the map of R100 stands in the encoding table of its kind's rule. -/
theorem opcode_of_mem_opcodeRows : ∀ row ∈ opcodeRows, row.2.1.opcode row.2.2 = some row.1 := by
  simp only [opcodeRows, List.forall_mem_append, and_assoc]
  and_intros <;> decide

/-- Every opcode byte of the rules has its entry in the map of R100. -/
theorem defaultTable_of_mem_opcodes (k : Kind) : ∀ entry ∈ k.opcodes, defaultTable entry.2 = some (k, entry.1) := by
  cases k <;> decide

/-- The map of R100 and the encoding tables of the rules are the same assignment. -/
theorem defaultTable_eq_some_iff {op : Byte} {k : Kind} {mode : Mode} :
    defaultTable op = some (k, mode) ↔ k.opcode mode = some op := by
  constructor
  · intro h
    obtain ⟨before, after, hrows, -⟩ := List.lookup_eq_some_iff.mp h
    exact opcode_of_mem_opcodeRows (op, k, mode) (by rw [hrows]; simp)
  · intro h
    obtain ⟨before, after, hops, -⟩ := List.lookup_eq_some_iff.mp h
    exact defaultTable_of_mem_opcodes k (mode, op) (by rw [hops]; simp)

/-- An instruction is well-formed when its kind's rule gives an opcode to its mode. -/
theorem wellFormed_iff {i : Instr} : WellFormed i ↔ ∃ op, i.kind.opcode i.operand.mode = some op := by
  rw [← Option.isSome_iff_exists, Kind.opcode, List.lookup_isSome_iff, WellFormed, Instr.wf, Kind.modes_eq_opcodes]
  simp only [List.contains_iff_mem, List.mem_map, beq_iff_eq]
  exact exists_congr fun _ => and_congr_right fun _ => eq_comm

theorem encode_of_opcode {i : Instr} {op : Byte} (h : i.kind.opcode i.operand.mode = some op) :
    encode i = op :: i.operand.bytes := by
  rw [encode, h]

/-! ## The operand bytes -/

/-- The operand form as the opcode table names it: no row names the page-bug sibling (R89). -/
def Operand.asNamed : Operand → Operand
  | .absoluteIndirectPageBug p => .absoluteIndirect p
  | m => m

@[simp] theorem mode_asNamed (m : Operand) : m.asNamed.mode = m.mode := by cases m <;> rfl

theorem takeWord_bytes (f : Word → Operand) (w : Word) (rest : List Byte) :
    takeWord f (loByte w :: hiByte w :: rest) = some (f w, rest) := by
  rw [takeWord, Machine.word_loByte_hiByte]

/-- The decoder reads an operand back from its bytes, as the table names it, and leaves the bytes after them. -/
theorem decodeOperand_bytes (m : Operand) (rest : List Byte) :
    decodeOperand m.mode (m.bytes ++ rest) = some (m.asNamed, rest) := by
  cases m with
  | absolute | absoluteX | absoluteY | absoluteIndirect | absoluteIndirectPageBug => exact takeWord_bytes _ _ _
  | _ => rfl

theorem takeByte_eq_some {f : Byte → Operand} {bytes rest : List Byte} {m : Operand}
    (h : takeByte f bytes = some (m, rest)) : ∃ n, m = f n ∧ bytes = n :: rest := by
  rcases bytes with _ | ⟨n, tail⟩
  · cases h
  · cases h
    exact ⟨n, rfl, rfl⟩

theorem takeWord_eq_some {f : Word → Operand} {bytes rest : List Byte} {m : Operand}
    (h : takeWord f bytes = some (m, rest)) : ∃ w, m = f w ∧ bytes = loByte w :: hiByte w :: rest := by
  rcases bytes with _ | ⟨lo, _ | ⟨hi, tail⟩⟩
  · cases h
  · cases h
  · cases h
    exact ⟨word lo hi, rfl, by rw [Machine.loByte_word, Machine.hiByte_word]⟩

/-- What the decoder reads is in the table's form, and is the bytes it took (R70). -/
theorem bytes_of_decodeOperand {mode : Mode} {bytes rest : List Byte} {m : Operand}
    (h : decodeOperand mode bytes = some (m, rest)) : m.asNamed = m ∧ m.bytes ++ rest = bytes := by
  cases mode with
  | implied | accumulator =>
    cases h
    exact ⟨rfl, rfl⟩
  | immediate | zeroPage | zeroPageX | zeroPageY | relative | indexedIndirect | indirectIndexed =>
    obtain ⟨n, rfl, rfl⟩ := takeByte_eq_some h
    exact ⟨rfl, rfl⟩
  | absolute | absoluteX | absoluteY | absoluteIndirect =>
    obtain ⟨w, rfl, rfl⟩ := takeWord_eq_some h
    exact ⟨rfl, rfl⟩

/-! ## The variant -/

/-- On JMP the parameters put the operand form they pick in place of the named one (R89). -/
theorem jmpOperand_asNamed {bug : Bool} {m : Operand} (h : m.pickedFor bug) : jmpOperand bug m.asNamed = m := by
  cases m with
  | absoluteIndirect p | absoluteIndirectPageBug p =>
    obtain rfl : bug = _ := h
    rfl
  | _ => rfl

theorem pickedFor_jmpOperand {bug : Bool} {m : Operand} (h : m.asNamed = m) : (jmpOperand bug m).pickedFor bug := by
  cases m with
  | absoluteIndirect p => cases bug <;> rfl
  | absoluteIndirectPageBug p => cases h
  | _ => trivial

/-- Only JMP has the form that the page-bug sibling replaces (R89). -/
theorem asNamed_operand_of_wellFormed {i : Instr} (h : WellFormed i) (hk : i.kind ≠ .jmp) :
    i.operand.asNamed = i.operand := by
  have hindirect : ∀ k : Kind, .absoluteIndirect ∈ k.modes → k = .jmp := fun k => by cases k <;> decide
  cases hm : i.operand with
  | absoluteIndirectPageBug p =>
    rw [WellFormed, Instr.wf, hm, List.contains_iff_mem] at h
    exact absurd (hindirect i.kind h) hk
  | _ => rfl

/-- The parameters that pick an instruction's variant build it from its kind and its named operand (R15, R89). -/
theorem instr_of_builtUnder {c : Config} {i : Instr} (h : WellFormed i) (hc : i.builtUnder c) :
    i.kind.instr c i.operand.asNamed = i := by
  by_cases hk : i.kind = .jmp
  · cases i with
    | jmp m => exact congrArg Instr.jmp (jmpOperand_asNamed hc)
    | _ => cases hk
  · rw [asNamed_operand_of_wellFormed h hk]
    cases i with
    | jmp m => exact absurd rfl hk
    | cmp m | cpx m | cpy m | ror m | adc m | sbc m =>
      obtain ⟨variant, operand⟩ := m
      obtain rfl : variant = _ := hc
      rfl
    | _ => rfl

/-- An instruction built under the parameters from a named operand is in the variant they pick. -/
theorem builtUnder_instr (c : Config) (k : Kind) {m : Operand} (h : m.asNamed = m) : (k.instr c m).builtUnder c := by
  cases k with
  | cmp | cpx | cpy | ror | adc | sbc => rfl
  | jmp => exact pickedFor_jmpOperand h
  | _ => trivial

theorem exists_pickedFor (m : Operand) : ∃ bug, m.pickedFor bug := by
  cases m with
  | absoluteIndirect p => exact ⟨false, rfl⟩
  | absoluteIndirectPageBug p => exact ⟨true, rfl⟩
  | _ => exact ⟨false, trivial⟩

/-- Every variant is picked by some parameters (R15). -/
theorem exists_builtUnder (i : Instr) : ∃ c : Config, i.builtUnder c := by
  cases i with
  | cmp m | cpx m | cpy m => exact ⟨{ Config.conventional with cmpCarryRule := m.variant }, rfl⟩
  | ror m => exact ⟨{ Config.conventional with rorNoCarryBug := m.variant }, rfl⟩
  | adc m => exact ⟨{ Config.conventional with chipGeneration := m.variant }, rfl⟩
  | sbc m =>
    exact ⟨{ Config.conventional with chipGeneration := m.variant.1, cmosDecSbcCv := m.variant.2 }, rfl⟩
  | jmp m =>
    obtain ⟨bug, h⟩ := exists_pickedFor m
    exact ⟨{ Config.conventional with jmpIndirectPageBug := bug }, h⟩
  | _ => exact ⟨Config.conventional, trivial⟩

/-! ## The round trip -/

/-- Under the default table the decoder accepts exactly an opcode byte of the rules with the operand of its mode. -/
theorem decodeWith_cons_eq_ok_iff {c : Config} {op : Byte} {tail rest : List Byte} {i : Instr} :
    decodeWith c defaultTable (op :: tail) = .ok (i, rest) ↔
      ∃ (k : Kind) (m : Operand), k.opcode m.mode = some op ∧ decodeOperand m.mode tail = some (m, rest) ∧
        i = k.instr c m := by
  rw [decodeWith_cons]
  constructor
  · intro h
    split at h
    next => cases h
    next k mode hop =>
      split at h
      next => cases h
      next m rest' hm =>
        cases h
        obtain rfl := mode_of_decodeOperand hm
        exact ⟨k, m, defaultTable_eq_some_iff.mp hop, hm, rfl⟩
  · rintro ⟨k, m, hop, hm, rfl⟩
    simp only [defaultTable_eq_some_iff.mpr hop, hm]

/-- Settles O2: the opcode byte gives kind and mode back, the operand bytes the operand, and the parameters the
variant. -/
theorem decodeOfEncode : Obligations.DecodeOfEncode := by
  refine ⟨fun c i rest hwf hc => ?_, fun i _ => exists_builtUnder i⟩
  obtain ⟨op, hop⟩ := wellFormed_iff.mp hwf
  rw [encode_of_opcode hop, List.cons_append, decodeWith_cons_eq_ok_iff]
  refine ⟨i.kind, i.operand.asNamed, ?_, ?_, (instr_of_builtUnder hwf hc).symm⟩
  · rw [mode_asNamed, hop]
  · rw [mode_asNamed, decodeOperand_bytes]

/-- Settles O3: the same three layers in the other direction. -/
theorem encodeOfDecode : Obligations.EncodeOfDecode := by
  intro c bytes rest i h
  cases bytes with
  | nil => cases h
  | cons op tail =>
    obtain ⟨k, m, hop, hm, rfl⟩ := decodeWith_cons_eq_ok_iff.mp h
    obtain ⟨hnamed, hbytes⟩ := bytes_of_decodeOperand hm
    rw [← Kind.kind_instr c k m, ← Kind.mode_operand_instr c k m] at hop
    refine ⟨wellFormed_iff.mpr ⟨op, hop⟩, builtUnder_instr c k hnamed, ?_⟩
    rw [encode_of_opcode hop, Kind.bytes_operand_instr, List.cons_append, hbytes]

/-- Settles O1: the map of R100, read byte by byte. -/
theorem listedWordsDecode : Obligations.ListedWordsDecode :=
  ⟨rfl, rfl, rfl, rfl, rfl, rfl, rfl, rfl, rfl, rfl, rfl, rfl⟩

end Sys2Proof
end

section
/-!
PROOFS. The step cycle (30_encoding.md R90 to R98): what each way through a step answers, and what it counts.
-/

namespace Sys2Proof.Machine

open Sys2Proof

section

variable {c : Config} {table : OpcodeTable} {s : State} {i : Instr} {rest : List Byte}

/-! ## The ends of a step -/

/-- Stopping writes `run_state` and reports a change of it (R90, R98). -/
theorem stopRun_eq (s : State) (unchanged : StepOutcome) :
    s.stopRun unchanged = { s with
      runState := .stopped
      outcome := if s.runState = .running then .stateChanged .stopped else unchanged } := by
  rw [State.stopRun]
  cases s.runState <;> rfl

/-- Completion below the executed limit (R98). -/
theorem complete_of_below {t : State} (h : ∀ l, c.executedLimit = some l → t.numExecuted + 1 < l) :
    t.complete c = { t with numExecuted := t.numExecuted + 1, outcome := .next } :=
  if_neg (by simp [limitReached_eq_false.mpr h])

/-- Completion at the executed limit stops the run (R98). -/
theorem complete_of_reached {t : State} {l : Nat} (hl : c.executedLimit = some l) (h : l ≤ t.numExecuted + 1) :
    t.complete c = { t with
      numExecuted := t.numExecuted + 1
      runState := .stopped
      outcome := if t.runState = .running then .stateChanged .stopped else .next } :=
  (if_pos (limitReached_eq_true.mpr ⟨l, hl, h⟩)).trans (stopRun_eq _ _)

/-- A fault of the instruction is the step's (R96). -/
theorem stepWith_of_exec_fault {f : Fault} (hf : Fetches c s)
    (hd : decodeWith c table s.bytesAtPc = .ok (i, rest)) (hx : exec i s.fetchOpcode = .fault f) :
    stepWith c table s = .fault f := by
  rw [stepWith_fetches hf, hd]
  simp only [hx]

/-- A byte without an entry is the step's fault (R94, R178). -/
theorem stepWith_undocumented (hf : Fetches c s) (h : table (s.read s.pc) = none) :
    stepWith c table s = .fault (.undocumented (s.read s.pc) s.pc s.fetchOpcode) := by
  have hd : decodeWith c table s.bytesAtPc = .error (.undocumented (s.read s.pc)) := by
    rw [State.bytesAtPc, decodeWith_cons, h]
  rw [stepWith_fetches hf, hd]
  rfl

end

/-! ## The obligations -/

/-- Settles O9: the step is the instruction in the state after the fetch, then completion, which goes by the executed
limit. -/
theorem stepRunsDecodedInstruction : Obligations.StepRunsDecodedInstruction := by
  refine ⟨fun _ => rfl, fun c table s i rest hf hd => ⟨fun t hx => ⟨fun hl => ?_, fun l hl hreached => ?_⟩,
    fun f hx => stepWith_of_exec_fault hf hd hx⟩⟩
  · rw [stepWith_of_exec hf hd hx, complete_of_below hl]
  · rw [stepWith_of_exec hf hd hx, complete_of_reached hl hreached]

/-- Settles O10: the load limit is the step's first check. -/
theorem loadLimitStopsTheStep : Obligations.LoadLimitStopsTheStep := by
  intro c table s l hl hreached
  rw [stepWith_atLoadLimit (limitReached_eq_true.mpr ⟨l, hl, hreached⟩), stopRun_eq]

/-- Settles O11: past the load limit the breakpoint check decides; the fetch clears the guard, and no instruction sets
it (R45). -/
theorem breakpointSignalsThenRuns : Obligations.BreakpointSignalsThenRuns := by
  intro c table s hl
  refine ⟨fun hbp hguard => ?_, fun hguard => ?_⟩
  · exact stepWith_atBreakpoint (limitReached_eq_false.mpr hl) (by simp [State.atBreakpoint, hbp, hguard])
  · have hf : Fetches c s := ⟨hl, hguard⟩
    refine ⟨fun i rest hd => ⟨fun t hx => ⟨?_, stepWith_of_exec hf hd hx⟩,
      fun f hx => stepWith_of_exec_fault hf hd hx⟩, stepWith_undocumented hf⟩
    obtain ⟨-, -, -, hkept, -⟩ := instructionsKeepBookkeeping i _ t hx
    exact hkept

/-- Settles O12: the fetch is all that the step did before the fault. -/
theorem undocumentedOpcodeFaults : Obligations.UndocumentedOpcodeFaults :=
  fun _ _ _ hf h => stepWith_undocumented hf h

/-- Settles O13: the fetch counts the load and completion the execution; a step stopped before its fetch writes only
its report. -/
theorem stepCountsAndKeepsHostState : Obligations.StepCountsAndKeepsHostState := by
  intro c table s t h
  obtain ⟨hl, rfl⟩ | ⟨-, hb, rfl⟩ | ⟨hf, i, rest, u, -, hx, rfl⟩ := stepWith_next_cases h
  · have hstopped : ¬ Fetches c s := fun hf => by simp [fetches_iff.mp hf] at hl
    exact ⟨.inr ⟨hstopped, rfl, rfl, rfl, rfl⟩, rfl⟩
  · have hstopped : ¬ Fetches c s := fun hf => by simp [fetches_iff.mp hf] at hb
    exact ⟨.inr ⟨hstopped, rfl, rfl, rfl, rfl⟩, rfl⟩
  · obtain ⟨hloaded, hexecuted, -, -, -, hbreakpoints, -⟩ := instructionsKeepBookkeeping i _ u hx
    rw [complete_eq]
    exact ⟨.inl ⟨hf, hloaded, congrArg (· + 1) hexecuted⟩, hbreakpoints⟩

end Sys2Proof.Machine
end

section
/-!
PROOFS. The address resolver (30_encoding.md R72 to R88): what the operand bytes at PC become, mode by mode.
-/

namespace Sys2Proof.Machine

open Sys2Proof

section

variable {m : Operand} {s : State}

/-! ## Values and addresses -/

/-- The three modes that yield no address (R75 to R77). -/
theorem ea_eq_none_iff : (resolve m s).ea = none ↔ m.mode ∈ [Mode.implied, .accumulator, .immediate] := by
  rw [resolve_ea]
  cases m <;> simp [effectiveAddress, Operand.mode]

/-- A mode with an address yields it, the byte there and PC past its operand (R73). -/
theorem resolve_of_ea {ea : Word} (h : effectiveAddress m (s.past m) = some ea) :
    resolve m s = { ea := some ea, value := some (s.read ea), after := s.past m } := by
  rw [← value_of_ea h, ← h]
  rfl

@[simp] theorem past_accumulator (s : State) : s.past .accumulator = s := by
  simp [State.past, State.setPc, Operand.mode, Mode.length]

end

/-! ## Zero page and words as numbers -/

theorem zext16_eq_ofNat (b : Byte) : zext16 b = BitVec.ofNat 16 b.toNat := by
  apply BitVec.eq_of_toNat_eq
  simp [zext16]

/-- A sum of bytes is an address that wraps within page zero (R53, R79). -/
theorem zext16_add (b c : Byte) : zext16 (b + c) = BitVec.ofNat 16 ((b.toNat + c.toNat) % 0x100) := by
  rw [zext16_eq_ofNat, BitVec.toNat_add]

theorem zext16_eq_ofNat_mod (b : Byte) : zext16 b = BitVec.ofNat 16 (b.toNat % 0x100) := by
  rw [zext16_eq_ofNat, Nat.mod_eq_of_lt b.isLt]

/-- An indexed word address wraps at 0x10000 (R53, R83). -/
theorem word_add_zext16 (lo hi b : Byte) :
    word lo hi + zext16 b = BitVec.ofNat 16 (lo.toNat + 0x100 * hi.toNat + b.toNat) := by
  rw [word_eq_ofNat, zext16_eq_ofNat, ← BitVec.ofNat_add]

/-- A pointer in page zero: its high byte stands at the next address modulo 0x100 (R87, R88). -/
theorem zext16_succ {b : Byte} {k : Nat} (h : b.toNat = k % 0x100) :
    zext16 (b + 1) = BitVec.ofNat 16 ((k + 1) % 0x100) := by
  rw [zext16_add, h]
  simp

/-! ## The modes -/

/-- Settles O15: the decoder reads a mode's operand from as many bytes as the mode has, and PC advances past them. -/
theorem resolveFetchesAndAdvances : Obligations.ResolveFetchesAndAdvances := by
  refine ⟨fun mode s => ?_, fun s => ⟨?_, ?_⟩⟩
  · obtain ⟨⟨m, rest⟩, hm⟩ :=
      Option.isSome_iff_exists.mp (decodeOperand_isSome mode (s.read s.pc) (s.read (s.pc + 1)) [])
    obtain ⟨-, hbytes⟩ := bytes_of_decodeOperand hm
    obtain rfl := mode_of_decodeOperand hm
    refine ⟨m, rest, hm, rfl, hbytes, Nat.eq_sub_of_add_eq m.length_bytes, rfl, fun ea => value_of_ea, fun hea => ?_⟩
    simpa using ea_eq_none_iff.mp hea
  · rw [resolve, past_implied]
    rfl
  · rw [resolve, past_accumulator]
    rfl

/-- Settles O16: a byte, and a sum of bytes, is an address of page zero. -/
theorem immediateAndZeroPageModes : Obligations.ImmediateAndZeroPageModes := by
  intro s n next at8
  refine ⟨rfl, resolve_of_ea ?_, resolve_of_ea ?_, resolve_of_ea ?_, rfl, rfl, rfl, rfl⟩
  · exact congrArg some (zext16_eq_ofNat_mod n)
  · exact congrArg some (zext16_add n s.x)
  · exact congrArg some (zext16_add n s.y)

/-- Settles O17: the operand is the word of the two bytes, low byte first, and the index is added to it. -/
theorem absoluteModes : Obligations.AbsoluteModes := by
  intro s lo hi base next yields
  refine ⟨⟨.absolute (word lo hi), rfl, resolve_of_ea ?_⟩, ⟨.absoluteX (word lo hi), rfl, resolve_of_ea ?_⟩,
    ⟨.absoluteY (word lo hi), rfl, resolve_of_ea ?_⟩⟩
  · exact congrArg some (word_eq_ofNat lo hi)
  · exact congrArg some (word_add_zext16 lo hi s.x)
  · exact congrArg some (word_add_zext16 lo hi s.y)

/-- Settles O18: the pointer's two bytes stand in page zero, and Y is added to the word they hold. -/
theorem indirectModes : Obligations.IndirectModes := by
  intro s n next byteAt pointer yields
  refine ⟨⟨.indexedIndirect n, rfl, resolve_of_ea ?_⟩, ⟨.indirectIndexed n, rfl, resolve_of_ea ?_⟩⟩
  · have hlo : (n + s.x).toNat = (n.toNat + s.x.toNat) % 0x100 := BitVec.toNat_add n s.x
    change some (word (s.read (zext16 (n + s.x))) (s.read (zext16 (n + s.x + 1)))) = _
    rw [word_eq_ofNat, zext16_add n, zext16_succ hlo]
  · have hlo : n.toNat = n.toNat % 0x100 := (Nat.mod_eq_of_lt n.isLt).symm
    change some (word (s.read (zext16 n)) (s.read (zext16 (n + 1))) + zext16 s.y) = _
    rw [word_add_zext16, zext16_eq_ofNat_mod n, zext16_succ hlo]

end Sys2Proof.Machine
end

section
/-!
PROOFS. The operand requirements (30_encoding.md R96, R105): what an instruction does whose mode does not yield what its
kind needs, and that no row of the table is such a one.
-/

namespace Sys2Proof.Machine

open Sys2Proof

section

variable {m : Operand} {s : State} {i : Instr}

/-- Implied is the one mode without a value (R75). -/
theorem value_eq_none_iff : (resolve m s).value = none ↔ m.mode = .implied := by
  rw [resolve_value]
  cases m <;> simp [operandValue, effectiveAddress, Operand.mode]

/-- An operand does not suffice when the value or the address that the kind needs is not there (R96). -/
theorem operandsSuffice_eq_false_iff :
    operandsSuffice i s = false ↔
      (needsValue i.kind = true ∧ (resolve i.operand s).value = none) ∨
        (needsAddress i.kind i.operand = true ∧ (resolve i.operand s).ea = none) := by
  rw [operandsSuffice, Bool.and_eq_false_iff]
  simp

/-! ## The fault -/

/-- A read-modify-write without a value, or without a place for its result, is incomplete (R74, R96). -/
theorem modify_incomplete {result : Byte → State → Byte} {flags : Byte → Byte → State → State}
    (h : (resolve m s).value = none ∨ (m ≠ .accumulator ∧ (resolve m s).ea = none)) :
    modify m s result flags = incomplete (s.past m) := by
  rw [modify]
  cases hv : (resolve m s).value with
  | none => exact withValue_none hv
  | some v =>
    obtain ⟨hm, hea⟩ := h.resolve_left (by simp [hv])
    rw [withValue_some hv, resolve_after, hea]
    cases m with
    | accumulator => exact absurd rfl hm
    | _ => rfl

/-- An instruction whose operand does not suffice is incomplete: its body has no effect (R96, R105). -/
theorem exec_incomplete (h : operandsSuffice i s = false) : exec i s = incomplete (s.past i.operand) := by
  rw [operandsSuffice_eq_false_iff] at h
  cases i with
  | lda m | ldx m | ldy m | and m | ora m | eor m | bit m =>
    have hv : (resolve m s).value = none := by simpa [needsValue, needsAddress, Instr.kind, Instr.operand] using h
    simp only [exec, execLda, execLdx, execLdy, load, execAnd, execOra, execEor, execBit]
    exact withValue_none hv
  | cmp m | cpx m | cpy m | adc m | sbc m =>
    have hv : (resolve m.operand s).value = none := by
      simpa [needsValue, needsAddress, Instr.kind, Instr.operand] using h
    simp only [exec, execCmp, execCpx, execCpy, execAdc, execSbc]
    exact withValue_none hv
  | sta m | stx m | sty m | bcc m | bcs m | beq m | bne m | bmi m | bpl m | bvc m | bvs m | jmp m | jsr m =>
    have hea : (resolve m s).ea = none := by simpa [needsValue, needsAddress, Instr.kind, Instr.operand] using h
    simp only [exec, execSta, execStx, execSty, store, execBcc, execBcs, execBeq, execBne, execBmi, execBpl, execBvc,
      execBvs, branch, execJmp, execJsr]
    exact withAddress_none hea
  | inc m | dec m | asl m | lsr m | rol m =>
    have hm : (resolve m s).value = none ∨ (m ≠ .accumulator ∧ (resolve m s).ea = none) := by
      simpa [needsValue, needsAddress, Instr.kind, Instr.operand] using h
    simp only [exec, execInc, execDec, execAsl, execLsr, execRol]
    exact modify_incomplete hm
  | ror m =>
    have hm : (resolve m.operand s).value = none ∨ (m.operand ≠ .accumulator ∧ (resolve m.operand s).ea = none) := by
      simpa [needsValue, needsAddress, Instr.kind, Instr.operand] using h
    simp only [exec, execRor]
    exact modify_incomplete hm
  | _ => simp [needsValue, needsAddress, Instr.kind] at h

/-! ## The table -/

theorem implied_not_mem_modes {k : Kind} (h : needsValue k = true) : .implied ∉ k.modes := by
  revert h
  cases k <;> decide

/-- A kind has no opcode in a mode that yields no address where it needs one (R105). Under Immediate, whose byte is
arbitrary, a kind needs an address exactly when it does under Implied. -/
theorem mode_not_mem_modes (k : Kind) (h : needsAddress k m = true)
    (hm : m.mode ∈ [Mode.implied, .accumulator, .immediate]) : m.mode ∉ k.modes := by
  cases m with
  | implied | accumulator =>
    revert h
    cases k <;> decide
  | immediate n =>
    have h' : needsAddress k .implied = true := h
    have hmodes : needsAddress k .implied = true → .immediate ∉ k.modes := by cases k <;> decide
    exact hmodes h'
  | _ => simp [Operand.mode] at hm

/-- Every row of the table yields what its kind needs (R105). -/
theorem operandsSuffice_of_wellFormed (h : WellFormed i) : operandsSuffice i s = true := by
  have hmode : i.operand.mode ∈ i.kind.modes := List.contains_iff_mem.mp h
  by_contra hne
  obtain ⟨hk, hv⟩ | ⟨hk, hea⟩ := operandsSuffice_eq_false_iff.mp (Bool.eq_false_iff.mpr hne)
  · exact implied_not_mem_modes hk (value_eq_none_iff.mp hv ▸ hmode)
  · exact mode_not_mem_modes i.kind hk (ea_eq_none_iff.mp hea) hmode

end

/-- Settles O19: each shape of meaning asks for what its kind needs before its body runs. -/
theorem missingOperandIsIncomplete : Obligations.MissingOperandIsIncomplete :=
  fun _ _ => ⟨exec_incomplete, operandsSuffice_of_wellFormed⟩

end Sys2Proof.Machine
end

section
/-!
PROOFS. Who writes memory, and where (20_memory.md R64, 30_encoding.md R74): the addresses each instruction may store
to, and the frame of all others.
-/

namespace Sys2Proof.Machine

open Sys2Proof

/-- The addresses the rule of each kind stores to: that of the mode, or the stack slots from S down (R64, R74). -/
def addressesWritten (m : Operand) (s : State) : Kind → List Word
  | .sta | .stx | .sty | .inc | .dec | .asl | .lsr | .rol | .ror => (resolve m s).ea.toList
  | .pha | .php => [s.stackAddress]
  | .jsr => [s.stackAddress, (s.setSp (s.sp - 1)).stackAddress]
  | .brk => [s.stackAddress, (s.setSp (s.sp - 1)).stackAddress, (s.setSp (s.sp - 2)).stackAddress]
  | _ => []

/-- Memory is as before but for stores to the named addresses; with none named it is the same data. -/
def WritesOnly (but : List Word) (s t : State) : Prop := MemoryKept but s t ∧ (but = [] → t.mem = s.mem)

section

variable {l : List Word} {s t : State}

theorem writesOnly_of_mem_eq (l : List Word) (h : t.mem = s.mem) : WritesOnly l s t :=
  ⟨fun a _ => by rw [State.read, h, State.read], fun _ => h⟩

theorem WritesOnly.mem_congr {u : State} (h : WritesOnly l s t) (hu : u.mem = t.mem) : WritesOnly l s u := by
  obtain ⟨hkept, hnone⟩ := h
  refine ⟨fun a ha => ?_, fun hl => hu.trans (hnone hl)⟩
  rw [State.read, hu]
  exact hkept a ha

theorem WritesOnly.write (h : WritesOnly l s t) {a : Word} (v : Byte) (ha : a ∈ l) : WritesOnly l s (t.write a v) := by
  obtain ⟨hkept, -⟩ := h
  refine ⟨fun b hb => ?_, fun hl => absurd ha (hl ▸ List.not_mem_nil)⟩
  have hne : b ≠ a := fun hba => hb (hba ▸ ha)
  rw [State.read_write_other t v hne, hkept b hb]

/-- A push stores to the slot at S (R64). -/
theorem WritesOnly.pushed (h : WritesOnly l s t) (b : Byte) (ha : t.stackAddress ∈ l) : WritesOnly l s (pushed b t) :=
  (h.write b ha).mem_congr rfl

/-- Two pushes store to the slots at S and below it (R66). -/
theorem writesOnly_pushed_pushed (hmem : t.mem = s.mem) (hsp : t.sp = s.sp) (hi lo : Byte) :
    WritesOnly [s.stackAddress, (s.setSp (s.sp - 1)).stackAddress] s (pushed lo (pushed hi t)) := by
  refine ((writesOnly_of_mem_eq _ hmem).pushed hi ?_).pushed lo ?_
  · simp [stackAddress_inj, hsp]
  · simp [stackAddress_inj, hsp]

/-- The three pushes of the trap store to the slots at S and the two below it (R187). -/
theorem writesOnly_trapped (hmem : t.mem = s.mem) (hsp : t.sp = s.sp) (w : Word) :
    WritesOnly [s.stackAddress, (s.setSp (s.sp - 1)).stackAddress, (s.setSp (s.sp - 2)).stackAddress] s
      (trapped w t) := by
  have hthird : s.sp - 1#8 - 1#8 = s.sp - 2#8 := by rw [BitVec.sub_sub]; rfl
  have hflags := writesOnly_of_mem_eq (t := (t.setFlag .i true).setFlag .b true)
    [s.stackAddress, (s.setSp (s.sp - 1)).stackAddress, (s.setSp (s.sp - 2)).stackAddress] hmem
  refine WritesOnly.mem_congr
    (((hflags.pushed (hiByte w) ?_).pushed (loByte w) ?_).pushed ((t.setFlag .i true).setFlag .b true).p ?_) rfl
  · simp [stackAddress_inj, hsp]
  · simp [stackAddress_inj, hsp]
  · simp [stackAddress_inj, hsp, hthird]

/-- A read-modify-write whose flags change P alone stores to the mode's address, or nowhere in Accumulator mode
(R74). -/
theorem ModifyEffect.writesOnly {m : Operand} {result : Byte → State → Byte} {flags : Byte → Byte → State → State}
    (h : ModifyEffect m s t result flags) (hflags : ∀ v r u, (flags v r u).mem = u.mem) :
    WritesOnly (resolve m s).ea.toList s t := by
  obtain ⟨-, rfl⟩ | ⟨ea, hea, rfl⟩ := h
  · exact writesOnly_of_mem_eq _ (hflags _ _ _)
  · have hpast : WritesOnly (resolve m s).ea.toList s (s.past m) := writesOnly_of_mem_eq _ rfl
    exact (hpast.write _ (by simp [hea])).mem_congr (hflags _ _ _)

end

/-- An instruction that completes stores to the addresses of its kind alone. -/
theorem exec_writesOnly {i : Instr} {s t : State} (h : exec i s = .next t) :
    WritesOnly (addressesWritten i.operand s i.kind) s t := by
  rw [exec_next_iff] at h
  have hpast : ∀ l, WritesOnly l s (s.past i.operand) := fun l => writesOnly_of_mem_eq l rfl
  cases i with
  | lda m | ldx m | ldy m | and m | ora m | eor m | bit m | cmp m | cpx m | cpy m | adc m =>
    obtain ⟨v, -, rfl⟩ := h
    exact (hpast _).mem_congr rfl
  | sbc m =>
    obtain ⟨v, -, rfl⟩ := h
    exact (hpast _).mem_congr (State.mem_subtractValue ..)
  | tax m | tay m | txa m | tya m | tsx m | txs m | inx m | iny m | dex m | dey m | nop m | clc m | sec m | cld m
  | sed m | cli m | sei m | clv m =>
    subst h
    exact (hpast _).mem_congr rfl
  | sta m | stx m | sty m =>
    obtain ⟨ea, hea, rfl⟩ := h
    exact (hpast _).write _ (Option.mem_toList.mpr hea)
  | inc m | dec m | asl m | lsr m | rol m =>
    rw [Effect] at h
    exact h.writesOnly fun _ _ _ => rfl
  | ror m =>
    rw [Effect] at h
    refine h.writesOnly fun _ _ _ => ?_
    split <;> rfl
  | jmp m =>
    obtain ⟨ea, -, rfl⟩ := h
    exact (hpast _).mem_congr rfl
  | bcc m | bcs m | beq m | bne m | bmi m | bpl m | bvc m | bvs m =>
    rw [Effect] at h
    obtain ⟨w, rfl⟩ := setPc_of_branch h
    exact (hpast _).mem_congr rfl
  | pha m | php m =>
    obtain ⟨-, rfl⟩ := h
    exact (hpast _).pushed _ (.head _)
  | pla m | plp m =>
    obtain ⟨-, rfl⟩ := h
    exact (hpast _).mem_congr rfl
  | jsr m =>
    obtain ⟨-, -, ea, -, rfl⟩ := h
    exact (writesOnly_pushed_pushed (t := s.past m) rfl rfl _ _).mem_congr rfl
  | rts m =>
    obtain ⟨-, -, rfl⟩ := h
    exact (hpast _).mem_congr rfl
  | brk m =>
    obtain ⟨-, -, -, rfl⟩ := h
    exact writesOnly_trapped (t := s.past m) rfl rfl _
  | rti m =>
    obtain ⟨-, -, -, rfl⟩ := h
    exact (hpast _).mem_congr (by simp)

/-- Settles O56: memory is kept outside the addresses of the instruction's kind, and of the kinds not listed there are
none. -/
theorem memoryWritersAreListed : Obligations.MemoryWritersAreListed := by
  intro i s t h
  obtain ⟨hkept, hnone⟩ := exec_writesOnly h
  refine ⟨fun hk => hnone ?_, fun hk a ha => hkept a ?_, fun hk => ?_, fun hk => ?_, fun hk => ?_⟩
  · revert hk
    cases i.kind <;> simp [addressesWritten]
  · have hea : addressesWritten i.operand s i.kind = (resolve i.operand s).ea.toList := by
      revert hk
      cases i.kind <;> simp [addressesWritten]
    rw [hea, Option.mem_toList]
    exact ha
  · have hslots : addressesWritten i.operand s i.kind = [s.stackAddress] := by
      revert hk
      cases i.kind <;> simp [addressesWritten]
    rwa [hslots] at hkept
  · rwa [hk] at hkept
  · rwa [hk] at hkept

end Sys2Proof.Machine
end

section
/-!
PROOFS. Data movement (41_data_movement.md): the loads and transfers are one register write and then `setNZ`, the
stores are one byte written in the state past the operand.
-/

namespace Sys2Proof.Machine

open Sys2Proof

variable {i : Instr} {s u : State}

/-- An instruction that ends in `setNZ(v)` (R33), after a body that left P alone: of the body's state P alone changes,
and of P the two flags. -/
theorem exec_of_setNZ {v : Byte} (h : exec i s = .next (u.setNZ v)) (hp : u.p = s.p) :
    ∃ t, exec i s = .next t ∧ t = { u with p := t.p } ∧ NZFrom v t ∧ FlagsKept [.n, .z] s t := by
  have hkept : FlagsKept [.n, .z] s u := fun f _ => by rw [State.flag, hp, State.flag]
  exact ⟨u.setNZ v, h, u.setNZ_eq v, nzFrom_setNZ u v, hkept.setNZ v⟩

/-- An instruction that ends in one byte written, past its operand: it is there, and no other byte changed (R50). -/
theorem exec_of_write {m : Operand} {ea : Word} {v : Byte} (h : exec i s = .next ((s.past m).write ea v)) :
    ∃ t, exec i s = .next t ∧ t = { s with mem := t.mem, pc := (s.past m).pc } ∧ t.read ea = v ∧
      MemoryKept [ea] s t := by
  have hpast : WritesOnly [ea] s (s.past m) := writesOnly_of_mem_eq _ rfl
  obtain ⟨hkept, -⟩ := hpast.write v (.head _)
  exact ⟨(s.past m).write ea v, h, rfl, State.read_write_same .., hkept⟩

/-- Settles O20: each load is the register write and `setNZ` of the value its mode yields. -/
theorem loadsWriteTheirRegister : Obligations.LoadsWriteTheirRegister := by
  intro m s v hv
  refine ⟨?lda, ?ldx, ?ldy⟩
  case lda => exact exec_of_setNZ (u := (s.past m).setA v) (exec_next_iff.mpr ⟨v, hv, rfl⟩) rfl
  case ldx => exact exec_of_setNZ (u := (s.past m).setX v) (exec_next_iff.mpr ⟨v, hv, rfl⟩) rfl
  case ldy => exact exec_of_setNZ (u := (s.past m).setY v) (exec_next_iff.mpr ⟨v, hv, rfl⟩) rfl

/-- Settles O21: each store is one byte, the register's, written to the address its mode yields. -/
theorem storesWriteTheirAddress : Obligations.StoresWriteTheirAddress := by
  intro m s ea hea
  refine ⟨?sta, ?stx, ?sty⟩
  case sta | stx | sty => exact exec_of_write (exec_next_iff.mpr ⟨ea, hea, rfl⟩)

/-- Settles O22: each transfer is the write of its destination and `setNZ` of its source, and needs no operand. -/
theorem transfersCopyWithNZ : Obligations.TransfersCopyWithNZ := by
  intro m s
  refine ⟨?tax, ?tay, ?txa, ?tya, ?tsx⟩
  case tax => exact exec_of_setNZ (u := (s.past m).setX s.a) (exec_next_iff.mpr rfl) rfl
  case tay => exact exec_of_setNZ (u := (s.past m).setY s.a) (exec_next_iff.mpr rfl) rfl
  case txa => exact exec_of_setNZ (u := (s.past m).setA s.x) (exec_next_iff.mpr rfl) rfl
  case tya => exact exec_of_setNZ (u := (s.past m).setA s.y) (exec_next_iff.mpr rfl) rfl
  case tsx => exact exec_of_setNZ (u := (s.past m).setX s.sp) (exec_next_iff.mpr rfl) rfl

/-- Settles O23: TXS writes S and its wrap mark, NOP nothing, each past its operand and with no flag write. -/
theorem txsAndNop : Obligations.TxsAndNop := by
  intro m s
  exact ⟨exec_next_iff (i := .txs m).mpr rfl, exec_next_iff (i := .nop m).mpr rfl⟩

end Sys2Proof.Machine
end

section
/-!
PROOFS. One byte pushed or pulled (42_stack.md R118 to R121): the push of R64 and the pop of R65, past the operand.
-/

namespace Sys2Proof.Machine

open Sys2Proof

variable {i : Instr} {m : Operand} {s : State}

/-- An instruction that ends in one push, past its operand: the byte is at the slot of S, and no other changed (R64). -/
theorem exec_of_pushed {b : Byte} (h : exec i s = .next (pushed b (s.past m))) :
    ∃ t, exec i s = .next t ∧
      t = { s with mem := t.mem, sp := s.sp - 1, stackWrapped := s.sp == 0x00, pc := (s.past m).pc } ∧
      t.read s.stackAddress = b ∧ MemoryKept [s.stackAddress] s t := by
  have hpast : WritesOnly [s.stackAddress] s (s.past m) := writesOnly_of_mem_eq _ rfl
  obtain ⟨hkept, -⟩ := hpast.pushed b (.head _)
  exact ⟨pushed b (s.past m), h, rfl, mem_pushed_read_same b (s.past m), hkept⟩

/-- Settles O24: each is the push of its register, and the slot of S is in page one (R27). -/
theorem pushesStoreOneByte : Obligations.PushesStoreOneByte := by
  intro m s hwrap
  refine ⟨stackAddress_toNat s, ?pha, ?php⟩
  case pha | php => exact exec_of_pushed (exec_next_iff.mpr ⟨hwrap, rfl⟩)

/-- Settles O25: PLA is the pop, the write of A and `setNZ`; PLP is the pop and the write of P, E forced to 1 and B to
0. -/
theorem pullsLoadOneByte : Obligations.PullsLoadOneByte := by
  intro m s hcan
  refine ⟨?pla, ?plp⟩
  case pla =>
    exact exec_of_setNZ (u := (popped (s.past m)).setA (poppedByte s)) (exec_next_iff.mpr ⟨hcan, rfl⟩) rfl
  case plp => exact exec_next_iff (i := .plp m).mpr ⟨hcan, rfl⟩

end Sys2Proof.Machine
end

section
/-!
PROOFS. Logic, comparison, increment and decrement (43_logic_arith.md): AND, ORA, EOR and the index counts end in
`setNZ`, BIT and the comparisons write flags alone, INC and DEC put their result back where the mode writes (R74).
-/

namespace Sys2Proof.Machine

open Sys2Proof

/-! ## Bytes -/

/-- `b + 1` and `b - 1` as the statements count, modulo 0x100 on naturals (R17). -/
theorem byte_add_one (b : Byte) : b + 1 = BitVec.ofNat 8 (b.toNat + 1) := BitVec.add_def b 1

theorem byte_sub_one (b : Byte) : b - 1 = BitVec.ofNat 8 (b.toNat + 255) := by
  rw [BitVec.sub_def, Nat.add_comm]
  rfl

/-- Bit 7 of a difference, on naturals (R126). -/
theorem msb_sub (r v : Byte) : (r - v).msb = decide (128 ≤ (r.toNat + 256 - v.toNat) % 256) := by
  rw [BitVec.msb_eq_decide, BitVec.toNat_sub, Nat.add_comm _ r.toNat, ← Nat.add_sub_assoc v.isLt.le]

section

variable {i : Instr} {m : Operand} {s t u : State} {v : Byte}

/-! ## Comparison -/

/-- Equal bytes compare with C = 1, under both rules (R126, D2). -/
theorem compareCarry_self (rule : CmpCarryRule) (r : Byte) : compareCarry rule r r = true := by
  cases rule with
  | unsignedGe => exact decide_eq_true le_rfl
  | bit7OfDifference => rw [compareCarry, BitVec.sub_self]; rfl

/-- An instruction that is `compare(R, v)` (R126) past its operand. -/
theorem exec_of_compareFlags {rule : CmpCarryRule} {r : Byte}
    (h : exec i s = .next (compareFlags rule r v (s.past m))) :
    ∃ t, exec i s = .next t ∧ t = { s with pc := (s.past m).pc, p := t.p } ∧
      t.flag .n = decide (128 ≤ (r.toNat + 256 - v.toNat) % 256) ∧ t.flag .z = decide (r = v) ∧
      (rule = .unsignedGe → t.flag .c = decide (v.toNat ≤ r.toNat)) ∧
      (rule = .bit7OfDifference → t.flag .c = !t.flag .n) ∧
      (t.flag .z = true → t.flag .c = true) ∧
      FlagsKept [.n, .z, .c] s t := by
  have hn : (compareFlags rule r v (s.past m)).flag .n = (r - v).msb := by simp
  have hz : (compareFlags rule r v (s.past m)).flag .z = decide (r = v) := by
    simp [Bool.beq_eq_decide_eq, BitVec.sub_eq_iff_eq_add]
  have hc : (compareFlags rule r v (s.past m)).flag .c = compareCarry rule r v := by simp
  refine ⟨_, h, compareFlags_eq rule r v (s.past m), hn.trans (msb_sub r v), hz, ?_, ?_, fun heq => ?_,
    flagsKept_compareFlags rule r v (s.past m)⟩
  · rintro rfl
    exact hc
  · rintro rfl
    rw [hc, hn, compareCarry]
  · obtain rfl : r = v := of_decide_eq_true (hz.symm.trans heq)
    rw [hc, compareCarry_self]

/-! ## Read-modify-write -/

/-- A result stays written back when flags are set after it (R97). -/
theorem WrittenBack.of_p {r : Byte} (h : WrittenBack m r s u) (ht : t = { u with p := t.p }) : WrittenBack m r s t := by
  obtain ⟨hacc, hmem⟩ := h
  refine ⟨fun hm => ?_, fun ea hea => ?_⟩
  · rw [ht, hacc hm]
  · obtain ⟨hframe, hread, hkept⟩ := hmem ea hea
    rw [ht]
    exact ⟨by rw [hframe], hread, hkept⟩

theorem writtenBack_setA (r : Byte) (s : State) : WrittenBack .accumulator r s ((s.past .accumulator).setA r) :=
  ⟨fun _ => rfl, nofun⟩

theorem writtenBack_write {ea : Word} (hea : (resolve m s).ea = some ea) (r : Byte) :
    WrittenBack m r s ((s.past m).write ea r) := by
  refine ⟨fun hm => ?_, fun ea' hea' => ?_⟩
  · subst hm
    cases hea
  · obtain rfl : ea = ea' := Option.some.inj (hea.symm.trans hea')
    have hpast : WritesOnly [ea] s (s.past m) := writesOnly_of_mem_eq _ rfl
    obtain ⟨hkept, -⟩ := hpast.write r (.head _)
    exact ⟨rfl, State.read_write_same .., hkept⟩

/-- A read-modify-write on a mode that lets it run completes: the result is written back, and P is the flags' alone
(R74, R97). -/
theorem modify_of_modifiable {result : Byte → State → Byte} {flags : Byte → Byte → State → State}
    (h : Modifiable m s v) (hflags : ∀ v r u, flags v r u = { u with p := (flags v r u).p }) :
    ∃ u, u.p = s.p ∧ modify m s result flags = .next (flags v (result v (s.past m)) u) ∧
      WrittenBack m (result v (s.past m)) s (flags v (result v (s.past m)) u) := by
  obtain ⟨hv, rfl | hea⟩ := h
  · obtain rfl : s.a = v := Option.some.inj hv
    exact ⟨(s.past .accumulator).setA _, rfl, modify_accumulator, (writtenBack_setA _ s).of_p (hflags ..)⟩
  · obtain ⟨ea, hea⟩ := Option.ne_none_iff_exists'.mp hea
    obtain rfl : s.read ea = v := Option.some.inj ((value_of_ea hea).symm.trans hv)
    exact ⟨(s.past m).write ea _, rfl, modify_memory hea, (writtenBack_write hea _).of_p (hflags ..)⟩

/-- A read-modify-write whose flags are `setNZ` of its result (R130, R131). -/
theorem exec_of_modify_setNZ {result : Byte → State → Byte} (h : Modifiable m s v)
    (hexec : exec i s = modify m s result fun _ r u => u.setNZ r) :
    ∃ t, exec i s = .next t ∧ WrittenBack m (result v (s.past m)) s t ∧ NZFrom (result v (s.past m)) t ∧
      FlagsKept [.n, .z] s t := by
  obtain ⟨u, hp, hmodify, hback⟩ := modify_of_modifiable (result := result) h fun _ r u => u.setNZ_eq r
  have hkept : FlagsKept [.n, .z] s u := fun f _ => by rw [State.flag, hp, State.flag]
  exact ⟨_, hexec.trans hmodify, hback, nzFrom_setNZ u _, hkept.setNZ _⟩

end

/-! ## The obligations -/

/-- Settles O31: each is the write of A and `setNZ` of the value's bitwise combination with A. -/
theorem logicWritesAccumulator : Obligations.LogicWritesAccumulator := by
  intro m s v hv
  refine ⟨?and, ?ora, ?eor⟩
  case and => exact exec_of_setNZ (u := (s.past m).setA (s.a &&& v)) (exec_next_iff.mpr ⟨v, hv, rfl⟩) rfl
  case ora => exact exec_of_setNZ (u := (s.past m).setA (s.a ||| v)) (exec_next_iff.mpr ⟨v, hv, rfl⟩) rfl
  case eor => exact exec_of_setNZ (u := (s.past m).setA (s.a ^^^ v)) (exec_next_iff.mpr ⟨v, hv, rfl⟩) rfl

/-- Settles O32: BIT is three flag writes past its operand, each read back through the ones after it. -/
theorem bitTestsTheOperand : Obligations.BitTestsTheOperand := by
  intro m s v hv
  have hpast : FlagsKept [.z, .n, .v] s (s.past m) := fun _ _ => rfl
  refine ⟨_, exec_next_iff.mpr ⟨v, hv, rfl⟩, rfl, ?z, ?n, ?v, ((hpast.setFlag .z _).setFlag .n _).setFlag .v _⟩
  case z => simp [Bool.beq_eq_decide_eq]
  case n | v => simp

/-- Settles O33: each is `compare` of its register with the value its mode yields. -/
theorem comparesSetNZC : Obligations.ComparesSetNZC := by
  intro rule m s v hv
  refine ⟨?cmp, ?cpx, ?cpy⟩
  case cmp | cpx | cpy => exact exec_of_compareFlags (exec_next_iff.mpr ⟨v, hv, rfl⟩)

/-- Settles O34: each is the read-modify-write of the value plus or minus one, with `setNZ` of its result. -/
theorem incAndDecWriteBack : Obligations.IncAndDecWriteBack := by
  intro m s v h
  rw [← byte_add_one, ← byte_sub_one]
  refine ⟨?inc, ?dec⟩
  case inc => exact exec_of_modify_setNZ (result := fun v _ => v + 1) h rfl
  case dec => exact exec_of_modify_setNZ (result := fun v _ => v - 1) h rfl

/-- Settles O35: each is the write of its index register and `setNZ` of the register plus or minus one. -/
theorem indexCountsWithNZ : Obligations.IndexCountsWithNZ := by
  intro m s
  simp only [← byte_add_one, ← byte_sub_one]
  refine ⟨?inx, ?iny, ?dex, ?dey⟩
  case inx => exact exec_of_setNZ (u := (s.past m).setX (s.x + 1)) (exec_next_iff.mpr rfl) rfl
  case iny => exact exec_of_setNZ (u := (s.past m).setY (s.y + 1)) (exec_next_iff.mpr rfl) rfl
  case dex => exact exec_of_setNZ (u := (s.past m).setX (s.x - 1)) (exec_next_iff.mpr rfl) rfl
  case dey => exact exec_of_setNZ (u := (s.past m).setY (s.y - 1)) (exec_next_iff.mpr rfl) rfl

end Sys2Proof.Machine
end

section
/-!
PROOFS. Shifts and rotates (44_shift_rotate.md): each is a read-modify-write whose carry is the bit moved out, so its
result and flags are those of `modify`, and the frame of P is that of its kind.
-/

namespace Sys2Proof.Machine

open Sys2Proof

/-! ## Bytes -/

/-- The shifts by one on naturals, modulo 0x100 (R17). -/
theorem byte_shiftLeft_one (b : Byte) : b <<< 1 = BitVec.ofNat 8 (2 * b.toNat) := by
  rw [BitVec.shiftLeft_eq_mul_twoPow, BitVec.mul_def, Nat.mul_comm]
  rfl

theorem byte_shiftRight_one (b : Byte) : b >>> 1 = BitVec.ofNat 8 (b.toNat / 2) := by
  apply BitVec.eq_of_toNat_eq
  rw [BitVec.toNat_ushiftRight, Nat.shiftRight_eq_div_pow, BitVec.toNat_ofNat]
  omega

theorem flagAt_eq_ofNat (on : Bool) (k : Nat) : flagAt on k = BitVec.ofNat 8 (2 ^ k * on.toNat) := by
  apply BitVec.eq_of_toNat_eq
  cases on <;> simp [flagAt, Nat.shiftLeft_eq]

/-- A flag put into a bit that is 0 adds its weight. -/
theorem or_flagAt {b : Byte} {k : Nat} (hfree : b.getLsbD k = false) (on : Bool) :
    b ||| flagAt on k = b + BitVec.ofNat 8 (2 ^ k * on.toNat) := by
  have hdisjoint : b &&& flagAt on k = 0 := by
    cases on with
    | false => exact BitVec.and_zero
    | true =>
      have hbit : flagAt true k = BitVec.twoPow 8 k := rfl
      rw [hbit, BitVec.and_twoPow, hfree, if_neg Bool.false_ne_true]
      rfl
  rw [← BitVec.add_eq_or_of_and_eq_zero _ _ hdisjoint, flagAt_eq_ofNat]

/-- The old carry goes into the bit the left shift freed (R139). -/
theorem byte_rotateLeft (b : Byte) (c : Bool) :
    b <<< 1 ||| flagAt c 0 = BitVec.ofNat 8 (2 * b.toNat + c.toNat) := by
  have hfree : (b <<< 1).getLsbD 0 = false := by simp
  rw [or_flagAt hfree, byte_shiftLeft_one, ← BitVec.ofNat_add, pow_zero, one_mul]

/-- The old carry goes into the bit the right shift freed (R140). -/
theorem byte_rotateRight (b : Byte) (c : Bool) :
    b >>> 1 ||| flagAt c 7 = BitVec.ofNat 8 (b.toNat / 2 + 128 * c.toNat) := by
  have hfree : (b >>> 1).getLsbD 7 = false := by simp
  rw [or_flagAt hfree, byte_shiftRight_one, ← BitVec.ofNat_add]
  rfl

section

variable {i : Instr} {m : Operand} {s : State} {v : Byte}

/-- A read-modify-write whose flags are a carry and then `setNZ` of its result (R137, R139, R140). -/
theorem exec_of_modify_carry {result : Byte → State → Byte} {carry : Byte → State → State} {c : Bool}
    (h : Modifiable m s v) (hexec : exec i s = modify m s result fun v r u => (carry v u).setNZ r)
    (hcarry : ∀ v u, carry v u = { u with p := (carry v u).p }) (hc : ∀ u, u.p = s.p → (carry v u).flag .c = c)
    (hkind : flagsWritten i.kind = [.n, .z, .c]) :
    ∃ t, exec i s = .next t ∧ WrittenBack m (result v (s.past m)) s t ∧ NZFrom (result v (s.past m)) t ∧
      t.flag .c = c ∧ FlagsKept [.n, .z, .c] s t := by
  have hflags (v r : Byte) (u : State) : (carry v u).setNZ r = { u with p := ((carry v u).setNZ r).p } := by
    rw [hcarry v u]
    rfl
  obtain ⟨u, hp, hmodify, hback⟩ := modify_of_modifiable (result := result) h hflags
  have hnext := hexec.trans hmodify
  exact ⟨_, hnext, hback, nzFrom_setNZ _ _, by simpa using hc u hp, hkind ▸ exec_flagsKept hnext⟩

end

/-! ## The obligations -/

/-- Settles O36: ASL is the shift with `setNZ` of its result; LSR writes N = 0 itself, after C and before Z. -/
theorem shiftsWriteBack : Obligations.ShiftsWriteBack := by
  intro m s v h
  rw [← byte_shiftLeft_one, ← byte_shiftRight_one]
  refine ⟨?asl, ?lsr⟩
  case asl =>
    exact exec_of_modify_carry (result := fun v _ => v <<< 1) (carry := fun v u => u.setFlag .c (v.getLsbD 7)) h rfl
      (fun _ _ => rfl) (by simp) rfl
  case lsr =>
    obtain ⟨u, -, hnext, hback⟩ := modify_of_modifiable (result := fun v _ => v >>> 1)
      (flags := fun v r u => ((u.setFlag .c (v.getLsbD 0)).setFlag .n false).setFlag .z (r == 0x00)) h fun _ _ _ => rfl
    exact ⟨_, hnext, hback, by simp, by simp [Bool.beq_eq_decide_eq], by simp, exec_flagsKept (i := .lsr m) hnext⟩

/-- Settles O37: each rotates the old carry into the bit its shift left free; under ROR_NO_CARRY_BUG ROR's carry step
is none. -/
theorem rotatesWriteBack : Obligations.RotatesWriteBack := by
  intro noCarryBug m s v h
  rw [← byte_rotateLeft, ← byte_rotateRight]
  refine ⟨?rol, ?ror⟩
  case rol =>
    exact exec_of_modify_carry (result := fun v s => v <<< 1 ||| flagAt (s.flag .c) 0)
      (carry := fun v u => u.setFlag .c (v.getLsbD 7)) h rfl (fun _ _ => rfl) (by simp) rfl
  case ror =>
    refine exec_of_modify_carry (result := fun v s => v >>> 1 ||| flagAt (s.flag .c) 7)
      (carry := fun v u => if noCarryBug then u else u.setFlag .c (v.getLsbD 0)) h rfl (fun _ _ => ?frame)
      (fun u hp => ?oldC) rfl
    case frame => cases noCarryBug <;> rfl
    case oldC =>
      cases noCarryBug with
      | false => exact (u.flag_setFlag .c .c _).trans (if_pos rfl)
      | true => exact congrArg (BitVec.getLsbD · Flag.c.bit) hp

end Sys2Proof.Machine
end

section
/-!
PROOFS. ADC and SBC (45_adc_sbc.md): each is the adder's result put into A and the four flags past the operand. Binary
SBC is binary ADC of the complement, and on decimal numbers the digit-wise algorithms give the digits of the sum and of
the difference.
-/

namespace Sys2Proof.Machine

open Sys2Proof

/-! ## The adder's result in the state -/

section

variable {m : Operand} {s : State} {v : Byte}

/-- The adder of a decimal ADC goes by the generation (R141). -/
def adcDecimal (g : ChipGeneration) (a v : Byte) (carry : Bool) : AluResult :=
  match g with
  | .nmos => adcDecimalNmos a v carry
  | .cmos => adcDecimalCmos a v carry

theorem State.addValue_decimal (hd : s.flag .d = true) (g : ChipGeneration) :
    s.addValue g v = s.applyAlu (adcDecimal g s.a v (s.flag .c)) := by
  rw [State.addValue, hd]
  cases g <;> rfl

/-- But for a draw, decimal SBC is the NMOS one under both generations (R147, R148). -/
theorem State.subtractValue_decimal {g : ChipGeneration} {w : CmosDecSbcCv} (hd : s.flag .d = true)
    (h : ¬ (g = .cmos ∧ w = .draw)) : s.subtractValue g w v = s.applyAlu (sbcDecimalNmos s.a v (s.flag .c)) := by
  rw [State.subtractValue, State.sbcDraws, hd]
  cases g with
  | nmos => rfl
  | cmos =>
    cases w with
    | asNmos => rfl
    | draw => exact absurd ⟨rfl, rfl⟩ h

/-- A drawn decimal SBC takes C and V from the two free bits at the counter, and moves it past them (R148). -/
theorem State.subtractValue_drawn (hd : s.flag .d = true) :
    s.subtractValue .cmos .draw v = { s.applyAlu
      { sbcDecimalNmos s.a v (s.flag .c) with
        c := Config.freeBit s.freeCount, v := Config.freeBit (s.freeCount + 1) } with
      freeCount := s.freeCount + 2 } := by
  rw [State.subtractValue, State.sbcDraws, hd]
  rfl

/-! On the value its mode yields, past the operand, each completes as the adder in its mode. -/

theorem exec_adc_binary (hv : (resolve m s).value = some v) (hd : s.flag .d = false) (g : ChipGeneration) :
    exec (.adc ⟨g, m⟩) s = .next ((s.past m).applyAlu (adcBinary s.a v (s.flag .c))) :=
  exec_next_iff.mpr ⟨v, hv, (State.addValue_binary (s := s.past m) hd g v).symm⟩

theorem exec_adc_decimal (hv : (resolve m s).value = some v) (hd : s.flag .d = true) (g : ChipGeneration) :
    exec (.adc ⟨g, m⟩) s = .next ((s.past m).applyAlu (adcDecimal g s.a v (s.flag .c))) :=
  exec_next_iff.mpr ⟨v, hv, (State.addValue_decimal (s := s.past m) hd g).symm⟩

theorem exec_sbc_binary (hv : (resolve m s).value = some v) (hd : s.flag .d = false) (g : ChipGeneration)
    (w : CmosDecSbcCv) :
    exec (.sbc ⟨(g, w), m⟩) s = .next ((s.past m).applyAlu (sbcBinary s.a v (s.flag .c))) :=
  exec_next_iff.mpr ⟨v, hv, (State.subtractValue_binary (s := s.past m) hd g w v).symm⟩

theorem exec_sbc_decimal {g : ChipGeneration} {w : CmosDecSbcCv} (hv : (resolve m s).value = some v)
    (hd : s.flag .d = true) (h : ¬ (g = .cmos ∧ w = .draw)) :
    exec (.sbc ⟨(g, w), m⟩) s = .next ((s.past m).applyAlu (sbcDecimalNmos s.a v (s.flag .c))) :=
  exec_next_iff.mpr ⟨v, hv, (State.subtractValue_decimal (s := s.past m) hd h).symm⟩

theorem exec_sbc_drawn (hv : (resolve m s).value = some v) (hd : s.flag .d = true) :
    exec (.sbc ⟨(.cmos, .draw), m⟩) s = .next { (s.past m).applyAlu
      { sbcDecimalNmos s.a v (s.flag .c) with
        c := Config.freeBit s.freeCount, v := Config.freeBit (s.freeCount + 1) } with
      freeCount := s.freeCount + 2 } :=
  exec_next_iff.mpr ⟨v, hv, (State.subtractValue_drawn (s := s.past m) hd).symm⟩

end

section

variable (s : State) (r : AluResult)

theorem flag_c_applyAlu : (s.applyAlu r).flag .c = r.c := by simp
theorem flag_z_applyAlu : (s.applyAlu r).flag .z = r.z := by simp
theorem flag_v_applyAlu : (s.applyAlu r).flag .v = r.v := by simp
theorem flag_n_applyAlu : (s.applyAlu r).flag .n = r.n := by simp

/-- An adder whose Z and N are those of a byte leaves that byte's. -/
theorem nzFrom_applyAlu {r : AluResult} {b : Byte} (hz : r.z = (b == 0x00)) (hn : r.n = b.msb) :
    NZFrom b (s.applyAlu r) := by
  constructor
  · rw [flag_n_applyAlu, hn, BitVec.msb_eq_getLsbD_last]
  · rw [flag_z_applyAlu, hz, Bool.beq_eq_decide_eq]

/-- The adder leaves D, I, B and E alone, past the operand too (R141, R145). -/
theorem flagsKept_past_applyAlu (m : Operand) : FlagsKept [.n, .z, .c, .v] s ((s.past m).applyAlu r) :=
  have hA : FlagsKept [.n, .z, .c, .v] s ((s.past m).setA r.a) := fun _ _ => rfl
  (((hA.setFlag .c r.c).setFlag .z r.z).setFlag .v r.v).setFlag .n r.n

end

/-! ## Binary addition and subtraction -/

section

variable (a v : Byte) (c : Bool)

theorem carryIn_eq_toNat : carryIn c = c.toNat := by cases c <;> rfl

theorem and_0x80_bne_zero (b : Byte) : (b &&& 0x80#8 != 0x00#8) = b.getLsbD 7 := by
  have hmask : (0x80#8 : Byte) = BitVec.twoPow 8 7 := rfl
  rw [hmask, BitVec.and_twoPow]
  cases b.getLsbD 7 <;> rfl

/-- The same-sign test of R142 and R143 on the sign bits: the operands' are the same and the result's is another. -/
theorem overflowAdd_eq (r : Byte) :
    overflowAdd a v r = (a.getLsbD 7 == v.getLsbD 7 && a.getLsbD 7 != r.getLsbD 7) := by
  rw [overflowAdd, and_0x80_bne_zero, BitVec.getLsbD_and, BitVec.getLsbD_not, BitVec.getLsbD_xor, BitVec.getLsbD_xor]
  cases a.getLsbD 7 <;> cases v.getLsbD 7 <;> rfl

/-- The test of R146 and R147 is that of an addition of the complement. -/
theorem overflowSub_eq_overflowAdd_not (r : Byte) : overflowSub a v r = overflowAdd a (~~~v) r := by
  rw [overflowSub, overflowAdd, ← BitVec.not_xor_right, BitVec.not_not]

/-- Subtraction with borrow is addition of the complement with carry (R145, R146). -/
theorem sbcFull_eq : sbcFull a v c = a.toNat + (~~~v).toNat + carryIn c := by
  rw [sbcFull, BitVec.toNat_not]

theorem getLsbD_seven_eq_decide (b : Byte) : b.getLsbD 7 = decide (128 ≤ b.toNat) := by
  rw [← BitVec.msb_eq_getLsbD_last, BitVec.msb_eq_decide]

/-- V of a binary sum: the signed sum leaves the range of a byte (R142). -/
theorem overflowAdd_sum :
    overflowAdd a v (BitVec.ofNat 8 (a.toNat + v.toNat + c.toNat)) =
      decide (a.toInt + v.toInt + (c.toNat : Int) < -128 ∨ 127 < a.toInt + v.toInt + (c.toNat : Int)) := by
  have ha := a.isLt
  have hv := v.isLt
  have hc := c.toNat_lt
  rw [overflowAdd_eq, BitVec.toInt, BitVec.toInt, Bool.eq_iff_iff]
  simp only [getLsbD_seven_eq_decide, BitVec.toNat_ofNat, Bool.and_eq_true, beq_iff_eq, bne_iff_ne, ne_eq,
    decide_eq_decide, decide_eq_true_eq]
  omega

/-- Subtraction with borrow on naturals, the borrow as the statements write it (R145). -/
theorem sbcFull_add_borrow : sbcFull a v c + v.toNat + (1 - c.toNat) = a.toNat + 256 := by
  have hv := v.isLt
  have hc := c.toNat_le
  rw [sbcFull, carryIn_eq_toNat]
  omega

/-- V of a binary difference: the signed difference leaves the range of a byte (R146). -/
theorem overflowSub_difference :
    overflowSub a v (BitVec.ofNat 8 (sbcFull a v c)) =
      decide (a.toInt - v.toInt - ((1 - c.toNat : ℕ) : Int) < -128 ∨
        127 < a.toInt - v.toInt - ((1 - c.toNat : ℕ) : Int)) := by
  have hsum : a.toInt + (~~~v).toInt + (c.toNat : Int) = a.toInt - v.toInt - ((1 - c.toNat : ℕ) : Int) := by
    have hv := v.isLt
    have hc := c.toNat_le
    rw [BitVec.toInt, BitVec.toInt, BitVec.toInt, BitVec.toNat_not]
    omega
  rw [overflowSub_eq_overflowAdd_not, sbcFull_eq, carryIn_eq_toNat, overflowAdd_sum, hsum]

end

/-! ## Three decimal digits -/

theorem isBcd_iff {b : Byte} : isBcd b = true ↔ b.toNat / 16 ≤ 9 ∧ b.toNat % 16 ≤ 9 := by
  rw [isBcd, Bool.and_eq_true, decide_eq_true_eq, decide_eq_true_eq]

theorem bcdValue_lt {b : Byte} (h : isBcd b = true) : bcdValue b < 100 := by
  obtain ⟨hhigh, hlow⟩ := isBcd_iff.mp h
  rw [bcdValue]
  omega

/-- A number with its last two digits as BCD in the low byte (R149) and its hundreds above them. -/
def bcdNumber (n : ℕ) : ℕ := 0x100 * (n / 100) + 0x10 * (n % 100 / 10) + n % 10

theorem toNat_ofNat_bcdNumber (n : ℕ) : (BitVec.ofNat 8 (bcdNumber n)).toNat = 16 * (n % 100 / 10) + n % 10 := by
  rw [BitVec.toNat_ofNat, bcdNumber]
  omega

theorem isBcd_ofNat_bcdNumber (n : ℕ) : isBcd (BitVec.ofNat 8 (bcdNumber n)) = true := by
  rw [isBcd_iff, toNat_ofNat_bcdNumber]
  omega

theorem bcdValue_ofNat_bcdNumber (n : ℕ) : bcdValue (BitVec.ofNat 8 (bcdNumber n)) = n % 100 := by
  rw [bcdValue, toNat_ofNat_bcdNumber]
  omega

/-- The hundreds show above the two digits, 0x99 at most. -/
theorem lt_bcdNumber_iff (n : ℕ) : 0x99 < bcdNumber n ↔ 100 ≤ n := by
  rw [bcdNumber]
  omega

theorem le_bcdNumber_iff (n : ℕ) : 0x100 ≤ bcdNumber n ↔ 100 ≤ n := by
  rw [bcdNumber]
  omega

section

variable (a v : Byte) (c : Bool)

/-! ## Decimal addition -/

/-- On decimal numbers the digits of the sum (R143). -/
theorem adcDecimalSum_of_bcd {a v : Byte} (ha : isBcd a = true) (hv : isBcd v = true) :
    adcDecimalSum a v c = bcdNumber (bcdValue a + bcdValue v + c.toNat) := by
  obtain ⟨haHigh, haLow⟩ := isBcd_iff.mp ha
  obtain ⟨hvHigh, hvLow⟩ := isBcd_iff.mp hv
  have hc := c.toNat_le
  generalize hsum : bcdValue a + bcdValue v + c.toNat = sum
  rw [bcdValue, bcdValue] at hsum
  have hsign : adcSignResult a v c = 16 * (sum / 10) + sum % 10 := by
    simp only [adcSignResult, adcLowDigit, carryIn_eq_toNat]
    split <;> omega
  simp only [adcDecimalSum, hsign, bcdNumber]
  split <;> omega

/-- Z of NMOS decimal ADC is the binary sum's (R143). -/
theorem adcDecimalNmos_z : (adcDecimalNmos a v c).z = decide ((a.toNat + v.toNat + c.toNat) % 256 = 0) := by
  rw [adcDecimalNmos, carryIn_eq_toNat, Bool.beq_eq_decide_eq, decide_eq_decide, ← BitVec.toNat_inj,
    BitVec.toNat_ofNat]
  rfl

/-! ## Decimal subtraction -/

/-- The sign of an integer of k bits in two's complement is the bit above them (R17). -/
theorem intBit_eq_decide_neg {x : Int} {k : ℕ} (hlo : -2 ^ k ≤ x) (hhi : x < 2 ^ k) :
    intBit x k = decide (x < 0) := by
  have hk : (0 : Int) < 2 ^ k := by positivity
  rw [intBit]
  by_cases hx : x < 0
  · have hdiv : x / 2 ^ k = -1 := by
      rw [Int.ediv_eq_iff_of_pos hk]
      omega
    rw [hdiv, decide_eq_true hx]
    rfl
  · have hdiv : x / 2 ^ k = 0 := Int.ediv_eq_zero_of_lt (by omega) hhi
    rw [hdiv, decide_eq_false hx]
    rfl

/-- The low digit's borrow shows in its sign (R147). -/
theorem sbcLowDigit_eq :
    sbcLowDigit a v c =
      let low : Int := (a.toNat % 16 : ℕ) - (v.toNat % 16 : ℕ) - ((1 - c.toNat : ℕ) : Int)
      if low < 0 then (low - 6) % 16 - 16 else low := by
  have hc := c.toNat_le
  have hborrow : 1 - (carryIn c : Int) = ((1 - c.toNat : ℕ) : Int) := by
    rw [carryIn_eq_toNat]
    omega
  simp only [sbcLowDigit, hborrow]
  rw [intBit_eq_decide_neg (by omega) (by omega)]
  simp only [decide_eq_true_eq]

/-- The high digit's borrow shows in the sign of the difference (R147). -/
theorem sbcDecimalDifference_eq :
    sbcDecimalDifference a v c =
      let high : Int := sbcLowDigit a v c + 16 * (a.toNat / 16 : ℕ) - 16 * (v.toNat / 16 : ℕ)
      if high < 0 then high - 0x60 else high := by
  have ha := a.isLt
  have hv := v.isLt
  have hlow : -16 ≤ sbcLowDigit a v c ∧ sbcLowDigit a v c < 16 := by
    rw [sbcLowDigit_eq]
    simp only
    split <;> omega
  simp only [sbcDecimalDifference, ← Nat.mul_div_self_eq_mod_sub_self, Nat.cast_mul, Nat.cast_ofNat]
  rw [intBit_eq_decide_neg (by omega) (by omega)]
  simp only [decide_eq_true_eq]

/-- On decimal numbers the digits of the difference, counted up from a hundred below (R147). -/
theorem sbcDecimalDifference_of_bcd {a v : Byte} (ha : isBcd a = true) (hv : isBcd v = true) :
    sbcDecimalDifference a v c = bcdNumber (bcdValue a + 100 - bcdValue v - (1 - c.toNat)) - 0x100 := by
  obtain ⟨haHigh, haLow⟩ := isBcd_iff.mp ha
  obtain ⟨hvHigh, hvLow⟩ := isBcd_iff.mp hv
  have hc := c.toNat_le
  generalize hn : bcdValue a + 100 - bcdValue v - (1 - c.toNat) = n
  rw [bcdValue, bcdValue] at hn
  have hhigh : sbcLowDigit a v c + 16 * (a.toNat / 16 : ℕ) - 16 * (v.toNat / 16 : ℕ) =
      16 * ((n / 10 : ℕ) : Int) + (n % 10 : ℕ) - 160 := by
    rw [sbcLowDigit_eq]
    simp only
    split <;> omega
  rw [sbcDecimalDifference_eq]
  simp only [hhigh, bcdNumber]
  split <;> omega

/-- A byte stored from 0x100 below is the same byte (R17). -/
theorem narrow_sub_0x100 (n : ℕ) : narrow ((n : Int) - 0x100) = BitVec.ofNat 8 n := by
  apply BitVec.eq_of_toNat_eq
  rw [narrow, BitVec.toNat_ofInt, BitVec.toNat_ofNat]
  omega

end

/-! ## The obligations -/

/-- Settles O38: the sum is exact before it is narrowed, and bit 7 of operands and result tells the signed overflow. -/
theorem binaryAdcAdds : Obligations.BinaryAdcAdds := by
  intro g m s v hv hd sum signedSum
  have hsum : s.a.toNat + v.toNat + carryIn (s.flag .c) = sum := by rw [carryIn_eq_toNat]
  have hexec := exec_adc_binary hv hd g
  simp only [adcBinary, hsum] at hexec
  refine ⟨_, hexec, rfl, nzFrom_applyAlu _ rfl rfl, flag_c_applyAlu _ _, ?_, flagsKept_past_applyAlu _ _ _⟩
  exact (flag_v_applyAlu _ _).trans (overflowAdd_sum ..)

/-- Settles O41: SBC adds the complement, so C is the carry of that sum and V its signed overflow. -/
theorem binarySbcSubtracts : Obligations.BinarySbcSubtracts := by
  intro g w m s v hv hd borrow signedDiff out
  have hfull : sbcFull s.a v (s.flag .c) + v.toNat + borrow = s.a.toNat + 256 := sbcFull_add_borrow ..
  have hout : BitVec.ofNat 8 (sbcFull s.a v (s.flag .c)) = out := congrArg (BitVec.ofNat 8) (by omega)
  rw [← hout]
  refine ⟨_, exec_sbc_binary hv hd g w, rfl, nzFrom_applyAlu _ rfl rfl, ?c, ?v, flagsKept_past_applyAlu _ _ _⟩
  case c =>
    have hcarry : 0x100 ≤ sbcFull s.a v (s.flag .c) ↔ v.toNat + borrow ≤ s.a.toNat := by omega
    exact (flag_c_applyAlu _ _).trans (decide_eq_decide.mpr hcarry)
  case v => exact (flag_v_applyAlu _ _).trans (overflowSub_difference ..)

/-- Settles O39: the digits of the sum, with the carry into the hundreds; Z of NMOS is the binary sum's. -/
theorem decimalAdcAddsDigits : Obligations.DecimalAdcAddsDigits := by
  intro g m s v hv hd ha hbcd sum
  have hr : adcDecimalSum s.a v (s.flag .c) = bcdNumber sum := adcDecimalSum_of_bcd _ ha hbcd
  have hout : (adcDecimal g s.a v (s.flag .c)).a = BitVec.ofNat 8 (bcdNumber sum) := by
    rw [← hr]
    cases g <;> rfl
  have hcarry : (adcDecimal g s.a v (s.flag .c)).c = decide (0x99 < bcdNumber sum) := by
    rw [← hr]
    cases g <;> rfl
  refine ⟨_, exec_adc_decimal hv hd g, rfl, ?bcd, ?value, ?carry, ?nzOfCmos, ?zOfNmos, flagsKept_past_applyAlu _ _ _⟩
  case bcd => exact (congrArg isBcd hout).trans (isBcd_ofNat_bcdNumber sum)
  case value => exact (congrArg bcdValue hout).trans (bcdValue_ofNat_bcdNumber sum)
  case carry => rw [flag_c_applyAlu, hcarry, decide_eq_decide, lt_bcdNumber_iff]
  case nzOfCmos =>
    rintro rfl
    exact nzFrom_applyAlu _ rfl rfl
  case zOfNmos =>
    rintro rfl
    exact (flag_z_applyAlu _ _).trans (adcDecimalNmos_z ..)

/-- Settles O40: the statement's `rs` and `r` are the adder's, and each flag is read off the generation's formula. -/
theorem decimalAdcOnAllBytes : Obligations.DecimalAdcOnAllBytes := by
  intro g m s v hv hd low ln rs r
  have hrs : adcSignResult s.a v (s.flag .c) = rs := by
    simp only [adcSignResult, adcLowDigit, carryIn_eq_toNat, ← Nat.mul_div_self_eq_mod_sub_self, rs, ln, low]
  have hr : adcDecimalSum s.a v (s.flag .c) = r := by simp only [adcDecimalSum, hrs, r]
  have hbit : (BitVec.ofNat 8 rs).getLsbD 7 = rs.testBit 7 := by rw [BitVec.getLsbD_ofNat]; rfl
  rw [← hr]
  have hexec := exec_adc_decimal hv hd g
  cases g with
  | nmos =>
    refine ⟨_, hexec, rfl, flag_c_applyAlu _ _, fun _ => ⟨?flagN, ?flagZ, ?flagV⟩, nofun, flagsKept_past_applyAlu _ _ _⟩
    case flagN => rw [flag_n_applyAlu, ← hbit, ← hrs, ← BitVec.msb_eq_getLsbD_last]; rfl
    case flagZ => exact (flag_z_applyAlu _ _).trans (adcDecimalNmos_z ..)
    case flagV => rw [flag_v_applyAlu, ← hbit, ← hrs, ← overflowAdd_eq]; rfl
  | cmos =>
    exact ⟨_, hexec, rfl, flag_c_applyAlu _ _, nofun, fun _ => ⟨nzFrom_applyAlu _ rfl rfl, flag_v_applyAlu _ _⟩,
      flagsKept_past_applyAlu _ _ _⟩

/-- Settles O42: the digits of the difference, with the borrow from the hundreds; V is that of binary SBC. -/
theorem decimalSbcSubtractsDigits : Obligations.DecimalSbcSubtractsDigits := by
  intro g w m s v hv hd ha hbcd hcv borrow signedDiff
  have hdrawn : ¬ (g = .cmos ∧ w = .draw) := by
    rintro ⟨hg, rfl⟩
    cases hcv hg
  have hr : sbcDecimalDifference s.a v (s.flag .c) = bcdNumber (bcdValue s.a + 100 - bcdValue v - borrow) - 0x100 :=
    sbcDecimalDifference_of_bcd _ ha hbcd
  have hout := (congrArg narrow hr).trans (narrow_sub_0x100 _)
  have hcarry : 0 ≤ sbcDecimalDifference s.a v (s.flag .c) ↔ bcdValue v + borrow ≤ bcdValue s.a := by
    have hle := le_bcdNumber_iff (bcdValue s.a + 100 - bcdValue v - borrow)
    have hlt := bcdValue_lt hbcd
    have hborrow : borrow ≤ 1 := Nat.sub_le ..
    rw [hr]
    omega
  exact ⟨_, exec_sbc_decimal hv hd hdrawn, rfl, (congrArg isBcd hout).trans (isBcd_ofNat_bcdNumber _),
    (congrArg bcdValue hout).trans (bcdValue_ofNat_bcdNumber _),
    (flag_c_applyAlu _ _).trans (decide_eq_decide.mpr hcarry), nzFrom_applyAlu _ rfl rfl,
    (flag_v_applyAlu _ _).trans (overflowSub_difference ..), flagsKept_past_applyAlu _ _ _⟩

/-- Settles O43: A, N and Z are the NMOS adder's in every variant; a draw replaces C and V alone. -/
theorem decimalSbcOnAllBytes : Obligations.DecimalSbcOnAllBytes := by
  intro g w m s v hv hd borrow low ln high r signedDiff drawn
  have hr : sbcDecimalDifference s.a v (s.flag .c) = r := by
    simp only [sbcDecimalDifference_eq, sbcLowDigit_eq, r, high, ln, low, borrow]
  rw [← hr]
  by_cases hdrawn : drawn
  · rw [if_pos hdrawn]
    obtain ⟨rfl, rfl⟩ := hdrawn
    have hkept := flagsKept_past_applyAlu s { sbcDecimalNmos s.a v (s.flag .c) with
      c := Config.freeBit s.freeCount, v := Config.freeBit (s.freeCount + 1) } m
    exact ⟨_, exec_sbc_drawn hv hd, rfl, nzFrom_applyAlu (s.past m) rfl rfl,
      fun _ => ⟨flag_c_applyAlu (s.past m) _, flag_v_applyAlu (s.past m) _⟩, fun h => absurd ⟨rfl, rfl⟩ h, hkept⟩
  · rw [if_neg hdrawn]
    exact ⟨_, exec_sbc_decimal hv hd hdrawn, rfl, nzFrom_applyAlu _ rfl rfl, fun h => absurd h hdrawn,
      fun _ => ⟨flag_c_applyAlu _ _, (flag_v_applyAlu _ _).trans (overflowSub_difference ..)⟩,
      flagsKept_past_applyAlu _ _ _⟩

end Sys2Proof.Machine
end

section
/-!
PROOFS. Control flow (46_control_flow.md R151 to R164): the targets of branches and jumps, and the calls, traps and
returns as the pushes of R64 and R66 and the pops of R65 and R67.
-/

namespace Sys2Proof.Machine

open Sys2Proof

/-! ## Branches -/

/-- The target of a branch as a number: the signed offset is added to the next instruction's address (R81). -/
theorem add_sext16 (pc : Word) (offset : Byte) :
    pc + 1 + sext16 offset = BitVec.ofInt 16 (pc.toNat + 1 + offset.toInt) := by
  rw [BitVec.ofInt_add, BitVec.ofInt_add, BitVec.ofInt_natCast, BitVec.ofNat_toNat, BitVec.setWidth_eq]
  rfl

/-- A branch on a relative operand (R151). -/
theorem branch_relative (offset : Byte) (s : State) (taken : Bool) :
    branch (.relative offset) s taken =
      .next { s with pc := if taken then BitVec.ofInt 16 (s.pc.toNat + 1 + offset.toInt) else s.pc + 1 } := by
  rw [← add_sext16]
  cases taken <;> rfl

/-- Settles O45: four branches go where their flag is set, four where it is clear. -/
theorem branchesTestTheirFlag : Obligations.BranchesTestTheirFlag := by
  intro offset s goes
  have hset (f : Flag) : branch (.relative offset) s (s.flag f == true) = goes (s.flag f) := by
    rw [beq_true, branch_relative]
  have hclear (f : Flag) : branch (.relative offset) s (s.flag f == false) = goes (!s.flag f) := by
    rw [beq_false, branch_relative]
  exact ⟨hclear .c, hset .c, hclear .z, hset .z, hclear .n, hset .n, hclear .v, hset .v⟩

/-! ## Jumps -/

/-- JMP writes PC alone (R160). -/
theorem exec_jmp {m : Operand} {s : State} {ea : Word} (h : (resolve m s).ea = some ea) :
    exec (.jmp m) s = .next { s with pc := ea } :=
  exec_next_iff.mpr ⟨ea, h, rfl⟩

theorem add_one_eq_ofNat (w : Word) : w + 1 = BitVec.ofNat 16 (w.toNat + 1) := BitVec.add_def w 1

theorem loByte_eq_0xFF_iff (w : Word) : loByte w = 0xFF ↔ w.toNat % 0x100 = 0xFF := by
  rw [loByte_eq_ofNat]
  bv_omega

/-- The start of a word's page is the word with its low byte cleared. -/
theorem and_0xFF00_eq_word (w : Word) : w &&& 0xFF00 = word 0x00 (hiByte w) := by
  have hlo : loByte (w &&& 0xFF00) = 0x00 := BitVec.setWidth_and.trans BitVec.and_zero
  have hhi : hiByte (w &&& 0xFF00) = hiByte w := by
    rw [hiByte, BitVec.ushiftRight_and_distrib, BitVec.setWidth_and]
    exact BitVec.and_allOnes
  rw [← word_loByte_hiByte (w &&& 0xFF00), hlo, hhi]

theorem and_0xFF00_of_loByte {w : Word} (h : w.toNat % 0x100 = 0xFF) :
    w &&& 0xFF00 = BitVec.ofNat 16 (w.toNat - 0xFF) := by
  rw [and_0xFF00_eq_word, word_eq_ofNat, hiByte_eq_ofNat]
  bv_omega

/-- Where the page-bug sibling reads the high byte of its target (R86). -/
theorem pageBugTarget_eq (w : Word) (s : State) :
    pageBugTarget w s = s.readWord w (if w.toNat % 0x100 = 0xFF then BitVec.ofNat 16 (w.toNat - 0xFF)
      else BitVec.ofNat 16 (w.toNat + 1)) := by
  simp only [pageBugTarget, loByte_eq_0xFF_iff]
  split
  next h => rw [and_0xFF00_of_loByte h]
  next => rw [add_one_eq_ofNat]

/-- Settles O46: the pointer's two bytes are the word `resolve` yields, and `Kind.instr` substitutes on JMP alone. -/
theorem jumpsReachTheirTarget : Obligations.JumpsReachTheirTarget := by
  refine ⟨fun w s => ?_, fun c k m => ?_⟩
  · intro next pageStart target
    refine ⟨exec_jmp rfl, exec_jmp (congrArg some ?indirect), exec_jmp (congrArg some ?pageBug)⟩
    case indirect =>
      rw [add_one_eq_ofNat]
      exact word_eq_ofNat (s.read w) (s.read next)
    case pageBug =>
      rw [pageBugTarget_eq]
      exact word_eq_ofNat (s.read w) _
  · cases k with
    | jmp => cases m <;> rfl
    | _ => rfl

/-! ## Two and three bytes on the stack -/

theorem byte_sub_one_sub_one (b : Byte) : b - 1 - 1 = b - 2 := BitVec.sub_sub b 1 1
theorem byte_sub_two_sub_one (b : Byte) : b - 2 - 1 = b - 3 := BitVec.sub_sub b 2 1
theorem byte_add_one_add_one (b : Byte) : b + 1 + 1 = b + 2 := BitVec.add_assoc b 1 1
theorem byte_add_two_add_one (b : Byte) : b + 2 + 1 = b + 3 := BitVec.add_assoc b 2 1

theorem sub_beq_zero (b k : Byte) : (b - k == 0x00) = (b == k) := by
  rw [Bool.eq_iff_iff, beq_iff_eq, beq_iff_eq]
  exact sub_eq_zero

/-- What two pushes change: the bytes, S and `stack_wrapped` (R64, R66). -/
theorem pushed_pushed_eq (lo hi : Byte) (s : State) :
    pushed lo (pushed hi s) =
      { s with mem := (pushed lo (pushed hi s)).mem, sp := s.sp - 2, stackWrapped := s.sp == 0x01 } := by
  rw [← sub_beq_zero, ← byte_sub_one_sub_one]
  rfl

/-- What three pushes change (R64, R187). -/
theorem pushed_pushed_pushed_eq (b lo hi : Byte) (s : State) :
    pushed b (pushed lo (pushed hi s)) =
      { s with mem := (pushed b (pushed lo (pushed hi s))).mem, sp := s.sp - 3, stackWrapped := s.sp == 0x02 } := by
  rw [← sub_beq_zero, ← byte_sub_two_sub_one, ← byte_sub_one_sub_one]
  rfl

/-- The third push writes another byte than the first. -/
theorem mem_pushed_pushed_pushed_read (b lo hi : Byte) (s : State) :
    (pushed b (pushed lo (pushed hi s))).mem.read s.stackAddress.toNat = hi := by
  have hne : s.stackAddress ≠ (pushed lo (pushed hi s)).stackAddress := fun h => by
    have hsp := stackAddress_inj.mp h
    rw [sp_pushed, sp_pushed] at hsp
    bv_omega
  exact (State.read_write_other (pushed lo (pushed hi s)) b hne).trans (mem_pushed_pushed_read lo hi s)

/-- The third push writes two slots below the first (R64). -/
theorem read_third_pushed (b lo hi : Byte) (s : State) :
    (pushed b (pushed lo (pushed hi s))).read (s.setSp (s.sp - 2)).stackAddress = b := by
  rw [← byte_sub_one_sub_one]
  exact mem_pushed_read_same b (pushed lo (pushed hi s))

/-- What two pops change (R65, R67). -/
theorem popped_popped_eq (s : State) : popped (popped s) = { s with sp := s.sp + 2, stackWrapped := false } := by
  rw [← byte_add_one_add_one]
  rfl

/-- What three pops change (R65, R188). -/
theorem popped_popped_popped_eq (s : State) :
    popped (popped (popped s)) = { s with sp := s.sp + 3, stackWrapped := false } := by
  rw [← byte_add_two_add_one, ← byte_add_one_add_one]
  rfl

theorem poppedByte_popped (s : State) : poppedByte (popped s) = s.read (s.setSp (s.sp + 2)).stackAddress := by
  rw [← byte_add_one_add_one]
  rfl

theorem poppedByte_popped_popped (s : State) :
    poppedByte (popped (popped s)) = s.read (s.setSp (s.sp + 3)).stackAddress := by
  rw [← byte_add_two_add_one, ← byte_add_one_add_one]
  rfl

/-- Two pops take back two pushes while their bytes stand in memory (R66 to R68). -/
theorem popAddress_pushed_pushed {lo hi : Byte} {s : State} {mem : Memory} (hwrap : s.stackWrapped = false)
    (h0 : s.sp ≠ 0x00) (hlo : mem.read (pushed hi s).stackAddress.toNat = lo)
    (hhi : mem.read s.stackAddress.toNat = hi) :
    popAddress { pushed lo (pushed hi s) with mem := mem } = .ok (word lo hi, { s with mem := mem }) :=
  popAddress_of_ok (pop_pushed (by simpa using h0) hlo) (pop_pushed hwrap hhi)

/-! ## Calls and traps -/

section

variable {m : Operand} {s t : State}

/-- JSR is two pushes in the state that has jumped: a push neither reads nor writes PC (R161). -/
theorem exec_jsr_next_iff : exec (.jsr m) s = .next t ↔
    s.stackWrapped = false ∧ s.sp ≠ 0x00 ∧ ∃ ea, (resolve m s).ea = some ea ∧
      t = pushed (loByte (s.past m).pc) (pushed (hiByte (s.past m).pc) ((s.past m).setPc ea)) :=
  exec_next_iff

/-- The stack is in page one, so what is kept outside its slots keeps the vector (R27, R57). -/
theorem breakVector_of_memoryKept {slots : List State} (h : MemoryKept (slots.map State.stackAddress) s t) :
    t.breakVector = s.breakVector := by
  have hread (a : Word) (ha : 0x200 ≤ a.toNat) : t.read a = s.read a := by
    refine h a fun hmem => ?_
    obtain ⟨u, -, rfl⟩ := List.mem_map.mp hmem
    have hsp := u.sp.isLt
    rw [stackAddress_toNat] at ha
    omega
  rw [State.breakVector, State.readWord, hread _ (by decide), hread _ (by decide)]
  rfl

/-- The state in which BRK's three pushes run: I and B set, and PC already at the vector (R187). -/
def brkTarget (m : Operand) (s : State) : State := (brkEntry m s).setPc s.breakVector

/-- The trap is three pushes, none of them into the vector (R187). -/
theorem trapped_past (w : Word) (m : Operand) (s : State) :
    trapped w (s.past m) = pushed (s.p ||| 0x14#8) (pushed (loByte w) (pushed (hiByte w) (brkTarget m s))) := by
  obtain ⟨hkept, -⟩ := writesOnly_trapped (t := s.past m) rfl rfl w
  have hvector : (trapped w (s.past m)).breakVector = s.breakVector :=
    breakVector_of_memoryKept (slots := [s, s.setSp (s.sp - 1), s.setSp (s.sp - 2)]) hkept
  have hpushes : trapped w (s.past m) =
      (pushed (s.p ||| 0x14#8) (pushed (loByte w) (pushed (hiByte w) (brkEntry m s)))).setPc
        (trapped w (s.past m)).breakVector := by
    rw [trapped, setFlag_i_b_past]
    rfl
  rw [hpushes, hvector]
  rfl

/-- BRK is the trap (R163). -/
theorem exec_brk_next_iff : exec (.brk m) s = .next t ↔
    s.stackWrapped = false ∧ s.sp ≠ 0x00 ∧ s.sp ≠ 0x01 ∧
      t = pushed (s.p ||| 0x14#8) (pushed (loByte (s.lastOpcodeAddress + 2))
        (pushed (hiByte (s.lastOpcodeAddress + 2)) (brkTarget m s))) := by
  rw [← trapped_past]
  exact exec_next_iff

end

/-- Settles O47: two pushes, each byte at its slot. -/
theorem jsrPushesReturnAddress : Obligations.JsrPushesReturnAddress := by
  intro m s ea hea hwrap h0 second
  let u := (s.past m).setPc ea
  obtain ⟨hkept, -⟩ := writesOnly_pushed_pushed (t := u) rfl rfl (hiByte (s.past m).pc) (loByte (s.past m).pc)
  exact ⟨_, exec_jsr_next_iff.mpr ⟨hwrap, h0, ea, hea, rfl⟩, pushed_pushed_eq _ _ u,
    mem_pushed_pushed_read _ _ u, mem_pushed_read_same _ (pushed _ u), hkept⟩

/-- Settles O49: three pushes, each byte at its slot. -/
theorem brkTakesTheTrap : Obligations.BrkTakesTheTrap := by
  intro m s hwrap h0 h1 second third
  let u := brkTarget m s
  obtain ⟨hkept, -⟩ := writesOnly_trapped (t := s.past m) rfl rfl (s.lastOpcodeAddress + 2)
  rw [trapped_past] at hkept
  refine ⟨_, exec_brk_next_iff.mpr ⟨hwrap, h0, h1, rfl⟩, ?frame, mem_pushed_pushed_pushed_read _ _ _ u,
    mem_pushed_pushed_read _ _ (pushed _ u), read_third_pushed _ _ _ u, hkept⟩
  case frame =>
    rw [← word_eq_ofNat]
    exact pushed_pushed_pushed_eq _ _ _ u

/-! ## Returns -/

section

variable {m : Operand} {s t : State} {w : Word}

/-- RTS takes the popped word as it is (R162). -/
theorem exec_rts_of_ok (h : popAddress (s.past m) = .ok (w, t)) : exec (.rts m) s = .next (t.setPc w) := by
  simp only [exec, execRts, withNothing, resolve_after, h]

/-- RTI loads the popped P, then the popped PC, and clears I (R188). -/
theorem exec_rti_of_ok {b : Byte} {u : State} (h : pop (s.past m) = .ok (b, t))
    (h' : popAddress (t.setP b) = .ok (w, u)) : exec (.rti m) s = .next ((u.setPc w).setFlag .i false) := by
  have hreturn : returnFromBreak (s.past m) = .ok ((u.setPc w).setFlag .i false) := by
    simp only [returnFromBreak, h, h']
  exact congrArg finish hreturn

end

/-- Settles O48: two pops, the first byte the low one. -/
theorem rtsPopsPc : Obligations.RtsPopsPc := by
  intro m s hfe hcan
  rw [← word_eq_ofNat, ← poppedByte_popped]
  refine exec_next_iff.mpr ⟨hcan, hfe, ?_⟩
  rw [popped_popped_eq]
  rfl

/-- Settles O50: three pops, P first, and then the write of I. -/
theorem rtiReturnsFromTheTrap : Obligations.RtiReturnsFromTheTrap := by
  intro m s hfd hfe hcan
  rw [← word_eq_ofNat, ← poppedByte_popped, ← poppedByte_popped_popped]
  refine exec_next_iff.mpr ⟨hcan, hfe, hfd, ?_⟩
  rw [popped_popped_popped_eq]
  rfl

/-- RTI after the pushes of a trap: the word and P come back, and I is cleared (R187, R188). -/
theorem exec_rti_pushed {s : State} (w : Word) (hwrap : s.stackWrapped = false) (h0 : s.sp ≠ 0x00)
    (h1 : s.sp ≠ 0x01) :
    let t := pushed s.p (pushed (loByte w) (pushed (hiByte w) s))
    exec (.rti .implied) t = .next { s with mem := t.mem, p := s.p &&& 0xFB#8, pc := w } := by
  intro t
  let lo := loByte w
  let hi := hiByte w
  have hwrap' : (pushed lo (pushed hi s)).stackWrapped = false := (sub_beq_zero s.sp 1).trans (beq_false_of_ne h1)
  have hp := pop_pushed (mem := t.mem) hwrap' (mem_pushed_read_same s.p (pushed lo (pushed hi s)))
  have hpc := popAddress_pushed_pushed (mem := t.mem) hwrap h0 (mem_pushed_pushed_read s.p lo (pushed hi s))
    (mem_pushed_pushed_pushed_read s.p lo hi s)
  rw [word_loByte_hiByte] at hpc
  exact exec_rti_of_ok ((congrArg pop (past_implied t)).trans hp) hpc

/-- The trap sets I, the return clears it again (R187, R188). -/
theorem or_0x14_and_0xFB (p : Byte) : (p ||| 0x14#8) &&& 0xFB#8 = (p ||| 0x10#8) &&& 0xFB#8 := by
  rw [BitVec.and_or_distrib_right, BitVec.and_or_distrib_right]
  rfl

/-- Settles O51: the returns pop the bytes that the call and the trap pushed, in the reverse order. -/
theorem returnsUndoCallAndTrap : Obligations.ReturnsUndoCallAndTrap := by
  refine ⟨fun m s t h => ?jsr, fun m s t h => ?brk⟩
  case jsr =>
    obtain ⟨hwrap, h0, ea, -, ht⟩ := exec_jsr_next_iff.mp h
    obtain ⟨-, hpopAddress⟩ := pushThenPopReturns
    have hpop := hpopAddress (s.past m).pc ((s.past m).setPc ea) t (pushAddress_eq_ok_iff.mpr ⟨hwrap, h0, ht⟩)
    rw [← past_implied t] at hpop
    exact exec_rts_of_ok hpop
  case brk =>
    obtain ⟨hwrap, h0, h1, rfl⟩ := exec_brk_next_iff.mp h
    rw [← or_0x14_and_0xFB]
    exact exec_rti_pushed (s := brkTarget m s) (s.lastOpcodeAddress + 2) hwrap h0 h1

end Sys2Proof.Machine
end

section
/-!
PROOFS. The flag operations (47_flag_ops.md R167 to R173): one flag written past the operand, as a mask of P (R32).
-/

namespace Sys2Proof.Machine

open Sys2Proof

variable {i : Instr} {m : Operand} {s : State} {f : Flag} {mask : Byte}

/-- An instruction that sets one flag past its operand: the flag's weight joins P. -/
theorem exec_of_setFlag_true (h : exec i s = .next ((s.past m).setFlag f true)) (hmask : f.mask = mask) :
    exec i s = .next { s with pc := (s.past m).pc, p := s.p ||| mask } := by
  subst hmask
  exact h

/-- An instruction that clears one flag past its operand: P is cut to the other flags' bits. -/
theorem exec_of_setFlag_false (h : exec i s = .next ((s.past m).setFlag f false)) (hmask : ~~~f.mask = mask) :
    exec i s = .next { s with pc := (s.past m).pc, p := s.p &&& mask } := by
  subst hmask
  exact h

/-- Settles O52: each is one flag write past its operand, with the weight of its flag, or the complement, as mask. -/
theorem flagOperationsChangeOneBit : Obligations.FlagOperationsChangeOneBit := by
  intro m s
  refine ⟨?clc, ?sec, ?cld, ?sed, ?cli, ?sei, ?clv⟩
  case sec => exact exec_of_setFlag_true (f := .c) (exec_next_iff.mpr rfl) rfl
  case sed => exact exec_of_setFlag_true (f := .d) (exec_next_iff.mpr rfl) rfl
  case sei => exact exec_of_setFlag_true (f := .i) (exec_next_iff.mpr rfl) rfl
  case clc => exact exec_of_setFlag_false (f := .c) (exec_next_iff.mpr rfl) rfl
  case cld => exact exec_of_setFlag_false (f := .d) (exec_next_iff.mpr rfl) rfl
  case cli => exact exec_of_setFlag_false (f := .i) (exec_next_iff.mpr rfl) rfl
  case clv => exact exec_of_setFlag_false (f := .v) (exec_next_iff.mpr rfl) rfl

end Sys2Proof.Machine
end

section
/-!
PROOFS. Reset (70_reset_and_hazards.md R199 to R208): what it leaves of the state it starts from, and of construction.
-/

namespace Sys2Proof.Machine

open Sys2Proof

/-- Step 6 of reset is CLI and CLD with their counts under housekeeping, and nothing without it (R205). -/
theorem doHousekeeping_eq (c : Config) (s : State) :
    s.doHousekeeping c = { s with
      p := (s.doHousekeeping c).p
      numLoaded := s.numLoaded + (if c.housekeeping then 2 else 0)
      numExecuted := s.numExecuted + (if c.housekeeping then 2 else 0) } := by
  rw [State.doHousekeeping]
  cases c.housekeeping <;> rfl

/-- The CLI and CLD of step 6 find I and D clear already. -/
theorem p_doHousekeeping {s : State} (c : Config) (hp : s.p = 0x00) : (s.doHousekeeping c).p = 0x00 := by
  rw [State.doHousekeeping]
  cases c.housekeeping
  case false => exact hp
  case true => simp [hp]

/-- The last two steps of reset, from P clear: step 7 sets E and B (R205 to R207). -/
theorem doHousekeeping_setFlags {s : State} (c : Config) (hp : s.p = 0x00) :
    ((s.doHousekeeping c).setFlag .e true).setFlag .b true = { s with
      p := 0x30
      numLoaded := s.numLoaded + (if c.housekeeping then 2 else 0)
      numExecuted := s.numExecuted + (if c.housekeeping then 2 else 0) } := by
  have hflags : (((s.doHousekeeping c).setFlag .e true).setFlag .b true).p = 0x30 := by
    rw [State.p_setFlag, State.p_setFlag, p_doHousekeeping c hp]
    decide
  calc ((s.doHousekeeping c).setFlag .e true).setFlag .b true
    _ = (s.doHousekeeping c).setP (((s.doHousekeeping c).setFlag .e true).setFlag .b true).p := rfl
    _ = _ := by rw [hflags, doHousekeeping_eq, State.setP]

/-- The reset vector as a number (R201). -/
theorem resetVector_eq (s : State) :
    s.resetVector = BitVec.ofNat 16 ((s.mem.read 0xFFFC).toNat + 256 * (s.mem.read 0xFFFD).toNat) :=
  word_eq_ofNat _ _

/-- Everything reset does (R200 to R208). -/
theorem hostReset_eq (c : Config) (s : State) : hostReset c s =
    { s with
      a := 0x00, x := 0x00, y := 0x00, sp := 0xFF, p := 0x30
      pc := BitVec.ofNat 16 ((s.mem.read 0xFFFC).toNat + 256 * (s.mem.read 0xFFFD).toNat)
      stackWrapped := false
      numLoaded := s.numLoaded + (if c.housekeeping then 2 else 0)
      numExecuted := s.numExecuted + (if c.housekeeping then 2 else 0)
      outcome := .next } := by
  rw [hostReset, doHousekeeping_setFlags c rfl, ← resetVector_eq]
  rfl

/-- Settles O4: the steps of reset in turn; after construction memory is zero, and with it the vector, and so are the
counters. -/
theorem resetProtocol : Obligations.ResetProtocol := by
  refine ⟨hostReset_eq, fun c u => ?_⟩
  rw [hostReset_eq]
  simp only [construct, Memory.read, Nat.zero_add]
  rfl

end Sys2Proof.Machine
end

section
/-!
PROOFS. The host's requests (60_exceptions.md R185, R197): what setting `run_state` and the breakpoints do, and that
every call of the host keeps the invariant (20_memory.md R49, 10_state.md R42, R46).
-/

namespace Sys2Proof.Machine

open Sys2Proof

section

variable {s t : State} {addr : Word} {l : List Word}

/-! ## `run_state` and the breakpoints -/

theorem setRunState_same (s : State) : setRunState s s.runState = (none, s) := by
  rw [setRunState, if_pos rfl]

theorem setRunState_of_ne {r : RunState} (h : s.runState ≠ r) :
    setRunState s r = (some (.stateChanged r), { s with runState := r }) := by
  rw [setRunState, if_neg h]

/-- Clearing takes out the address and no other (R197). -/
theorem mem_clearBreakpoint {b : Word} :
    b ∈ (clearBreakpoint s addr).breakpoints ↔ b ≠ addr ∧ b ∈ s.breakpoints := by
  rw [clearBreakpoint, List.mem_filter, bne_iff_ne, and_comm]

/-! ## The set of breakpoints -/

/-- The set form as an order between every two addresses of the list. -/
theorem risingWords_iff_pairwise : risingWords l = true ↔ l.Pairwise (· < ·) := by
  rw [← List.isChain_iff_pairwise]
  induction l with
  | nil => simp [risingWords]
  | cons a rest ih =>
    cases rest with
    | nil => simp [risingWords]
    | cons b rest => rw [risingWords, Bool.and_eq_true, decide_eq_true_iff, ih, List.isChain_cons_cons, BitVec.lt_def]

/-- An address goes between the lower ones and the higher ones, or is there already (R46). -/
theorem risingWords_insertAddress (h : risingWords l = true) : risingWords (insertAddress addr l) = true := by
  rw [risingWords_iff_pairwise] at h ⊢
  induction l with
  | nil => exact List.pairwise_singleton _ _
  | cons b rest ih =>
    obtain ⟨hb, hrest⟩ := List.pairwise_cons.mp h
    rw [insertAddress]
    split
    next hlt =>
      refine List.pairwise_cons.mpr ⟨fun d hd => ?_, h⟩
      obtain rfl | hd := List.mem_cons.mp hd
      · exact hlt
      · exact Nat.lt_trans hlt (hb d hd)
    split
    next => exact h
    next hle hne =>
      refine List.pairwise_cons.mpr ⟨fun d hd => ?_, ih hrest⟩
      obtain rfl | hd := mem_insertAddress.mp hd
      · exact Nat.lt_of_le_of_ne (Nat.le_of_not_lt hle) fun h => hne (BitVec.eq_of_toNat_eq h).symm
      · exact hb d hd

/-! ## The invariant -/

/-- Reset clears `stack_wrapped` and keeps memory and the breakpoints (R204, R208). -/
theorem stateInv_hostReset (c : Config) (h : StateInv s) : StateInv (hostReset c s) := by
  obtain ⟨hmem, hbps, -⟩ := stateInv_iff.mp h
  obtain ⟨hm, hb, hw⟩ := hostReset_keeps c s
  exact stateInv_iff.mpr ⟨hm ▸ hmem, hb ▸ hbps, by simp [hw]⟩

/-- A host write that answers is a write in range (R51). -/
theorem stateInv_hostWrite {a : Int} {v : Byte} (h : StateInv s) (hw : hostWrite s a v = .ok t) : StateInv t := by
  obtain ⟨hmem, hbps, hstack⟩ := stateInv_iff.mp h
  obtain ⟨n, -, hn, rfl⟩ := hostWrite_eq_ok hw
  exact stateInv_iff.mpr ⟨Memory.wf_write s.mem n v hn hmem, hbps, hstack⟩

/-- A program load is one host write after another (R69). -/
theorem stateInv_loadProgram {offset : Nat} {bytes : List Byte} (h : StateInv s)
    (hl : loadProgram s offset bytes = .ok t) : StateInv t := by
  induction bytes generalizing s offset with
  | nil =>
    obtain rfl := Except.ok.inj hl
    exact h
  | cons b rest ih =>
    rw [loadProgram] at hl
    split at hl
    next => cases hl
    next u hu => exact ih (stateInv_hostWrite h hu) hl

theorem stateInv_setBreakpoint (addr : Word) (h : StateInv s) : StateInv (setBreakpoint s addr) := by
  obtain ⟨hmem, hbps, hstack⟩ := stateInv_iff.mp h
  exact stateInv_iff.mpr ⟨hmem, risingWords_insertAddress hbps, hstack⟩

theorem stateInv_clearBreakpoint (addr : Word) (h : StateInv s) : StateInv (clearBreakpoint s addr) := by
  obtain ⟨hmem, hbps, hstack⟩ := stateInv_iff.mp h
  have hkept : risingWords (s.breakpoints.filter (· != addr)) = true :=
    risingWords_iff_pairwise.mpr ((risingWords_iff_pairwise.mp hbps).filter _)
  exact stateInv_iff.mpr ⟨hmem, hkept, hstack⟩

end

/-- Settles O60: the signal is given on a change alone, and the set gains or loses the one address. -/
theorem hostSetsRunStateAndBreakpoints : Obligations.HostSetsRunStateAndBreakpoints := by
  refine ⟨fun s r => ⟨?_, setRunState_of_ne⟩, fun s addr => ⟨fun b => mem_insertAddress, rfl⟩,
    fun s addr => ⟨fun b => mem_clearBreakpoint, rfl⟩⟩
  rintro rfl
  exact setRunState_same s

/-- Settles O7: construction starts from empty memory and an empty set with `stack_wrapped` clear, and each call touches
at most one part of the invariant. -/
theorem hostCallsKeepInvariant : Obligations.HostCallsKeepInvariant := by
  refine ⟨fun u => stateInv_iff.mpr ⟨rfl, rfl, nofun⟩, fun c s => stateInv_hostReset c,
    fun s addr v t => stateInv_hostWrite, fun s offset bytes t => stateInv_loadProgram, fun s r => ?_,
    fun s addr => stateInv_setBreakpoint addr, fun s addr => stateInv_clearBreakpoint addr⟩
  exact (stateInv_congr rfl rfl rfl rfl).mpr

end Sys2Proof.Machine
end

section
/-!
PROOFS. The faults that can arise (60_exceptions.md R175 to R181): an instruction of the table completes or stops at the
stack, and before it a step can only meet a byte without an entry.
-/

namespace Sys2Proof.Machine

open Sys2Proof

/-- An outcome that is a next state, or a fault of the given sort; never a refusal. -/
def CompletesOr (P : Fault → Prop) : Host.Outcome State Fault Refusal → Prop
  | .next _ => True
  | .fault f => P f
  | .refused _ => False

/-- The two faults of the stack (R180). -/
def StackFault (f : Fault) : Prop := (∃ left, f = .stackOverflow left) ∨ ∃ left, f = .stackUnderflow left

section

variable {m : Operand} {i : Instr} {s : State} {b : Byte} {w : Word} {f : Fault}

/-! ## Outside the stack instructions -/

/-- A read-modify-write with a value and a place for its result completes (R97). -/
theorem exists_modifyEffect {result : Byte → State → Byte} {flags : Byte → Byte → State → State}
    (h : m = .accumulator ∨ (resolve m s).ea.isSome = true) : ∃ t, ModifyEffect m s t result flags := by
  obtain hm | hea := h
  · exact ⟨_, .inl ⟨hm, rfl⟩⟩
  · obtain ⟨ea, hea⟩ := Option.isSome_iff_exists.mp hea
    exact ⟨_, .inr ⟨ea, hea, rfl⟩⟩

theorem exists_valueEffect {body : Byte → State → State} (h : (resolve m s).value.isSome = true) :
    ∃ t, ValueEffect m s t body := by
  obtain ⟨v, hv⟩ := Option.isSome_iff_exists.mp h
  exact ⟨_, v, hv, rfl⟩

theorem exists_addressEffect {body : Word → State → State} (h : (resolve m s).ea.isSome = true) :
    ∃ t, AddressEffect (resolve m s) t body := by
  obtain ⟨ea, hea⟩ := Option.isSome_iff_exists.mp h
  exact ⟨_, ea, hea, rfl⟩

/-- The kinds that push or pull (R180). -/
def stackKinds : List Kind := [.pha, .php, .jsr, .brk, .pla, .plp, .rts, .rti]

/-- Outside the stack kinds an operand that suffices is all that an instruction asks for (R96). -/
theorem exists_effect (h : operandsSuffice i s = true) (hk : i.kind ∉ stackKinds) : ∃ t, Effect i s t := by
  rw [operandsSuffice, Bool.and_eq_true] at h
  obtain ⟨hvalue, hea⟩ := h
  cases i with
  | lda m | ldx m | ldy m | and m | ora m | eor m | bit m | cmp m | cpx m | cpy m | adc m | sbc m =>
    simp only [Effect]
    exact exists_valueEffect hvalue
  | sta m | stx m | sty m | bcc m | bcs m | beq m | bne m | bmi m | bpl m | bvc m | bvs m | jmp m =>
    simp only [Effect]
    exact exists_addressEffect hea
  | inc m | dec m | asl m | lsr m | rol m | ror m =>
    simp only [Effect]
    exact exists_modifyEffect (by simpa [needsAddress, Instr.kind, Instr.operand] using hea)
  | tax m | tay m | txa m | tya m | tsx m | txs m | inx m | iny m | dex m | dey m | nop m | clc m | sec m | cld m
  | sed m | cli m | sei m | clv m => exact ⟨_, rfl⟩
  | pha m | php m | pla m | plp m | jsr m | rts m | brk m | rti m => simp [stackKinds, Instr.kind] at hk

/-! ## The stack instructions -/

theorem stackFault_of_push (h : push b s = .error f) : StackFault f := by
  cases hw : s.stackWrapped
  · rw [push_ok hw] at h
    cases h
  · rw [push_error hw] at h
    exact .inl ⟨s, (Except.error.inj h).symm⟩

theorem stackFault_of_pop (h : pop s = .error f) : StackFault f := by
  by_cases hc : CanPop s
  · rw [pop_ok hc] at h
    cases h
  · obtain ⟨hsp, hw⟩ := not_canPop.mp hc
    rw [pop_error hsp hw] at h
    exact .inr ⟨s, (Except.error.inj h).symm⟩

theorem stackFault_of_pushAddress (h : pushAddress w s = .error f) : StackFault f := by
  rw [pushAddress] at h
  split at h
  next hhi =>
    obtain rfl := Except.error.inj h
    exact stackFault_of_push hhi
  next => exact stackFault_of_push h

theorem stackFault_of_popAddress (h : popAddress s = .error f) : StackFault f := by
  rw [popAddress] at h
  split at h
  next hlo =>
    obtain rfl := Except.error.inj h
    exact stackFault_of_pop hlo
  next =>
    split at h
    next hhi =>
      obtain rfl := Except.error.inj h
      exact stackFault_of_pop hhi
    next => cases h

/-- The trap faults in one of its pushes (R187). -/
theorem stackFault_of_takeBreak (h : takeBreak w s = .error f) : StackFault f := by
  simp only [takeBreak] at h
  split at h
  next haddress =>
    obtain rfl := Except.error.inj h
    exact stackFault_of_pushAddress haddress
  next =>
    split at h
    next hp =>
      obtain rfl := Except.error.inj h
      exact stackFault_of_push hp
    next => cases h

/-- The return from it faults in one of its pops (R188). -/
theorem stackFault_of_returnFromBreak (h : returnFromBreak s = .error f) : StackFault f := by
  rw [returnFromBreak] at h
  split at h
  next hp =>
    obtain rfl := Except.error.inj h
    exact stackFault_of_pop hp
  next =>
    split at h
    next haddress =>
      obtain rfl := Except.error.inj h
      exact stackFault_of_popAddress haddress
    next => cases h

theorem completesOr_finish {P : Fault → Prop} {r : Except Fault State} (h : ∀ f, r = .error f → P f) :
    CompletesOr P (finish r) := by
  cases r with
  | ok t => trivial
  | error f => exact h f rfl

/-- An instruction whose operand suffices completes or stops at the stack (R180). -/
theorem exec_completesOr_stackFault (h : operandsSuffice i s = true) : CompletesOr StackFault (exec i s) := by
  by_cases hk : i.kind ∈ stackKinds
  · cases i with
    | pha m | php m => exact completesOr_finish fun _ => stackFault_of_push
    | brk m => exact completesOr_finish fun _ => stackFault_of_takeBreak
    | rti m => exact completesOr_finish fun _ => stackFault_of_returnFromBreak
    | pla m | plp m =>
      simp only [exec, execPla, execPlp, withNothing]
      split
      next hp => exact stackFault_of_pop hp
      next => trivial
    | rts m =>
      simp only [exec, execRts, withNothing]
      split
      next hp => exact stackFault_of_popAddress hp
      next => trivial
    | jsr m =>
      rw [operandsSuffice, Bool.and_eq_true] at h
      obtain ⟨-, haddress⟩ := h
      obtain ⟨ea, hea⟩ : ∃ ea, (resolve m s).ea = some ea := Option.isSome_iff_exists.mp haddress
      simp only [exec, execJsr]
      rw [withAddress_some hea]
      split
      next hp => exact stackFault_of_pushAddress hp
      next => trivial
    | _ => simp [stackKinds, Instr.kind] at hk
  · obtain ⟨t, ht⟩ := exists_effect h hk
    rw [exec_next_iff.mpr ht]
    trivial

/-! ## The step -/

/-- A step that something stops before its fetch answers a next state (R90, R92). -/
theorem exists_next_of_not_fetches {c : Config} {table : OpcodeTable} (h : ¬ Fetches c s) :
    ∃ t, stepWith c table s = .next t := by
  cases hl : s.atLoadLimit c
  · have hb : s.atBreakpoint = true := by simpa [fetches_iff, hl] using h
    exact ⟨_, stepWith_atBreakpoint hl hb⟩
  · exact ⟨_, stepWith_atLoadLimit hl⟩

end

/-- A step under the default table completes, meets a byte without an entry, or stops at the stack (R178, R180). -/
theorem stepWith_completesOr (c : Config) (s : State) :
    CompletesOr (fun f => (∃ op addr left, f = .undocumented op addr left) ∨ StackFault f)
      (stepWith c defaultTable s) := by
  by_cases hf : Fetches c s
  · obtain ⟨hop, -⟩ | ⟨kind, mode, operand, rest, -, -, hd⟩ := decodeWith_bytesAtPc c defaultTable s
    · rw [stepWith_undocumented hf hop]
      exact .inl ⟨_, _, _, rfl⟩
    · obtain ⟨hwf, -, -⟩ := encodeOfDecode c _ _ _ hd
      have hx := exec_completesOr_stackFault (operandsSuffice_of_wellFormed (s := s.fetchOpcode) hwf)
      cases h : exec (kind.instr c operand) s.fetchOpcode with
      | next t =>
        rw [stepWith_of_exec hf hd h]
        trivial
      | fault f =>
        rw [h] at hx
        rw [stepWith_of_exec_fault hf hd h]
        exact .inr hx
      | refused r =>
        rw [h] at hx
        exact hx.elim
  · obtain ⟨t, ht⟩ := exists_next_of_not_fetches (table := defaultTable) hf
    rw [ht]
    trivial

/-- Settles O58: the operand of a well-formed instruction suffices, and outside the stack kinds nothing else is
asked. -/
theorem onlyStackInstructionsCanFault : Obligations.OnlyStackInstructionsCanFault := by
  intro i s hwf hk
  obtain ⟨t, ht⟩ := exists_effect (operandsSuffice_of_wellFormed hwf) hk
  exact ⟨t, exec_next_iff.mpr ht⟩

/-- Settles O14: what the default table decodes is well-formed, so the instruction of a step completes or stops at the
stack. -/
theorem onlyThreeFaultsCanArise : Obligations.OnlyThreeFaultsCanArise := by
  intro c s
  have h := stepWith_completesOr c s
  refine ⟨fun f hf => ?_, fun r hr => ?_⟩
  · rw [hf] at h
    exact h
  · rw [hr] at h
    exact h

end Sys2Proof.Machine
end
